-- ==== Sys2Proof/Word.lean ====
section
/-! DEFINITION. The machine's single scalar type and the two readings of it (00_scope.md rule R8). -/

namespace Sys2Proof

/-- A Word: 32 bits, bit 0 the least significant (rule R8).  Two's complement is from general knowledge, entry G1 (log 1). -/
abbrev Word := BitVec 32

/-- One byte of a stream, of a token or of an image (rules R110, R111, R171). -/
abbrev Byte := BitVec 8

/-- `S(w)`, the signed value of a Word (rule R8). -/
abbrev S (w : Word) : Int := w.toInt

/-- `U(w)`, the unsigned value of a Word (rule R8). -/
abbrev U (w : Word) : Nat := w.toNat

/-- `w32(n)`, the Word whose unsigned value is `n mod 2^32` (rule R8). -/
abbrev w32 (n : Int) : Word := BitVec.ofInt 32 n

end Sys2Proof
end

