-- ==== Sys2Proof/Config.lean ====
section
/-! DEFINITION. What an implementation fixes: the closed enumeration of opcodes, the opcode number map `OPNUM`, and the
parameters of 00_scope.md rule R6.  A machine carries its parameters in its state (`State.cfg`); no step changes them. -/

namespace Sys2Proof

/-- The 24 opcodes, "a fixed closed enumeration", in the source's order (30_encoding.md rule R72).  `inp` is `IN`: that word
is a keyword of Lean. -/
inductive Opcode where
  | nop | add | sub | and | or | xor | not | compl | inp | out | outnum | load
  | stor | jmp | jz | jnz | push | dup | swap | rol3 | puship | popip | dropip | drop
deriving DecidableEq, Repr

/-- Every opcode, in the enumeration's order (rule R72). -/
def Opcode.all : List Opcode :=
  [.nop, .add, .sub, .and, .or, .xor, .not, .compl, .inp, .out, .outnum, .load,
   .stor, .jmp, .jz, .jnz, .push, .dup, .swap, .rol3, .puship, .popip, .dropip, .drop]

/-- The position of an opcode in the enumeration, `NOP = 0` to `DROP = 23` (rule R72, first column). -/
def Opcode.index : Opcode → Fin 24
  | .nop => 0
  | .add => 1
  | .sub => 2
  | .and => 3
  | .or => 4
  | .xor => 5
  | .not => 6
  | .compl => 7
  | .inp => 8
  | .out => 9
  | .outnum => 10
  | .load => 11
  | .stor => 12
  | .jmp => 13
  | .jz => 14
  | .jnz => 15
  | .push => 16
  | .dup => 17
  | .swap => 18
  | .rol3 => 19
  | .puship => 20
  | .popip => 21
  | .dropip => 22
  | .drop => 23

/-- The parameter `OPNUM`: the Word of each opcode, listed in the enumeration's order (rule R6, rule R72). -/
abbrev OpNum := Vector Word 24

/-- `OPNUM(op)` (rule R72). -/
def OpNum.num (t : OpNum) (op : Opcode) : Word := t[op.index]

/-- The default map: each opcode's number is its position in the enumeration (rule R72, decision D1). -/
def OpNum.default : OpNum :=
  #v[0, 1, 2, 3, 4, 5, 6, 7, 8, 9, 10, 11, 12, 13, 14, 15, 16, 17, 18, 19, 20, 21, 22, 23]

/-- `UNDERFLOW_POLICY` (rule R6, decision D5). -/
inductive UnderflowPolicy where
  | halt
  | continueWithZero
deriving DecidableEq, Repr

/-- `IP_OVERFLOW_POLICY` (rule R6, decision D6). -/
inductive IpOverflowPolicy where
  | fault
  | wrapToZero
deriving DecidableEq, Repr

/-- `IMAGE_BYTE_ORDER`, used only by the image format (rule R6, decision D24). -/
inductive ByteOrder where
  | little
  | big
deriving DecidableEq, Repr

/-- The parameters of one machine (rule R6). -/
structure Config where
  /-- `M`, the number of Words of memory. -/
  memWords : Nat
  /-- `OPNUM`. -/
  opnum : OpNum
  /-- `UNDERFLOW_POLICY`. -/
  underflow : UnderflowPolicy
  /-- `IP_OVERFLOW_POLICY`. -/
  ipOverflow : IpOverflowPolicy
  /-- `IN_EOF_WORD`. -/
  inEofWord : Word
  /-- `DSTACK_CAP`; `none` is unbounded. -/
  dstackCap : Option Nat
  /-- `RSTACK_CAP`; `none` is unbounded. -/
  rstackCap : Option Nat
  /-- `IMAGE_BYTE_ORDER`. -/
  imageByteOrder : ByteOrder
deriving DecidableEq, Repr

/-- The defaults of rule R6.  DESIGN CHOICE: `M` has no default in the spec (log 4) and `IMAGE_BYTE_ORDER` is open (log 20). -/
def Config.default : Config where
  memWords := 2147483647
  opnum := OpNum.default
  underflow := .halt
  ipOverflow := .fault
  inEofWord := 0xFFFFFFFF
  dstackCap := none
  rstackCap := none
  imageByteOrder := .little

/-- `PLACEHOLDER`, the Word `0xFFFFFFFF` (rule R6). -/
def placeholder : Word := 0xFFFFFFFF

end Sys2Proof
end

