-- ==== Sys2Proof/Syntax.lean ====
section
/-! DEFINITION. The instructions: one constructor per row of spec/opcode_table.json, in the table's order. -/

namespace Sys2Proof

/-- An instruction.  Format S has no operand field; format I carries `imm32`, the Word that follows the opcode Word
(30_encoding.md rules R70, R71). -/
inductive Instr where
  | nop
  | add
  | sub
  | and
  | or
  | xor
  | not
  | compl
  | inp
  | out
  | outnum
  | load
  | stor
  | jmp
  | jz
  | jnz
  | push (imm : Word)
  | dup
  | swap
  | rol3
  | puship (imm : Word)
  | popip
  | dropip
  | drop
deriving DecidableEq, Repr

/-- The opcode of an instruction. -/
def Instr.opcode : Instr → Opcode
  | .nop => .nop
  | .add => .add
  | .sub => .sub
  | .and => .and
  | .or => .or
  | .xor => .xor
  | .not => .not
  | .compl => .compl
  | .inp => .inp
  | .out => .out
  | .outnum => .outnum
  | .load => .load
  | .stor => .stor
  | .jmp => .jmp
  | .jz => .jz
  | .jnz => .jnz
  | .push _ => .push
  | .dup => .dup
  | .swap => .swap
  | .rol3 => .rol3
  | .puship _ => .puship
  | .popip => .popip
  | .dropip => .dropip
  | .drop => .drop

end Sys2Proof
end

