-- ==== Sys2Proof/WellFormed.lean ====
section
/-! DEFINITION. The checks on parameters and instructions: the constraints of 00_scope.md rule R6 and of
30_encoding.md rule R72 on a replacement of `OPNUM`, and what they ask of one instruction. -/

namespace Sys2Proof

/-- `OPNUM` is injective (rule R6): no two opcodes share a number. -/
def OpNum.injective (t : OpNum) : Bool := decide (Opcode.all.map t.num).Nodup

/-- A legal `OPNUM`: injective, with `OPNUM(NOP) = 0` (rule R72, decision D1). -/
def OpNum.wf (t : OpNum) : Bool := t.injective && t.num .nop == 0

/-- `1 <= M <= 2^31 - 1` (rule R6, decision D12). -/
def Config.memWordsOk (c : Config) : Bool := decide (1 ≤ c.memWords ∧ c.memWords ≤ 2147483647)

/-- Legal parameters (rule R6). -/
def Config.wf (c : Config) : Bool := c.memWordsOk && c.opnum.wf

/-- An instruction is well formed under a map when its opcode's number names that opcode and no other (rule R77: decode
"is well defined because `OPNUM` is injective").  The operand field of format I takes every Word (rule R73). -/
def Instr.wf (t : OpNum) (i : Instr) : Bool :=
  Opcode.all.filter (fun op => t.num op == t.num i.opcode) == [i.opcode]

end Sys2Proof
end

