-- ==== Sys2Proof/Decode.lean ====
section
/-! DEFINITION. The decoder and, after it, the encoder (30_encoding.md rules R70 to R77). -/

namespace Sys2Proof

/-- Why a sequence of Words is not an instruction. -/
inductive DecodeError where
  /-- There is no Word to decode. -/
  | noWord
  /-- The Word is none of the 24 opcode numbers (rule R76). -/
  | illegalOpcode (w : Word)
  /-- A format I opcode Word with no operand Word after it (rule R70). -/
  | noOperand (op : Opcode)
deriving DecidableEq, Repr

/-- `decode(w)`: the opcode whose number is the whole Word, or `none` for illegal (rule R77). -/
def decodeOpcode (t : OpNum) (w : Word) : Option Opcode :=
  Opcode.all.find? (fun op => t.num op == w)

/-- Format I: the opcode takes the next Word as its inline operand (rule R70). -/
def Opcode.hasOperand : Opcode → Bool
  | .push => true
  | .puship => true
  | _ => false

/-- The length in Words, known from the opcode alone (rule R74). -/
def Opcode.length (op : Opcode) : Nat := if op.hasOperand then 2 else 1

/-- The instruction of an opcode; a format S opcode has no use for the Word. -/
def Opcode.instr (op : Opcode) (imm : Word) : Instr :=
  match op with
  | .nop => .nop
  | .add => .add
  | .sub => .sub
  | .and => .and
  | .or => .or
  | .xor => .xor
  | .not => .not
  | .compl => .compl
  | .inp => .inp
  | .out => .out
  | .outnum => .outnum
  | .load => .load
  | .stor => .stor
  | .jmp => .jmp
  | .jz => .jz
  | .jnz => .jnz
  | .push => .push imm
  | .dup => .dup
  | .swap => .swap
  | .rol3 => .rol3
  | .puship => .puship imm
  | .popip => .popip
  | .dropip => .dropip
  | .drop => .drop

/-- Decode the instruction at the head of a sequence of Words, and give what follows it (rules R70, R74, R76, R77). -/
def decode (t : OpNum) : List Word → Except DecodeError (Instr × List Word)
  | [] => .error .noWord
  | w :: rest =>
    match decodeOpcode t w with
    | none => .error (.illegalOpcode w)
    | some op =>
      match op.hasOperand, rest with
      | false, _ => .ok (op.instr 0, rest)
      | true, imm :: rest' => .ok (op.instr imm, rest')
      | true, [] => .error (.noOperand op)

/-- The two Words of an instruction numbered as spec/opcode_table.json numbers it: bit 0 is the least significant bit of
the first Word, the second Word is bits 63 to 32, and every bit from `nbits` up is 0. -/
def tableWords (nbits w : Nat) : List Word :=
  [BitVec.ofNat 32 (w % 2 ^ nbits), BitVec.ofNat 32 (w % 2 ^ nbits / 2 ^ 32)]

/-- What the decoder reads from one row's bits under the default `OPNUM`. -/
def decodeTableWord (nbits w : Nat) : Option Instr :=
  match decode OpNum.default (tableWords nbits w) with
  | .ok (i, _) => some i
  | .error _ => none

/-- The Words of an instruction: the opcode's number and, for format I, the operand Word (rule R71). -/
def encode (t : OpNum) : Instr → List Word
  | .push imm => [t.num .push, imm]
  | .puship imm => [t.num .puship, imm]
  | i => [t.num i.opcode]

end Sys2Proof
end

