-- ==== Sys2Proof/Machine/State.lean ====
section
/-! DEFINITION. The state of the machine (10_state.md rule R20) as plain data, the causes and diagnostics it records, the
reasons a step can stop, and the machine right after reset (rule R34). -/

namespace Sys2Proof.Machine

/-- A token, a label name: a sequence of bytes (46_assembler_patch_table.md rules R171, R176). -/
abbrev Token := List Byte

/-- One listed Word of memory, its address first.  The Word is the smallest addressable unit (20_memory.md rule R50), so a
cell holds a Word and no byte order is invented (rule R54, log 2). -/
abbrev Cell := Nat × Word

/-- Memory: the Words that are not `NOP`, by strictly rising address.  An address not listed reads as the Word 0, which is
`NOP` (20_memory.md rule R57, 10_state.md rule R34). -/
abbrev Memory := List Cell

/-- The canonical form: addresses strictly rising, and no cell holding what an unlisted address reads as. -/
def Memory.wf (m : Memory) : Bool :=
  decide (m.Pairwise (fun p q => p.1 < q.1)) && m.all (fun p => p.2 != 0)

/-- Which of the two stacks a fault speaks of (60_exceptions.md rule R220). -/
inductive StackId where
  | data
  | ret
deriving DecidableEq, Repr

/-- A runtime fault cause with its payload (60_exceptions.md rule R220). -/
inductive Cause where
  /-- Code 1: a stack-derived address outside `0 .. M - 1`. -/
  | addressOutOfBounds (op : Opcode) (a : Word)
  /-- Code 2: a pop from an empty stack. -/
  | stackUnderflow (stack : StackId) (op : Opcode)
  /-- Code 3: the fetched Word is no opcode number. -/
  | illegalOpcode (w : Word) (ip : Word)
  /-- Code 4: a fetch address outside `0 .. M - 1`. -/
  | ipOutOfBounds (a : Word)
  /-- Code 5: a push on a full stack, only with a finite cap. -/
  | stackOverflow (stack : StackId) (op : Opcode)
deriving DecidableEq, Repr

/-- An assembly diagnostic with its payload (60_exceptions.md rule R230). -/
inductive AsmError where
  /-- A1: never raised (rule R192). -/
  | unknownOpcode (token : Token)
  /-- A2. -/
  | unknownEscape (token : Token)
  /-- A3. -/
  | reservedLabel (name : Token)
  /-- A4. -/
  | unresolvedLabel (name : Token)
  /-- A5. -/
  | imageTooLarge (wp : Word)
  /-- A6. -/
  | literalOutOfRange (token : Token)
deriving DecidableEq, Repr

/-- An assembly diagnostic as `asm_diag` keeps it, with the source line where it is known (rules R173, R194, R230). -/
structure AsmReport where
  error : AsmError
  line : Option Nat
deriving DecidableEq, Repr

/-- A value delivered to the diagnostic sink (70_reset_and_hazards.md rule R262). -/
inductive Diagnostic where
  | runtime (c : Cause)
  | assembly (r : AsmReport)
deriving DecidableEq, Repr

/-- The input stream bound to the machine, an oracle (41_io.md rule R110): the bytes it has supplied that `IN` has not consumed
yet, and whether it ends after them (log 14). -/
structure InputStream where
  pending : List Byte
  ended : Bool
deriving DecidableEq, Repr

/-- Where the machine stands in its life cycle (70_reset_and_hazards.md rule R252, log 16). -/
inductive Phase where
  /-- After reset, before anything is filled. -/
  | reset
  /-- From the first operation that fills memory until `run` (rule R253 (b)). -/
  | fill
  /-- From `run` until reset: the run, and the stop that ends it. -/
  | run
deriving DecidableEq, Repr

/-- The whole state of the machine (rule R20), its parameters (rule R6) and the record of delivered diagnostics
(60_exceptions.md rule R223). -/
structure State where
  /-- The parameters fixed at creation (70_reset_and_hazards.md rule R251). -/
  cfg : Config
  /-- The instruction pointer (rule R21). -/
  ip : Word
  /-- The single memory (rule R28). -/
  mem : Memory
  /-- The data stack, top first (rule R23). -/
  ds : List Word
  /-- The return-address stack, top first (rule R25). -/
  rs : List Word
  /-- True while the engine executes (rule R27). -/
  running : Bool
  /-- The sticky record of a runtime error (rule R27). -/
  fault : Option Cause
  /-- Every byte written by `OUT` and `OUTNUM`, oldest first (rule R33). -/
  out : List Byte
  /-- The position in the input: how many bytes `IN` has consumed (rules R20, R33). -/
  inPos : Nat
  /-- The input stream binding (rule R31, rule R36). -/
  input : InputStream
  /-- The output stream binding, a name only the host uses (rule R31). -/
  outBinding : Nat
  /-- The diagnostics delivered to the host, oldest first (60_exceptions.md rule R223). -/
  diags : List Diagnostic
  /-- The assembler's write position (rule R32). -/
  wp : Word
  /-- The Label Table, earliest definition first (rule R32). -/
  labels : List (Token × Word)
  /-- The Forward-Reference List, in recording order (rule R32). -/
  fwd : List (Token × Word)
  /-- What the compile phase reported, oldest first (rule R32). -/
  asmDiag : List AsmReport
  /-- The phase of the life cycle (70_reset_and_hazards.md rule R252). -/
  phase : Phase
deriving DecidableEq, Repr

/-- Why there is no next state: the step is not enabled (10_state.md rule R27, 30_encoding.md rule R78). -/
inductive Fault where
  /-- Raised by `step` when `running` is false and no fault is latched: before `run`, or after a clean halt.  Safe: the
  hardware takes no step either. -/
  | notRunning
  /-- Raised by `step` when the fault latch is set: the engine stopped on that cause and stays stopped until reset.  Safe:
  the hardware takes no step either. -/
  | stopped (c : Cause)
  /-- Raised by `IN` while the input stream has neither a byte nor its end: the step is not enabled until the outside answers
  (41_io.md rule R110, 93_implementation_defined.md U25: "stuck: no step is enabled").  Safe: the hardware takes no step
  either, and `supplyByte` or `endInput` lifts the hold. -/
  | waitingForInput
deriving DecidableEq, Repr

/-- Why an operation is refused.  No instruction's meaning answers one of these. -/
inductive Refusal where
  /-- Raised by `exec` for an instruction that has no meaning yet.  Safe: the model says nothing of it. -/
  | notModelled (mnemonic : String)
  /-- Raised by a host operation that is allowed only while the engine is not stepping (70_reset_and_hazards.md rule R262,
  60_exceptions.md rule R228).  Safe: the host has no such move. -/
  | engineRunning
  /-- Raised by a host operation of the fill or by `run` while the fault latch is set: no element changes until reset
  (10_state.md rule R35 (d), 60_exceptions.md rule R227).  Safe: the spec gives the host no such move. -/
  | faultLatched
  /-- Raised by a host operation of the fill or by `run` after a run: to run again the host resets and fills again
  (70_reset_and_hazards.md rules R252, R253, R262).  Safe: the spec gives the host no such move. -/
  | notFilling
  /-- Raised by `run` on a machine that has been reset and not filled (70_reset_and_hazards.md rules R252, R253 (b)).  Safe: the
  spec gives the host no such move. -/
  | notFilled
  /-- Raised by the image save before a run: it is allowed after one (70_reset_and_hazards.md rule R262).  Safe. -/
  | notRun
  /-- Raised by the host's `run` after a failed compile phase (46_assembler_patch_table.md rule R194).  Safe: the spec
  refuses the launch. -/
  | failedImage
  /-- Raised by the image load for an image of more Words than memory has (93_implementation_defined.md U12).  Safe. -/
  | imageTooLong
  /-- Raised by the image load for a stream that is not a whole number of Words (outside the spec's scope, rule R4).  Safe. -/
  | imageRagged
deriving DecidableEq, Repr

/-- What a step or a host operation answers. -/
abbrev Answer := Host.Outcome State Fault Refusal

/-- The state right after creation with these parameters and streams and the reset that follows it (rule R34,
70_reset_and_hazards.md rules R250, R251). -/
def State.create (cfg : Config) (input : InputStream) (outBinding : Nat) : State where
  cfg := cfg
  ip := 0
  mem := []
  ds := []
  rs := []
  running := false
  fault := none
  out := []
  inPos := 0
  input := input
  outBinding := outBinding
  diags := []
  wp := 0
  labels := []
  fwd := []
  asmDiag := []
  phase := .reset

/-- The machine right after reset (rule R34), with the default parameters.  DESIGN CHOICE: the input stream bound to it is
one that has ended without a byte (log 8). -/
def State.reset : State := State.create Config.default { pending := [], ended := true } 0

end Sys2Proof.Machine
end

