-- ==== Sys2Proof/Machine/Ops.lean ====
section
/-! DEFINITION. The named operations over memory, the stacks, the instruction pointer and the streams; raising a fault,
which is the machine's way of taking an exception; and reset, the only way back from one. -/

namespace Sys2Proof.Machine

/-! ### Memory (20_memory.md) -/

/-- `InBounds(a)`: `0 <= S(a) < M` (rule R52). -/
def inBounds (cfg : Config) (a : Word) : Bool := decide (0 ≤ S a ∧ S a < (cfg.memWords : Int))

/-- The index of an address that has passed its check (rules R51, R53). -/
def addrIndex (a : Word) : Nat := (S a).toNat

/-- Read the Word at an index; an unlisted address reads as `NOP`, the Word 0 (rule R57). -/
def Memory.read : Memory → Nat → Word
  | [], _ => 0
  | (b, v) :: rest, n => if b = n then v else Memory.read rest n

/-- Write the Word at an index, keeping the canonical form: writing `NOP` removes the cell. -/
def Memory.write : Memory → Nat → Word → Memory
  | [], n, v => if v = 0 then [] else [(n, v)]
  | (b, u) :: rest, n, v =>
    if n < b then (if v = 0 then (b, u) :: rest else (n, v) :: (b, u) :: rest)
    else if n = b then (if v = 0 then rest else (n, v) :: rest)
    else (b, u) :: Memory.write rest n v

/-- `MemRead(a, 1)` (rule R53). -/
def State.memRead (s : State) (a : Word) : Word := s.mem.read (addrIndex a)

/-- `MemWrite(a, 1, v)` (rule R53). -/
def State.memWrite (s : State) (a v : Word) : State := { s with mem := s.mem.write (addrIndex a) v }

/-! ### The instruction pointer (10_state.md) -/

/-- `adv(a)`, the address that follows `a` (rule R22). -/
def adv (cfg : Config) (a : Word) : Word :=
  match cfg.ipOverflow with
  | .fault => w32 (S a + 1)
  | .wrapToZero => if S a + 1 ≥ (cfg.memWords : Int) then 0 else w32 (S a + 1)

/-! ### Raising a fault, delivering a diagnostic, reset (60_exceptions.md, 70_reset_and_hazards.md) -/

/-- The numeric code of a cause (60_exceptions.md rule R220, decision D25). -/
def Cause.code : Cause → Nat
  | .addressOutOfBounds _ _ => 1
  | .stackUnderflow _ _ => 2
  | .illegalOpcode _ _ => 3
  | .ipOutOfBounds _ => 4
  | .stackOverflow _ _ => 5

/-- `diag X(info)`: deliver the diagnostic and change nothing else (rule R223). -/
def State.deliver (s : State) (c : Cause) : State := { s with diags := s.diags ++ [.runtime c] }

/-- What `raise X(info)` leaves of the state before the instruction: the diagnostic delivered, the cause latched, the engine
stopped; there is no handler and nothing else changes (rules R222, R226). -/
def State.takeFault (s : State) (c : Cause) : State := { s.deliver c with fault := some c, running := false }

/-- The values reset gives (10_state.md rule R34).  It keeps the parameters, `out`, the input position and the stream
bindings, and the record of what was already delivered to the host (log 9).  It is the only way out of a fault: there is
no return from one (60_exceptions.md rule R227), and the next fill comes after it (70_reset_and_hazards.md rule R252). -/
def State.toReset (s : State) : State :=
  { s with ip := 0, mem := [], ds := [], rs := [], running := false, fault := none, wp := 0, labels := [], fwd := [],
           asmDiag := [], phase := .reset }

/-- Why an instruction's rule does not run to its end. -/
inductive Stop where
  /-- `raise X(info)` (rule R222). -/
  | raise (c : Cause)
  /-- `IN` with no input yet: the engine is held (41_io.md rule R110). -/
  | held
deriving DecidableEq, Repr

/-- One instruction's rule, executed from its first line: it ends with a value, or stops where it stands. -/
abbrev Exec (α : Type) := EStateM Stop State α

/-- Execute an instruction's rule as one atomic step (00_scope.md rule R12).  A raise keeps the state before the
instruction, but for the diagnostics already delivered (log 6), and takes the fault; held, the step is not enabled and there is
no next state (41_io.md rule R110, log 11). -/
def complete (body : Exec Unit) (s : State) : Answer :=
  match body s with
  | .ok _ t => .next t
  | .error (.raise c) t => .next (({ s with diags := t.diags } : State).takeFault c)
  | .error .held _ => .fault .waitingForInput

/-- `raise X(info)` inside a rule. -/
def raise {α : Type} (c : Cause) : Exec α := fun s => .error (.raise c) s

/-! ### The two stacks (10_state.md rules R23 to R26) -/

/-- Whether a stack of this depth has room for one more Word: always without a cap (rule R23, decision D13). -/
def hasRoom (cap : Option Nat) (depth : Nat) : Bool :=
  match cap with
  | none => true
  | some c => decide (depth < c)

/-- `dpush(v)` (rule R23). -/
def dpush (op : Opcode) (v : Word) : Exec Unit := fun s =>
  if hasRoom s.cfg.dstackCap s.ds.length then .ok () { s with ds := v :: s.ds }
  else raise (.stackOverflow .data op) s

/-- `rpush(v)` (rule R25). -/
def rpush (op : Opcode) (v : Word) : Exec Unit := fun s =>
  if hasRoom s.cfg.rstackCap s.rs.length then .ok () { s with rs := v :: s.rs }
  else raise (.stackOverflow .ret op) s

/-- A pop from an empty stack, by `UNDERFLOW_POLICY`: a fault, or a diagnostic and the Word 0 (rule R24). -/
def popEmpty (stack : StackId) (op : Opcode) : Exec Word := fun s =>
  match s.cfg.underflow with
  | .halt => raise (.stackUnderflow stack op) s
  | .continueWithZero => .ok 0 (s.deliver (.stackUnderflow stack op))

/-- `dpop()` (rule R24). -/
def dpop (op : Opcode) : Exec Word := fun s =>
  match s.ds with
  | v :: rest => .ok v { s with ds := rest }
  | [] => popEmpty .data op s

/-- `rpop()` (rule R26). -/
def rpop (op : Opcode) : Exec Word := fun s =>
  match s.rs with
  | v :: rest => .ok v { s with rs := rest }
  | [] => popEmpty .ret op s

/-! ### Control (10_state.md rules R21, R27) -/

/-- `ip <- t`. -/
def setIp (t : Word) : Exec Unit := fun s => .ok () { s with ip := t }

/-- `ip <- adv(ip)`. -/
def advance : Exec Unit := fun s => .ok () { s with ip := adv s.cfg s.ip }

/-- `running <- false`, the graceful halt (43_jumps.md rule R131). -/
def stopRunning : Exec Unit := fun s => .ok () { s with running := false }

/-! ### The streams (41_io.md) -/

/-- What `In()` answers (rule R110). -/
inductive InAnswer where
  | byte (b : Byte)
  | eof
deriving DecidableEq, Repr

/-- `In()`: consume and answer the next byte, or `EOF` at the end of the stream; held until there is an answer (rule R110). -/
def takeInput : Exec InAnswer := fun s =>
  match s.input.pending with
  | b :: rest => .ok (.byte b) { s with input := { s.input with pending := rest }, inPos := s.inPos + 1 }
  | [] => if s.input.ended then .ok .eof s else .error .held s

/-- `Out(b)` for each byte in order: append to `out` (rule R111). -/
def putBytes (bs : List Byte) : Exec Unit := fun s => .ok () { s with out := s.out ++ bs }

end Sys2Proof.Machine
end

