-- ==== Sys2Proof/Machine/Flags.lean ====
section
/-! DEFINITION. The machine has no flags and no condition codes: no instruction writes one (10_state.md rule R30).  What the
instructions test instead is a Word against zero. -/

namespace Sys2Proof.Machine

/-- The zero test of `JZ`, `JNZ` and `NOT`: equality of the whole Word with 0 (40_arith_logic.md rule R98). -/
def isZero (w : Word) : Bool := w == 0

/-- The logical negation of `NOT`: 1 for zero, 0 for every other Word (40_arith_logic.md rule R96). -/
def logicalNot (w : Word) : Word := if isZero w then 1 else 0

end Sys2Proof.Machine
end

