-- ==== Sys2Proof/Machine/Operands.lean ====
section
/-! DEFINITION. The operand forms: the bounds checks of addresses, the inline operand of format I, and the conversions
between bytes, numerals and Words. -/

namespace Sys2Proof.Machine

/-- "bounds-check `a`" of a stack-derived address (20_memory.md rule R52). -/
def boundsCheck (op : Opcode) (a : Word) : Exec Unit := fun s =>
  if inBounds s.cfg a then .ok () s else raise (.addressOutOfBounds op a) s

/-- `oa <- adv(ip)` with the bounds check of a fetch address (20_memory.md rule R58, 44_stack_ops.md rule R145). -/
def operandAddress : Exec Word := fun s =>
  let oa := adv s.cfg s.ip
  if inBounds s.cfg oa then .ok oa s else raise (.ipOutOfBounds oa) s

/-- `ip <- adv(oa)`: past the operand at `oa` (44_stack_ops.md rule R145). -/
def advancePast (oa : Word) : Exec Unit := fun s => .ok () { s with ip := adv s.cfg oa }

/-- `MemRead(a, 1)` of a checked address, as an operand (20_memory.md rule R53). -/
def loadWord (a : Word) : Exec Word := fun s => .ok (s.memRead a) s

/-- `MemWrite(a, 1, v)` of a checked address (20_memory.md rule R53). -/
def storeWord (a v : Word) : Exec Unit := fun s => .ok () (s.memWrite a v)

/-- The current `ip`, the address of the executing instruction's opcode Word (10_state.md rule R21). -/
def currentIp : Exec Word := fun s => .ok s.ip s

/-- `zext_8` of an input byte (00_scope.md rule R8, 41_io.md rule R112). -/
def zext8 (b : Byte) : Word := b.setWidth 32

/-- The Word `IN` pushes for an answer of the input stream (41_io.md rule R112). -/
def inputWord (cfg : Config) : InAnswer → Word
  | .byte b => zext8 b
  | .eof => cfg.inEofWord

/-- `bits[7:0]` of a Word (41_io.md rule R113). -/
def lowByte (w : Word) : Byte := w.setWidth 8

/-- The ASCII byte `0x30 + d` of a decimal digit (41_io.md rule R115). -/
def digitByte (d : Nat) : Byte := BitVec.ofNat 8 (0x30 + d)

/-- The decimal digits of `n`, most significant first, no leading zero; `fuel` bounds their number. -/
def decDigits : Nat → Nat → List Byte
  | 0, _ => []
  | fuel + 1, n => if n < 10 then [digitByte n] else decDigits fuel (n / 10) ++ [digitByte (n % 10)]

/-- `dec(n)`, the shortest decimal numeral of `n` in ASCII, with `-` before a negative one (41_io.md rule R115).  Ten digits
hold every value of a Word. -/
def dec (n : Int) : List Byte :=
  if n < 0 then 0x2D :: decDigits 10 n.natAbs else decDigits 10 n.natAbs

end Sys2Proof.Machine
end

