-- ==== Sys2Proof/Machine/ArithLogic.lean ====
section
/-! DEFINITION. `NOP` and the arithmetic and logic instructions (40_arith_logic.md).  `a` is the Word popped first, the old
top; `b` the Word popped second (00_scope.md rule R11). -/

namespace Sys2Proof.Machine

/-- The shape of a two-operand instruction: pop `a`, pop `b`, push one Word, advance. -/
def binary (op : Opcode) (f : Word → Word → Word) : Exec Unit := do
  let a ← dpop op
  let b ← dpop op
  dpush op (f a b)
  advance

/-- The shape of a one-operand instruction: pop `a`, push one Word, advance. -/
def unary (op : Opcode) (f : Word → Word) : Exec Unit := do
  let a ← dpop op
  dpush op (f a)
  advance

/-- `NOP` (rule R90). -/
def execNop (s : State) : Answer := complete advance s

/-- `ADD` (rule R91): the sum modulo 2^32 (rule R98, decision D3). -/
def execAdd (s : State) : Answer := complete (binary .add (fun a b => w32 (S a + S b))) s

/-- `SUB` (rule R92): second popped minus first popped. -/
def execSub (s : State) : Answer := complete (binary .sub (fun a b => w32 (S b - S a))) s

/-- `AND` (rule R93). -/
def execAnd (s : State) : Answer := complete (binary .and (fun a b => a &&& b)) s

/-- `OR` (rule R94). -/
def execOr (s : State) : Answer := complete (binary .or (fun a b => a ||| b)) s

/-- `XOR` (rule R95). -/
def execXor (s : State) : Answer := complete (binary .xor (fun a b => a ^^^ b)) s

/-- `NOT` (rule R96): the logical negation. -/
def execNot (s : State) : Answer := complete (unary .not logicalNot) s

/-- `COMPL` (rule R97): every bit inverted. -/
def execCompl (s : State) : Answer := complete (unary .compl (fun a => a ^^^ 0xFFFFFFFF)) s

end Sys2Proof.Machine
end

