-- ==== Sys2Proof/Machine/InputOutput.lean ====
section
/-! DEFINITION. The input and output instructions (41_io.md). -/

namespace Sys2Proof.Machine

/-- `IN` (rule R112): held until the stream answers, then the byte zero-extended or `IN_EOF_WORD`. -/
def execIn (s : State) : Answer :=
  complete (do
    let r ← takeInput
    dpush .inp (inputWord s.cfg r)
    advance) s

/-- `OUT` (rule R113): write the low byte. -/
def execOut (s : State) : Answer :=
  complete (do
    let a ← dpop .out
    putBytes [lowByte a]
    advance) s

/-- `OUTNUM` (rule R114): write the signed decimal numeral. -/
def execOutnum (s : State) : Answer :=
  complete (do
    let a ← dpop .outnum
    putBytes (dec (S a))
    advance) s

end Sys2Proof.Machine
end

