-- ==== Sys2Proof/Machine/IpStack.lean ====
section
/-! DEFINITION. The return-address-stack instructions (45_ip_stack.md). -/

namespace Sys2Proof.Machine

/-- `PUSHIP` (rule R160): the inline operand goes onto `rs`; `ip` itself is not pushed. -/
def execPuship (imm : Word) (s : State) : Answer :=
  complete (do
    let oa ← operandAddress
    rpush .puship imm
    advancePast oa) s

/-- `POPIP` (rule R161): no advance after the transfer, and never a halt. -/
def execPopip (s : State) : Answer :=
  complete (do
    let t ← rpop .popip
    boundsCheck .popip t
    setIp t) s

/-- `DROPIP` (rule R162). -/
def execDropip (s : State) : Answer :=
  complete (do
    let _ ← rpop .dropip
    advance) s

end Sys2Proof.Machine
end

