-- ==== Sys2Proof/Machine/Jumps.lean ====
section
/-! DEFINITION. The jumps and the halt idiom (43_jumps.md). -/

namespace Sys2Proof.Machine

/-- Transfer control to `t`, bounds-checked (rules R52, R133). -/
def jumpTo (op : Opcode) (t : Word) : Exec Unit := do
  boundsCheck op t
  setIp t

/-- `JMP` (rule R130): a target equal to the address of this very `JMP` halts (rule R131). -/
def execJmp (s : State) : Answer :=
  complete (do
    let a ← dpop .jmp
    boundsCheck .jmp a
    let ip ← currentIp
    if a = ip then stopRunning else setIp a) s

/-- `JZ` (rule R132): the tested Word on top, the target below; the target is checked only when taken (rule R133). -/
def execJz (s : State) : Answer :=
  complete (do
    let a ← dpop .jz
    let b ← dpop .jz
    if isZero a then jumpTo .jz b else advance) s

/-- `JNZ` (rule R134): as `JZ` with the test inverted. -/
def execJnz (s : State) : Answer :=
  complete (do
    let a ← dpop .jnz
    let b ← dpop .jnz
    if isZero a then advance else jumpTo .jnz b) s

end Sys2Proof.Machine
end

