-- ==== Sys2Proof/Machine/LoadStore.lean ====
section
/-! DEFINITION. The memory instructions (42_load_store.md). -/

namespace Sys2Proof.Machine

/-- `LOAD` (rule R120). -/
def execLoad (s : State) : Answer :=
  complete (do
    let a ← dpop .load
    boundsCheck .load a
    let v ← loadWord a
    dpush .load v
    advance) s

/-- `STOR` (rule R121): the address on top, the value below it (decision D34). -/
def execStor (s : State) : Answer :=
  complete (do
    let a ← dpop .stor
    let b ← dpop .stor
    boundsCheck .stor a
    storeWord a b
    advance) s

/-- The address the next `STOR` stores to: the Word its first pop yields, if there is one under the underflow policy
(rule R24, rule R121). -/
def storAddress (s : State) : Option Word :=
  match dpop .stor s with
  | .ok a _ => some a
  | .error _ _ => none

end Sys2Proof.Machine
end

