-- ==== Sys2Proof/Machine/StackOps.lean ====
section
/-! DEFINITION. The data-stack instructions (44_stack_ops.md). -/

namespace Sys2Proof.Machine

/-- `PUSH` (rule R145).  `imm` is the Word at `adv(ip)`, which the fetch reads; the check of that address is made here. -/
def execPush (imm : Word) (s : State) : Answer :=
  complete (do
    let oa ← operandAddress
    dpush .push imm
    advancePast oa) s

/-- `DUP` (rule R146). -/
def execDup (s : State) : Answer :=
  complete (do
    let a ← dpop .dup
    dpush .dup a
    dpush .dup a
    advance) s

/-- `SWAP` (rule R147). -/
def execSwap (s : State) : Answer :=
  complete (do
    let a ← dpop .swap
    let b ← dpop .swap
    dpush .swap a
    dpush .swap b
    advance) s

/-- `ROL3` (rule R148): the third from the top moves to the top. -/
def execRol3 (s : State) : Answer :=
  complete (do
    let a ← dpop .rol3
    let b ← dpop .rol3
    let c ← dpop .rol3
    dpush .rol3 b
    dpush .rol3 a
    dpush .rol3 c
    advance) s

/-- `DROP` (rule R149). -/
def execDrop (s : State) : Answer :=
  complete (do
    let _ ← dpop .drop
    advance) s

end Sys2Proof.Machine
end

