-- ==== Sys2Proof/Machine/Dispatch.lean ====
section
/-! DEFINITION. One arm per constructor of `Instr` (30_encoding.md rule R72, last column). -/

namespace Sys2Proof.Machine

def exec (i : Instr) (s : State) : Host.Outcome State Fault Refusal :=
  match i with
  | .nop => Sys2Proof.Machine.execNop s
  | .add => Sys2Proof.Machine.execAdd s
  | .sub => Sys2Proof.Machine.execSub s
  | .and => Sys2Proof.Machine.execAnd s
  | .or => Sys2Proof.Machine.execOr s
  | .xor => Sys2Proof.Machine.execXor s
  | .not => Sys2Proof.Machine.execNot s
  | .compl => Sys2Proof.Machine.execCompl s
  | .inp => Sys2Proof.Machine.execIn s
  | .out => Sys2Proof.Machine.execOut s
  | .outnum => Sys2Proof.Machine.execOutnum s
  | .load => Sys2Proof.Machine.execLoad s
  | .stor => Sys2Proof.Machine.execStor s
  | .jmp => Sys2Proof.Machine.execJmp s
  | .jz => Sys2Proof.Machine.execJz s
  | .jnz => Sys2Proof.Machine.execJnz s
  | .push imm => Sys2Proof.Machine.execPush imm s
  | .dup => Sys2Proof.Machine.execDup s
  | .swap => Sys2Proof.Machine.execSwap s
  | .rol3 => Sys2Proof.Machine.execRol3 s
  | .puship imm => Sys2Proof.Machine.execPuship imm s
  | .popip => Sys2Proof.Machine.execPopip s
  | .dropip => Sys2Proof.Machine.execDropip s
  | .drop => Sys2Proof.Machine.execDrop s

end Sys2Proof.Machine
end

