-- ==== Sys2Proof/Machine/Fetch.lean ====
section
/-! DEFINITION. Fetching the instruction at `ip` (30_encoding.md rules R73, R76, R78). -/

namespace Sys2Proof.Machine

/-- The Word at `adv(ip)`, where the decoder finds an inline operand (30_encoding.md rule R73).  Memory is not read outside
its bounds (10_state.md rule R35); what stands here then is not used, since the instruction's rule raises first. -/
def operandWord (s : State) : Word :=
  if inBounds s.cfg (adv s.cfg s.ip) then s.memRead (adv s.cfg s.ip) else 0

/-- The instruction at `ip`, or the fault the fetch raises (rule R78). -/
def fetch (s : State) : Except Cause Instr :=
  if inBounds s.cfg s.ip then
    match decode s.cfg.opnum [s.memRead s.ip, operandWord s] with
    | .ok (i, _) => .ok i
    | .error _ => .error (.illegalOpcode (s.memRead s.ip) s.ip)
  else .error (.ipOutOfBounds s.ip)

/-- The address where `withFetchWord` lays its Words: `ip`, or 0 where the Words would not fit at `ip`. -/
def fetchPlace (s : State) : Word :=
  if inBounds s.cfg s.ip && inBounds s.cfg (adv s.cfg s.ip) then s.ip else 0

/-- Lay two Words where the fetch finds an opcode Word and its operand; the second only where its address exists. -/
def layWords (s : State) (p w0 w1 : Word) : State :=
  let s1 := if inBounds s.cfg (adv s.cfg p) then s.memWrite (adv s.cfg p) w1 else s
  s1.memWrite p w0

end Sys2Proof.Machine
end

