-- ==== Sys2Proof/Machine/Step.lean ====
section
/-! DEFINITION. One step of the engine (30_encoding.md rule R78), and an instruction laid where the next step fetches. -/

namespace Sys2Proof.Machine

/-- One step.  It is enabled only when `running = true` and `fault = none`; where it is not, there is no next state and the
answer names why.  A fault of the fetch is taken like any other (60_exceptions.md rule R222). -/
def step (s : State) : Host.Outcome State Fault Refusal :=
  match s.fault, s.running with
  | some c, _ => .fault (.stopped c)
  | none, false => .fault .notRunning
  | none, true =>
    match fetch s with
    | .error c => .next (s.takeFault c)
    | .ok i => exec i s

/-- The state with an instruction's Words where the next step fetches, and the engine enabled: this stands for the fill of
memory and the host's `run` (70_reset_and_hazards.md rules R252, R254; log 10). -/
def State.withFetchWord (s : State) (nbits w : Nat) : State :=
  let p := fetchPlace s
  match tableWords nbits w with
  | [w0, w1] => { layWords s p w0 w1 with ip := p, running := true, fault := none, phase := .run }
  | _ => s

end Sys2Proof.Machine
end

