-- ==== Sys2Proof/Machine/Mnemonics.lean ====
section
/-! DEFINITION. The instruction table: opcodes and their canonical mnemonics (30_encoding.md rules R79 to R82), and the case
folding it needs (46_assembler_patch_table.md rule R176). -/

namespace Sys2Proof.Machine

/-- The bytes of a string of ASCII characters. -/
def ascii (s : String) : Token := s.toList.map (fun c => BitVec.ofNat 8 c.toNat)

/-- `mnemonic_of(op)`, exact and total (rules R79, R80). -/
def mnemonicOf : Opcode → String
  | .nop => "NOP"
  | .add => "ADD"
  | .sub => "SUB"
  | .and => "AND"
  | .or => "OR"
  | .xor => "XOR"
  | .not => "NOT"
  | .compl => "COMPL"
  | .inp => "IN"
  | .out => "OUT"
  | .outnum => "OUTNUM"
  | .load => "LOAD"
  | .stor => "STOR"
  | .jmp => "JMP"
  | .jz => "JZ"
  | .jnz => "JNZ"
  | .push => "PUSH"
  | .dup => "DUP"
  | .swap => "SWAP"
  | .rol3 => "ROL3"
  | .puship => "PUSHIP"
  | .popip => "POPIP"
  | .dropip => "DROPIP"
  | .drop => "DROP"

/-- `upper` of one byte: only `a` to `z` are folded (rule R176). -/
def upperByte (b : Byte) : Byte := if 0x61 ≤ b.toNat ∧ b.toNat ≤ 0x7A then b - 0x20 else b

/-- `upper(s)` (rule R176). -/
def upper (t : Token) : Token := t.map upperByte

/-- `opcode_of(string)`: a case-insensitive match against every canonical mnemonic; `none` is the sentinel
`NOT_AN_OPCODE` (rules R79, R81). -/
def opcodeOf (t : Token) : Option Opcode :=
  Opcode.all.find? (fun op => ascii (mnemonicOf op) == upper t)

end Sys2Proof.Machine
end

