-- ==== Sys2Proof/Machine/Tokenizer.lean ====
section
/-! DEFINITION. The tokenizer, the interface that delivers tokens to the assembler (46_assembler_patch_table.md rules R171 to
R173). -/

namespace Sys2Proof.Machine

/-- Source text not yet consumed, and the 1-based line of the most recently consumed byte (rule R173). -/
structure Source where
  rest : List Byte
  line : Nat
deriving DecidableEq, Repr

/-- Source text before anything is consumed. -/
def Source.start (text : List Byte) : Source := { rest := text, line := 1 }

/-- The four whitespace bytes: space, tab, CR, LF (rule R172). -/
def isWhitespace (b : Byte) : Bool := b == 0x20 || b == 0x09 || b == 0x0D || b == 0x0A

/-- The number of line feeds among some bytes. -/
def lineFeeds (bs : List Byte) : Nat := (bs.filter (fun b => b == 0x0A)).length

/-- Consume the first `n` bytes, counting lines. -/
def Source.consume (src : Source) (n : Nat) : Source :=
  { rest := src.rest.drop n, line := src.line + lineFeeds (src.rest.take n) }

/-- `next_token()`: skip whitespace, then take bytes up to the next whitespace, which is left (rule R172).  The empty token
is the end of the stream. -/
def nextToken (src : Source) : Token × Source :=
  let src1 := src.consume (src.rest.takeWhile isWhitespace).length
  let token := src1.rest.takeWhile (fun b => !isWhitespace b)
  (token, src1.consume token.length)

/-- `skip_line()`: discard up to and including the next line feed, or all that is left (rule R173). -/
def skipLine (src : Source) : Source :=
  src.consume ((src.rest.takeWhile (fun b => b != 0x0A)).length + 1)

end Sys2Proof.Machine
end

