-- ==== Sys2Proof/Machine/Assembler.lean ====
section
/-! DEFINITION. The assembler: token classification, emission, the Label Table and the Forward-Reference List with its patch
pass (46_assembler_patch_table.md). -/

namespace Sys2Proof.Machine

/-! ### Primitives (rules R174 to R177) -/

/-- One action of the assembler: it ends, or stops on an assembly error where it stands (rule R194). -/
abbrev Asm (α : Type) := EStateM AsmError State α

/-- The number of an assembly diagnostic's code, `A1` to `A6` (60_exceptions.md rule R230, decision D25). -/
def AsmError.code : AsmError → Nat
  | .unknownOpcode _ => 1
  | .unknownEscape _ => 2
  | .reservedLabel _ => 3
  | .unresolvedLabel _ => 4
  | .imageTooLarge _ => 5
  | .literalOutOfRange _ => 6

/-- `asm_error X(info)`, before it is given its line. -/
def asmError {α : Type} (e : AsmError) : Asm α := fun s => .error e s

/-- `emit(w)`, the machine's load primitive (rule R174). -/
def emit (w : Word) : Asm Unit := fun s =>
  if S s.wp ≥ (s.cfg.memWords : Int) then .error (.imageTooLarge s.wp) s
  else .ok () { s.memWrite s.wp w with wp := w32 (S s.wp + 1) }

/-- Emit an opcode Word (rule R192). -/
def emitOp (op : Opcode) : Asm Unit := fun s => emit (s.cfg.opnum.num op) s

/-- The current write position. -/
def writePosition : Asm Word := fun s => .ok s.wp s

/-- `fwd.append((name, wp))`. -/
def recordForward (name : Token) : Asm Unit := fun s => .ok () { s with fwd := s.fwd ++ [(name, s.wp)] }

/-- `labels.append((N, wp))`. -/
def recordLabel (name : Token) : Asm Unit := fun s => .ok () { s with labels := s.labels ++ [(name, s.wp)] }

/-- The reserved name `HERE`. -/
def here : Token := ascii "HERE"

/-- `lookup(name)`: `HERE` is the write position; else the earliest definition (rule R177). -/
def lookup (s : State) (name : Token) : Option Word :=
  if upper name = here then some s.wp
  else (s.labels.find? (fun e => e.1 == upper name)).map (·.2)

/-! ### Token classification (rules R178, R183) -/

/-- The literal sub-cases (rules R183, R186). -/
inductive LiteralClass where
  | labelRef (name : Token)
  | numeric (n : Nat)
  | character (code : Byte)
  | unknownEscape
  | bareWord
deriving DecidableEq, Repr

/-- The token classes (rule R178). -/
inductive TokenClass where
  | endOfStream
  | haltKeyword
  | comment
  | labelDef (name : Token)
  | opcode (op : Opcode)
  | literal (c : LiteralClass)
deriving DecidableEq, Repr

/-- An ASCII digit. -/
def isDigit (b : Byte) : Bool := decide (0x30 ≤ b.toNat ∧ b.toNat ≤ 0x39)

/-- The value of a sequence of ASCII digits (rule R185). -/
def digitsValue (t : Token) : Nat := t.foldl (fun n b => n * 10 + (b.toNat - 0x30)) 0

/-- The code of an escape letter (rule R186). -/
def escapeCode (e : Byte) : Option Byte :=
  if e = 0x74 then some 9
  else if e = 0x72 then some 13
  else if e = 0x6E then some 10
  else if e = 0x30 then some 0
  else none

/-- Character-literal form, or none of its forms (rule R186): `0x27` is the quote, `0x5C` the backslash. -/
def classifyQuoted (t : Token) : LiteralClass :=
  match t with
  | [0x27, c, 0x27] => if c = 0x5C then .unknownEscape else .character c
  | [0x27, 0x5C, e, 0x27] =>
    match escapeCode e with
    | some code => .character code
    | none => .unknownEscape
  | 0x27 :: 0x5C :: _ => .unknownEscape
  | _ => .bareWord

/-- The sub-case of a literal token, the first that matches (rule R183): `0x26` is `&`. -/
def classifyLiteral (t : Token) : LiteralClass :=
  match t with
  | 0x26 :: name => .labelRef name
  | _ => if t ≠ [] ∧ t.all isDigit = true then .numeric (digitsValue t) else classifyQuoted t

/-- The class of a token, by the first test that succeeds (rule R178): `0x3B` is `;`, `0x3A` is `:`. -/
def classify (t : Token) : TokenClass :=
  if t = [] then .endOfStream
  else if upper t = ascii "HALT" then .haltKeyword
  else if t.head? = some 0x3B then .comment
  else if t.getLast? = some 0x3A then .labelDef t.dropLast
  else match opcodeOf t with
    | some op => .opcode op
    | none => .literal (classifyLiteral t)

/-! ### Emission (rules R180, R184 to R189, R192) -/

/-- `emit_halt()`: the three Words of the halt idiom (rule R180). -/
def emitHalt : Asm Unit := do
  let p ← writePosition
  emitOp .push
  emit (w32 (S p + 2))
  emitOp .jmp

/-- A `PUSH` with its operand, as every literal but a bare word emits. -/
def emitPush (w : Word) : Asm Unit := do
  emitOp .push
  emit w

/-- Label reference `&NAME` (rule R184). -/
def emitLabelRef (name : Token) : Asm Unit := do
  if upper name = here then asmError (.reservedLabel name)
  else
    emitOp .push
    match lookup (← get) name with
    | some a => emit a
    | none =>
      recordForward name
      emit placeholder

/-- Numeric literal (rule R185). -/
def emitNumeric (t : Token) (n : Nat) : Asm Unit :=
  if n > 2147483647 then asmError (.literalOutOfRange t) else emitPush (w32 n)

/-- Bare-word call (rule R188). -/
def emitCall (t : Token) : Asm Unit := do
  emitOp .puship
  let wp ← writePosition
  emit (w32 (S wp + 4))
  emitOp .push
  recordForward t
  emit placeholder
  emitOp .jmp

/-- Label definition (rule R189); `name` is the token without its colon. -/
def defineLabel (name : Token) : Asm Unit :=
  if upper name = here then asmError (.reservedLabel (upper name)) else recordLabel (upper name)

/-- What one token emits and records, by its class.  The end of the stream emits the final halt idiom (rule R179), the
keyword `HALT` one more and nothing else (rule R181), a comment nothing (rule R182). -/
def emitToken (t : Token) : TokenClass → Asm Unit
  | .endOfStream => emitHalt
  | .haltKeyword => emitHalt
  | .comment => pure ()
  | .labelDef name => defineLabel name
  | .opcode op => emitOp op
  | .literal (.labelRef name) => emitLabelRef name
  | .literal (.numeric n) => emitNumeric t n
  | .literal (.character code) => emitPush (zext8 code)
  | .literal .unknownEscape => asmError (.unknownEscape t)
  | .literal .bareWord => emitCall t

/-! ### The scan, the patch pass, the whole compile phase (rules R170, R179, R190, R194) -/

/-- `asm_error X(info)`: append the diagnostic with its line to `asm_diag` and deliver it (rules R194, R262). -/
def State.reportAsm (s : State) (e : AsmError) (line : Option Nat) : State :=
  { s with asmDiag := s.asmDiag ++ [{ error := e, line := line }],
           diags := s.diags ++ [.assembly { error := e, line := line }] }

/-- One scan over the tokens.  It ends at the end of the stream, with the final line, or at the first error (rule R194).
Every token but the last consumes a byte, so a fuel above the length of the text is never used up. -/
def scan : Nat → Source → State → Except State (Nat × State)
  | 0, _, s => .error s
  | fuel + 1, src, s =>
    let (t, src1) := nextToken src
    match emitToken t (classify t) s with
    | .error e s1 => .error (s1.reportAsm e (some src1.line))
    | .ok _ s1 =>
      match classify t with
      | .endOfStream => .ok (src1.line, s1)
      | .comment => scan fuel (skipLine src1) s1
      | _ => scan fuel src1 s1

/-- One entry of the patch pass: overwrite the placeholder, or report the name; either way the pass goes on (rule R190). -/
def patchEntry (line : Nat) (s : State) (e : Token × Word) : State :=
  match lookup s e.1 with
  | some a => s.memWrite e.2 a
  | none => s.reportAsm (.unresolvedLabel e.1) (some line)

/-- The patch pass over the entries in recording order (rule R190). -/
def patchPass (line : Nat) (entries : List (Token × Word)) (s : State) : State :=
  entries.foldl (patchEntry line) s

/-- The compile phase: the scan, then, unless it failed, the patch pass over every entry recorded so far, those of an earlier
compile phase of the same fill too (rules R170, R190, R194, log 16). -/
def assemble (text : List Byte) (s : State) : State :=
  match scan (text.length + 1) (Source.start text) s with
  | .error s1 => s1
  | .ok (line, s1) => patchPass line s1.fwd s1

/-- The compile phase has succeeded: it reported nothing (rule R194). -/
def State.compiled (s : State) : Bool := s.asmDiag.isEmpty

end Sys2Proof.Machine
end

