-- ==== Sys2Proof/Machine/Image.lean ====
section
/-! DEFINITION. The logical end of a program and the image format (20_memory.md rules R62, R63).  The format is outside the
spec's scope (00_scope.md rule R4) and recorded for the host interface. -/

namespace Sys2Proof.Machine

/-- `program_end(mem)`: 0, or the address of the last Word that is not `NOP`, plus one (rule R62).  A canonical memory lists
exactly those Words, in address order. -/
def Memory.programEnd (m : Memory) : Nat :=
  match m.getLast? with
  | none => 0
  | some p => p.1 + 1

/-- The Words of the image, `mem[0]` to `mem[program_end(mem) - 1]` (rule R63). -/
def Memory.image (m : Memory) : List Word := (List.range m.programEnd).map m.read

/-- Set `mem[n]`, `mem[n+1]`, ... to the Words given, and leave the rest. -/
def Memory.fill (m : Memory) : Nat → List Word → Memory
  | _, [] => m
  | n, w :: ws => Memory.fill (m.write n w) (n + 1) ws

/-- The four bytes of a Word in an image, by the open parameter `IMAGE_BYTE_ORDER` (decision D24). -/
def wordBytes (order : ByteOrder) (w : Word) : List Byte :=
  let le : List Byte := [w.extractLsb' 0 8, w.extractLsb' 8 8, w.extractLsb' 16 8, w.extractLsb' 24 8]
  match order with
  | .little => le
  | .big => le.reverse

/-- The Word of four bytes of an image. -/
def bytesWord (order : ByteOrder) (b0 b1 b2 b3 : Byte) : Word :=
  match order with
  | .little => b3 ++ b2 ++ b1 ++ b0
  | .big => b0 ++ b1 ++ b2 ++ b3

/-- The Words of an image's bytes, or `none` where they are not a whole number of Words. -/
def bytesWords (order : ByteOrder) : List Byte → Option (List Word)
  | [] => some []
  | b0 :: b1 :: b2 :: b3 :: rest => (bytesWords order rest).map (bytesWord order b0 b1 b2 b3 :: ·)
  | _ => none

end Sys2Proof.Machine
end

