-- ==== Sys2Proof/Machine/HostInterface.lean ====
section
/-! DEFINITION. The block's interfaces, as operations on the state (70_reset_and_hazards.md rule R262).  Creation is
`State.create`.  The host has no move while the engine is running but to answer `IN` (60_exceptions.md rule R228). -/

namespace Sys2Proof.Machine

/-- Do a host operation that is allowed only while the engine is not stepping. -/
def whenStopped (s : State) (k : State → Answer) : Answer :=
  if s.running then .refused .engineRunning else k s

/-- Do a host operation that comes after reset and before the run: the engine is not stepping, no fault is latched (10_state.md
rule R35 (d), log 13), and the machine has been reset since any earlier run (rules R252, R253). -/
def beforeRun (s : State) (k : State → Answer) : Answer :=
  whenStopped s (fun s =>
    if s.fault.isSome then .refused .faultLatched
    else match s.phase with
      | .reset => k s
      | .fill => k s
      | .run => .refused .notFilling)

/-- The same state in the fill phase. -/
def State.beginFill (s : State) : State := { s with phase := .fill }

/-- Do a host operation that fills memory; the first after reset begins the fill (rule R252, log 16). -/
def whenFilling (s : State) (k : State → Answer) : Answer := beforeRun s (fun s => k s.beginFill)

/-- `reset` (rule R250). -/
def hostReset (s : State) : Answer := whenStopped s (fun s => .next s.toReset)

/-- The load port, `emit(w)` by the host, in the fill phase only (rules R253, R262); its error carries no line. -/
def hostEmit (w : Word) (s : State) : Answer :=
  whenFilling s (fun s =>
    match emit w s with
    | .ok _ t => .next t
    | .error e t => .next (t.reportAsm e none))

/-- The compile phase over a source text (46_assembler_patch_table.md rule R170), in the fill phase only: the assembler writes
nothing during the run phase (rule R252). -/
def hostAssemble (text : List Byte) (s : State) : Answer := whenFilling s (fun s => .next (assemble text s))

/-- `run`, after the fill: `ip <- 0` and `running <- true`, nothing else (rule R254), which ends the fill phase (rule R252);
refused on a machine that has not been filled (rule R253 (b)) and after a failed compile phase (46_assembler_patch_table.md rule
R194). -/
def hostRun (s : State) : Answer :=
  beforeRun s (fun s =>
    if s.phase = .fill then
      if s.compiled then .next { s with ip := 0, running := true, phase := .run } else .refused .failedImage
    else .refused .notFilled)

/-- The outside gives one more byte to the input stream; nothing comes after its end (41_io.md rule R110). -/
def supplyByte (b : Byte) (s : State) : State :=
  if s.input.ended then s else { s with input := { s.input with pending := s.input.pending ++ [b] } }

/-- The outside ends the input stream (41_io.md rule R110). -/
def endInput (s : State) : State := { s with input := { s.input with ended := true } }

/-- Replace the input stream (rule R262, decision D14).  No element of 10_state.md rule R20 changes: `in_pos` counts the bytes
`IN` has consumed, and `IN` has consumed none here (log 12). -/
def rebindInput (input : InputStream) (s : State) : Answer := whenStopped s (fun s => .next { s with input := input })

/-- Replace the output stream (rule R262, decision D14); the bytes written so far stay written (log 12). -/
def rebindOutput (outBinding : Nat) (s : State) : Answer :=
  whenStopped s (fun s => .next { s with outBinding := outBinding })

/-- What the host reads out of a stopped engine (rule R262). -/
structure ReadOut where
  running : Bool
  fault : Option Cause
  ip : Word
  ds : List Word
  rs : List Word
  mem : Memory
deriving DecidableEq, Repr

/-- State read-out, allowed only while the engine is not stepping (rule R262). -/
def readOut (s : State) : Option ReadOut :=
  if s.running then none
  else some { running := s.running, fault := s.fault, ip := s.ip, ds := s.ds, rs := s.rs, mem := s.mem }

/-- The bytes of the image of memory (20_memory.md rule R63). -/
def imageBytes (s : State) : List Byte := s.mem.image.flatMap (wordBytes s.cfg.imageByteOrder)

/-- Save the image, allowed after a run (rule R262). -/
def saveImage (s : State) : Host.Outcome (List Byte) Fault Refusal :=
  if s.running then .refused .engineRunning
  else match s.phase with
    | .reset => .refused .notRun
    | .fill => .refused .notRun
    | .run => .next (imageBytes s)

/-- Load an image into memory from address 0, in the fill phase only (20_memory.md rule R63); one that is too long is refused
(entry U12).  DESIGN CHOICE (log 21): rule R63 defines the load for a reset machine only; into memory that emits, a compile
phase or another load of the same fill have already written, the image is laid over what is there, and the Words beyond it
stay as they are. -/
def loadImage (bytes : List Byte) (s : State) : Answer :=
  whenFilling s (fun s =>
    match bytesWords s.cfg.imageByteOrder bytes with
    | none => .refused .imageRagged
    | some ws =>
      if ws.length ≤ s.cfg.memWords then .next { s with mem := s.mem.fill 0 ws } else .refused .imageTooLong)

end Sys2Proof.Machine
end

