-- ==== Sys2Proof/Safety.lean ====
section
/-! DEFINITION. What a claim about a run can say: the ends of a run, a clean run, the boot requirements
(70_reset_and_hazards.md), and the invariants a model may rely on (10_state.md rule R35). -/

namespace Sys2Proof.Machine

/-- A clean halt: `running = false` and `fault = none` (rule R260). -/
abbrev State.CleanHalt (s : State) : Prop := s.running = false ∧ s.fault = none

/-- A fault stop: `running = false` and `fault` set (rule R260). -/
abbrev State.FaultStop (s : State) : Prop := s.running = false ∧ s.fault ≠ none

/-- The engine is enabled: the next step is taken (10_state.md rule R27). -/
abbrev State.Enabled (s : State) : Prop := s.running = true ∧ s.fault = none

/-- Zero or more steps of the engine lead from one state to the other. -/
inductive Reaches : State → State → Prop where
  | refl (s : State) : Reaches s s
  | step {s t u : State} (first : Machine.step s = .next t) (rest : Reaches t u) : Reaches s u

/-- A clean run from `s` ends in the clean halt `t`, and no diagnostic was delivered on the way (rule R260). -/
def CleanRun (s t : State) : Prop := s.Enabled ∧ Reaches s t ∧ t.CleanHalt ∧ t.diags = s.diags

/-- What a claim about a program can observe at the end of a run (rule R261). -/
structure EndOfRun where
  running : Bool
  fault : Option Cause
  delivered : List Diagnostic
  ip : Word
  ds : List Word
  rs : List Word
  mem : Memory
  written : List Byte
  consumed : Nat
deriving DecidableEq, Repr

/-- The observation of a run from `s` to `t`: the diagnostics and bytes are those of the run alone (rule R261). -/
def endOfRun (s t : State) : EndOfRun where
  running := t.running
  fault := t.fault
  delivered := t.diags.drop s.diags.length
  ip := t.ip
  ds := t.ds
  rs := t.rs
  mem := t.mem
  written := t.out.drop s.out.length
  consumed := t.inPos - s.inPos

/-- What must hold before the host's `run` (rule R253): (a) reset since any earlier run, so the engine is as reset leaves it, and
(b) filled since that reset, with no failed compile phase.  (c) Every machine has its streams bound. -/
def State.BootReady (s : State) : Prop :=
  s.phase = .fill ∧ s.ip = 0 ∧ s.ds = [] ∧ s.rs = [] ∧ s.running = false ∧ s.fault = none ∧ s.asmDiag = []

/-- How many Words an instruction pops from the data stack (60_exceptions.md rule R220). -/
def dataPops : Opcode → Nat
  | .nop | .inp | .push | .puship | .popip | .dropip => 0
  | .not | .compl | .out | .outnum | .load | .jmp | .dup | .drop => 1
  | .add | .sub | .and | .or | .xor | .stor | .jz | .jnz | .swap => 2
  | .rol3 => 3

/-- How many Words an instruction pops from the return-address stack (60_exceptions.md rule R220). -/
def returnPops : Opcode → Nat
  | .popip | .dropip => 1
  | _ => 0

/-- The machine stops on `StackUnderflow(data, op)` where the data stack holds fewer Words than the instruction pops, with
nothing else changed (10_state.md rule R24, under `UNDERFLOW_POLICY = halt`). -/
def StopsOnUnderflow (i : Instr) (s : State) : Prop :=
  s.cfg.underflow = .halt → s.ds.length < dataPops i.opcode →
    exec i s = .next (s.takeFault (.stackUnderflow .data i.opcode))

/-- The same machine state with other compile-phase elements (10_state.md rule R32). -/
def State.withCompilePhase (s : State) (wp : Word) (labels fwd : List (Token × Word)) (asmDiag : List AsmReport) : State :=
  { s with wp := wp, labels := labels, fwd := fwd, asmDiag := asmDiag }

/-- Change the state an answer holds, if it holds one. -/
def onNext (f : State → State) : Answer → Answer
  | .next t => .next (f t)
  | .fault r => .fault r
  | .refused r => .refused r

/-- The instructions that use the return-address stack (10_state.md rule R25). -/
def usesReturnStack : Opcode → Bool
  | .puship | .popip | .dropip => true
  | _ => false

/-- The instructions that use the data stack: all but `NOP` and those of the return-address stack (10_state.md rules R23,
R25). -/
def usesDataStack : Opcode → Bool
  | .nop | .puship | .popip | .dropip => false
  | _ => true

/-! ### Where the scan of a compile phase is (46_assembler_patch_table.md rules R170 to R173) -/

/-- The token the scan takes at a place of the source. -/
abbrev tokenAt (src : Source) : Token := (nextToken src).1

/-- Where the scan is after a token: a comment takes the rest of its line with it (rule R182). -/
def afterToken (src : Source) : Source :=
  match classify (tokenAt src) with
  | .comment => skipLine (nextToken src).2
  | _ => (nextToken src).2

/-- The scan of a text from a state comes to a place of the source in a state, every token before it emitted without an error. -/
inductive ScanAt (text : List Byte) (s : State) : Source → State → Prop where
  | start : ScanAt text s (Source.start text) s
  | token {src : Source} {u v : State} (before : ScanAt text s src u) (more : tokenAt src ≠ [])
      (emitted : emitToken (tokenAt src) (classify (tokenAt src)) u = .ok () v) : ScanAt text s (afterToken src) v

/-- Every listed cell lies in `0 .. M - 1` (rule R35 (c)). -/
def memWithin (cfg : Config) (m : Memory) : Bool := m.all (fun p => decide (p.1 < cfg.memWords))

/-- Where `ip` can be between steps (rule R35 (a) and (b)). -/
def ipWithin (cfg : Config) (ip : Word) : Bool :=
  match cfg.ipOverflow with
  | .fault => decide (0 ≤ S ip ∧ S ip ≤ (cfg.memWords : Int))
  | .wrapToZero => decide (0 ≤ S ip ∧ S ip < (cfg.memWords : Int))

/-- A stack is no deeper than its cap (10_state.md rules R23, R25). -/
def withinCap (cap : Option Nat) (depth : Nat) : Bool :=
  match cap with
  | none => true
  | some c => decide (depth ≤ c)

/-- Both stacks are within their caps. -/
abbrev State.StacksWithin (s : State) : Prop :=
  withinCap s.cfg.dstackCap s.ds.length = true ∧ withinCap s.cfg.rstackCap s.rs.length = true

/-- The invariant of every state the engine can be in. -/
structure State.Inv (s : State) : Prop where
  /-- The parameters are legal (00_scope.md rule R6). -/
  cfgWf : s.cfg.wf = true
  /-- Memory is in canonical form. -/
  memWf : s.mem.wf = true
  /-- No Word outside `0 .. M - 1` (rule R35 (c)). -/
  memIn : memWithin s.cfg s.mem = true
  /-- `ip` is in its range (rule R35 (a), (b)). -/
  ipIn : ipWithin s.cfg s.ip = true
  /-- The stacks are within their caps. -/
  depths : s.StacksWithin
  /-- A latched fault has stopped the engine (60_exceptions.md rule R222). -/
  stopped : s.fault ≠ none → s.running = false
  /-- Until something is filled, memory and the assembler's elements are as reset leaves them (70_reset_and_hazards.md rules R250,
  R252). -/
  blank : s.phase = .reset → s.mem = [] ∧ s.wp = 0 ∧ s.labels = [] ∧ s.fwd = [] ∧ s.asmDiag = []
  /-- Until `run`, the engine is as reset leaves it: no step is taken in the fill phase (70_reset_and_hazards.md rule R252). -/
  filling : s.phase ≠ .run → s.ip = 0 ∧ s.ds = [] ∧ s.rs = [] ∧ s.running = false ∧ s.fault = none
  /-- The write position is an address, or `M` when memory is full (46_assembler_patch_table.md rule R174). -/
  wpIn : 0 ≤ S s.wp ∧ S s.wp ≤ (s.cfg.memWords : Int)
  /-- No patch address lies past the write position (46_assembler_patch_table.md rule R193). -/
  fwdIn : ∀ e ∈ s.fwd, 0 ≤ S e.2 ∧ S e.2 ≤ S s.wp

end Sys2Proof.Machine
end

