-- ==== Sys2Proof/Certificates/Slice0/Obligations.lean ====
section
/-! DEFINITION. The statements for the provers. -/

open Sys2Proof Sys2Proof.Machine

/-! ### Encoding and decoding (30_encoding.md) -/

/-- O1.  Under every injective `OPNUM`, every instruction is well formed, and decoding its Words, whatever follows them, gives
it back with its operand (rules R70, R71, R74, R77). -/
def Obligations.DecodeGivesBackEncode : Prop :=
  ∀ t : OpNum, t.injective = true → ∀ i : Instr,
    i.wf t = true ∧ ∀ rest : List Word, decode t (encode t i ++ rest) = .ok (i, rest)

/-- O2.  What the decoder accepts is the encoding of what it answers, with nothing of the Words lost, under every map. -/
def Obligations.EncodeGivesBackDecode : Prop :=
  ∀ (t : OpNum) (ws rest : List Word) (i : Instr), decode t ws = .ok (i, rest) → encode t i ++ rest = ws

/-- O3.  `decode(w)` is the opcode numbered `w`, else illegal; under the default map illegal means `U(w) >= 24`, and the
placeholder is illegal (rules R76, R77, decisions D1 and D7: the spec's own choices). -/
def Obligations.OpcodeDecodingIsExact : Prop :=
  (∀ (t : OpNum) (w : Word), decodeOpcode t w = none ↔ ∀ op : Opcode, t.num op ≠ w) ∧
  (∀ t : OpNum, t.injective = true → ∀ (w : Word) (op : Opcode), decodeOpcode t w = some op ↔ w = t.num op) ∧
  (∀ w : Word, decodeOpcode OpNum.default w = none ↔ 24 ≤ U w) ∧
  decodeOpcode OpNum.default placeholder = none

/-- O4.  Words written out from the table of rule R72 (decision D1: the numbers are the spec's own choice) decode to their
instructions. -/
def Obligations.TableWordsDecode : Prop :=
  decodeTableWord 32 0x00000001 = some .add ∧ decodeTableWord 32 0x0000000A = some .outnum ∧
  decodeTableWord 32 0x0000000C = some .stor ∧ decodeTableWord 32 0x0000000F = some .jnz ∧
  decodeTableWord 64 0x000003E800000010 = some (.push 1000) ∧ decodeTableWord 32 0x00000010 = some (.push 0) ∧
  decodeTableWord 64 0x0000000500000014 = some (.puship 5) ∧ decodeTableWord 32 0x00000018 = none

/-- O5.  The instruction table: the 24 canonical strings; `opcode_of` answers an opcode exactly when the folded string is its
mnemonic; `HALT` is no mnemonic; and `upper` turns each of the 26 bytes `a` to `z` into its upper-case letter and leaves every
other byte alone (rules R79, R80, R176; that only ASCII letters fold is decision D31: the spec's own choice). -/
def Obligations.MnemonicTableIsExact : Prop :=
  Opcode.all.map mnemonicOf =
    ["NOP", "ADD", "SUB", "AND", "OR", "XOR", "NOT", "COMPL", "IN", "OUT", "OUTNUM", "LOAD", "STOR", "JMP", "JZ", "JNZ",
     "PUSH", "DUP", "SWAP", "ROL3", "PUSHIP", "POPIP", "DROPIP", "DROP"] ∧
  (∀ (t : Token) (op : Opcode), opcodeOf t = some op ↔ upper t = ascii (mnemonicOf op)) ∧
  (∀ op : Opcode, opcodeOf (ascii (mnemonicOf op)) = some op) ∧
  (∀ t u : Token, upper t = upper u → opcodeOf t = opcodeOf u) ∧
  opcodeOf (ascii "HALT") = none ∧
  (∀ t : Token, (upper t).length = t.length ∧
    ∀ (k : Nat) (b : Byte), t[k]? = some b →
      (0x61 ≤ b.toNat ∧ b.toNat ≤ 0x7A → (upper t)[k]? = some (BitVec.ofNat 8 (b.toNat - 0x20))) ∧
      (b.toNat < 0x61 ∨ 0x7A < b.toNat → (upper t)[k]? = some b))

/-! ### The step cycle -/

/-- O6.  One step (rule R78): not enabled, no next state; out of memory, `IpOutOfBounds(ip)` (decision D6); an illegal Word,
`IllegalOpcode(w, ip)` (decision D7); else the decoded instruction is executed on the state as it is.  D6 and D7 are the spec's
own choices.  The model's choices: that "not enabled" is answered by a fault with a name of its own, and that a raise is a next
state with the cause latched (log 7), and what stands for an operand Word outside memory (`operandWord`, log 25). -/
def Obligations.StepRunsTheDecodedInstruction : Prop :=
  ∀ s : State,
    (∀ c : Cause, s.fault = some c → step s = .fault (.stopped c)) ∧
    (s.fault = none → s.running = false → step s = .fault .notRunning) ∧
    (s.Enabled → inBounds s.cfg s.ip = false → step s = .next (s.takeFault (.ipOutOfBounds s.ip))) ∧
    (s.Enabled → inBounds s.cfg s.ip = true → decodeOpcode s.cfg.opnum (s.memRead s.ip) = none →
      step s = .next (s.takeFault (.illegalOpcode (s.memRead s.ip) s.ip))) ∧
    (∀ op : Opcode, s.Enabled → inBounds s.cfg s.ip = true → decodeOpcode s.cfg.opnum (s.memRead s.ip) = some op →
      step s = exec (op.instr (operandWord s)) s)

/-- O7.  Where the Words of an instruction stand at `ip`, under any injective `OPNUM`, the step executes that instruction;
a format I operand is the Word at `adv(ip)` (rules R73, R74, R77, R78). -/
def Obligations.StepRunsTheEncodedInstruction : Prop :=
  ∀ (s : State) (i : Instr), s.cfg.opnum.injective = true → s.Enabled → inBounds s.cfg s.ip = true →
    (encode s.cfg.opnum i = [s.memRead s.ip] ∨
      (inBounds s.cfg (adv s.cfg s.ip) = true ∧
        encode s.cfg.opnum i = [s.memRead s.ip, s.memRead (adv s.cfg s.ip)])) →
    step s = exec i s

/-- O8.  Which instructions answer a next state: every instruction but `IN` from every state, and `IN` where its stream has a
byte or has ended; while it has neither, `IN` is held and there is no next state.  The totality is the model's choice: that a
raise is a next state with the cause latched is log 7, and that a held `IN`, which by rules R78 and R110 is not enabled, is
answered by the fault `waitingForInput` is log 11. -/
def Obligations.EveryInstructionAnswersNext : Prop :=
  (∀ (i : Instr) (s : State), i ≠ .inp → ∃ t : State, exec i s = .next t) ∧
  (∀ s : State, s.input.pending ≠ [] ∨ s.input.ended = true → ∃ t : State, exec .inp s = .next t) ∧
  (∀ s : State, s.input.pending = [] → s.input.ended = false → exec .inp s = .fault .waitingForInput)

/-! ### `NOP`, arithmetic and logic (40_arith_logic.md) -/

/-- O9.  `NOP` only advances `ip` (rule R90). -/
def Obligations.NopOnlyAdvances : Prop :=
  encode OpNum.default .nop = [0] ∧
  ∀ s : State, exec .nop s = .next { s with ip := adv s.cfg s.ip }

/-- O10.  `ADD` and `SUB`: the result, the two Words popped, `ip` advanced, all else unchanged; and the underflow stop
(rules R91, R92). -/
def Obligations.AddAndSubResults : Prop :=
  encode OpNum.default .add = [1] ∧ encode OpNum.default .sub = [2] ∧
  ∀ s : State, s.StacksWithin →
    (∀ (a b : Word) (t : List Word), s.ds = a :: b :: t →
      exec .add s = .next { s with ds := w32 (S a + S b) :: t, ip := adv s.cfg s.ip } ∧
      exec .sub s = .next { s with ds := w32 (S b - S a) :: t, ip := adv s.cfg s.ip }) ∧
    StopsOnUnderflow .add s ∧ StopsOnUnderflow .sub s

/-- O11.  `ADD` and `SUB` compute modulo 2^32 (rule R98, decision D3: the spec's own choice): the Word each pushes is one bit
pattern for the signed and the unsigned reading, differs from the exact sum or difference by a multiple of 2^32, and is exact where
that lies in the range of a Word; overflow stops nothing, is not reported and sets no state. -/
def Obligations.ArithmeticWraps : Prop :=
  ∀ (s : State) (a b : Word) (t : List Word), s.StacksWithin → s.ds = a :: b :: t →
    ∃ sum diff : Word,
      exec .add s = .next { s with ds := sum :: t, ip := adv s.cfg s.ip } ∧
      exec .sub s = .next { s with ds := diff :: t, ip := adv s.cfg s.ip } ∧
      sum = a + b ∧ U sum = (U a + U b) % 2 ^ 32 ∧ (2 ^ 32 : Int) ∣ S sum - (S a + S b) ∧
      (-(2 ^ 31) ≤ S a + S b → S a + S b < 2 ^ 31 → S sum = S a + S b) ∧
      diff = b - a ∧ (U diff : Int) = ((U b : Int) - U a) % 2 ^ 32 ∧ (2 ^ 32 : Int) ∣ S diff - (S b - S a) ∧
      (-(2 ^ 31) ≤ S b - S a → S b - S a < 2 ^ 31 → S diff = S b - S a)

/-- O12.  `AND`, `OR`, `XOR` bit by bit, over all 32 bits (rules R93, R94, R95). -/
def Obligations.BitwiseResults : Prop :=
  encode OpNum.default .and = [3] ∧ encode OpNum.default .or = [4] ∧ encode OpNum.default .xor = [5] ∧
  ∀ s : State, s.StacksWithin →
    (∀ (a b : Word) (t : List Word), s.ds = a :: b :: t →
      exec .and s = .next { s with ds := (a &&& b) :: t, ip := adv s.cfg s.ip } ∧
      exec .or s = .next { s with ds := (a ||| b) :: t, ip := adv s.cfg s.ip } ∧
      exec .xor s = .next { s with ds := (a ^^^ b) :: t, ip := adv s.cfg s.ip } ∧
      ∀ k : Nat, k < 32 →
        (a &&& b).getLsbD k = (a.getLsbD k && b.getLsbD k) ∧ (a ||| b).getLsbD k = (a.getLsbD k || b.getLsbD k) ∧
        (a ^^^ b).getLsbD k = (a.getLsbD k ^^ b.getLsbD k)) ∧
    StopsOnUnderflow .and s ∧ StopsOnUnderflow .or s ∧ StopsOnUnderflow .xor s

/-- O13.  `NOT` is the logical negation and `COMPL` inverts every bit, so that its signed value is `-S(a) - 1`
(rules R96, R97). -/
def Obligations.NotAndComplResults : Prop :=
  encode OpNum.default .not = [6] ∧ encode OpNum.default .compl = [7] ∧
  ∀ s : State, s.StacksWithin →
    (∀ (a : Word) (t : List Word), s.ds = a :: t →
      exec .not s = .next { s with ds := (if a = 0 then 1 else 0) :: t, ip := adv s.cfg s.ip } ∧
      exec .compl s = .next { s with ds := (a ^^^ 0xFFFFFFFF) :: t, ip := adv s.cfg s.ip } ∧
      S (a ^^^ 0xFFFFFFFF) = - S a - 1) ∧
    StopsOnUnderflow .not s ∧ StopsOnUnderflow .compl s

/-! ### Input and output (41_io.md) -/

/-- O14.  `IN` consumes the next byte of the stream and pushes it zero-extended, or pushes `IN_EOF_WORD` at the end of the
stream (rules R110, R112, decision D10: the spec's own choice), and has no next state while there is neither.  The form of the
stream is log 14, and that a held `IN` is answered by a fault with a name of its own is log 11: the model's choices. -/
def Obligations.InReadsOrIsHeld : Prop :=
  encode OpNum.default .inp = [8] ∧
  ∀ s : State,
    (∀ (b : Byte) (rest : List Byte), s.input.pending = b :: rest → hasRoom s.cfg.dstackCap s.ds.length = true →
      exec .inp s = .next { s with input := { s.input with pending := rest }, inPos := s.inPos + 1,
                                   ds := BitVec.ofNat 32 b.toNat :: s.ds, ip := adv s.cfg s.ip }) ∧
    (s.input.pending = [] → s.input.ended = true → hasRoom s.cfg.dstackCap s.ds.length = true →
      exec .inp s = .next { s with ds := s.cfg.inEofWord :: s.ds, ip := adv s.cfg s.ip }) ∧
    (s.input.pending = [] → s.input.ended = false → exec .inp s = .fault .waitingForInput)

/-- O15.  A held `IN` has no next state, and goes on once the outside supplies a byte or ends the stream (rule R110); what it
then pushes is rule R112 with decision D10, the spec's own choice.  The two moves of the stream are log 14 and the fault that
answers the hold is log 11: the model's choices. -/
def Obligations.InputLiftsTheHold : Prop :=
  ∀ s : State, s.input.pending = [] → s.input.ended = false → hasRoom s.cfg.dstackCap s.ds.length = true →
    exec .inp s = .fault .waitingForInput ∧
    (∀ b : Byte, ∃ t : State, exec .inp (supplyByte b s) = .next t ∧ t.ds = BitVec.ofNat 32 b.toNat :: s.ds ∧
      t.inPos = s.inPos + 1 ∧ t.input = s.input ∧ t.ip = adv s.cfg s.ip) ∧
    (∃ t : State, exec .inp (endInput s) = .next t ∧ t.ds = s.cfg.inEofWord :: s.ds ∧ t.inPos = s.inPos ∧
      t.ip = adv s.cfg s.ip)

/-- O16.  `OUT` appends the low byte, and on underflow writes nothing (rule R113). -/
def Obligations.OutWritesTheLowByte : Prop :=
  encode OpNum.default .out = [9] ∧
  ∀ s : State,
    (∀ (a : Word) (t : List Word), s.ds = a :: t →
      exec .out s = .next { s with ds := t, out := s.out ++ [BitVec.ofNat 8 (U a % 256)], ip := adv s.cfg s.ip }) ∧
    StopsOnUnderflow .out s ∧
    (s.cfg.underflow = .continueWithZero → s.ds = [] →
      exec .out s = .next { s with out := s.out ++ [0], ip := adv s.cfg s.ip,
                                   diags := s.diags ++ [.runtime (.stackUnderflow .data .out)] })

/-- O17.  `OUTNUM` appends the decimal numeral of the signed value and nothing more (rule R114). -/
def Obligations.OutnumWritesTheNumeral : Prop :=
  encode OpNum.default .outnum = [10] ∧
  ∀ s : State,
    (∀ (a : Word) (t : List Word), s.ds = a :: t →
      exec .outnum s = .next { s with ds := t, out := s.out ++ dec (S a), ip := adv s.cfg s.ip }) ∧
    StopsOnUnderflow .outnum s ∧
    (s.cfg.underflow = .continueWithZero → s.ds = [] →
      exec .outnum s = .next { s with out := s.out ++ [0x30], ip := adv s.cfg s.ip,
                                      diags := s.diags ++ [.runtime (.stackUnderflow .data .outnum)] })

/-- O18.  `dec(n)` is the shortest numeral of `n`, for every value of a Word: ASCII digits whose value is `n`, no leading
zero, and a `-` exactly before a negative value (rule R115, decision D11: the spec's own choice). -/
def Obligations.DecimalNumeralIsExact : Prop :=
  (∀ n : Nat, n < 2 ^ 31 →
    digitsValue (dec n) = n ∧ (dec n).all isDigit = true ∧ dec n ≠ [] ∧
    ((dec n).head? = some 0x30 → n = 0 ∧ dec n = [0x30])) ∧
  (∀ n : Nat, 0 < n → n ≤ 2 ^ 31 → ∃ ds : List Byte, dec (-(n : Int)) = 0x2D :: ds ∧
    digitsValue ds = n ∧ ds.all isDigit = true ∧ ds.head? ≠ some 0x30 ∧ ds.length ≤ 10)

/-! ### Load and store (42_load_store.md, 20_memory.md) -/

/-- O19.  `LOAD` replaces the address on top by the Word at it; underflow comes first, then the bounds check; on either
nothing changes (rule R120). -/
def Obligations.LoadReadsTheWord : Prop :=
  encode OpNum.default .load = [11] ∧
  ∀ s : State, s.StacksWithin →
    (∀ (a : Word) (t : List Word), s.ds = a :: t →
      (0 ≤ S a ∧ S a < (s.cfg.memWords : Int) →
        exec .load s = .next { s with ds := s.mem.read (S a).toNat :: t, ip := adv s.cfg s.ip }) ∧
      (S a < 0 ∨ (s.cfg.memWords : Int) ≤ S a →
        exec .load s = .next (s.takeFault (.addressOutOfBounds .load a)))) ∧
    StopsOnUnderflow .load s

/-- O20.  `STOR` writes the Word below the top to the address on top (the operand order is decision D34: the spec's own
choice); underflow comes first, then the bounds check; on either nothing changes (rule R121). -/
def Obligations.StorWritesTheWord : Prop :=
  encode OpNum.default .stor = [12] ∧
  ∀ s : State,
    (∀ (a b : Word) (t : List Word), s.ds = a :: b :: t →
      (0 ≤ S a ∧ S a < (s.cfg.memWords : Int) →
        exec .stor s = .next { s with mem := s.mem.write (S a).toNat b, ds := t, ip := adv s.cfg s.ip }) ∧
      (S a < 0 ∨ (s.cfg.memWords : Int) ≤ S a →
        exec .stor s = .next (s.takeFault (.addressOutOfBounds .stor a)))) ∧
    StopsOnUnderflow .stor s

/-- O21.  `MemWrite(a, 1, v)` sets the Word at `a` to `v` and changes no other Word and nothing else (20_memory.md rule R53), and
keeps memory's canonical form, which is the model's own representation (log 2). -/
def Obligations.MemWriteSetsOneWord : Prop :=
  ∀ (s : State) (a v : Word), s.mem.wf = true → inBounds s.cfg a = true →
    (s.memWrite a v).memRead a = v ∧
    (∀ b : Word, inBounds s.cfg b = true → b ≠ a → (s.memWrite a v).memRead b = s.memRead b) ∧
    (∀ n : Nat, n ≠ (S a).toNat → (s.memWrite a v).mem.read n = s.mem.read n) ∧
    (s.memWrite a v).mem.wf = true ∧
    { s.memWrite a v with mem := s.mem } = s

/-- O22.  Memory's frame: an instruction other than `STOR` leaves every Word as it was; `STOR` leaves every Word but the one
at the address it pops, and every Word where it pops none (rules R28, R53, R121). -/
def Obligations.OnlyStorWritesMemory : Prop :=
  ∀ (i : Instr) (s t : State), s.mem.wf = true → exec i s = .next t →
    (i ≠ .stor → ∀ n : Nat, t.mem.read n = s.mem.read n) ∧
    (i = .stor →
      (∀ a : Word, storAddress s = some a → ∀ n : Nat, n ≠ addrIndex a → t.mem.read n = s.mem.read n) ∧
      (storAddress s = none → ∀ n : Nat, t.mem.read n = s.mem.read n))

/-- O23.  A store is seen by the very next fetch: a `STOR` to the address `ip` advances to makes the next step decode the Word
stored (rule R61, decision D29: the spec's own inference). -/
def Obligations.StoreIsSeenByTheNextFetch : Prop :=
  ∀ (s t : State) (a b : Word) (rest : List Word), s.Inv → s.Enabled → exec .stor s = .next t →
    s.ds = a :: b :: rest → inBounds s.cfg a = true → a = adv s.cfg s.ip →
    (∀ op : Opcode, decodeOpcode s.cfg.opnum b = some op → step t = exec (op.instr (operandWord t)) t) ∧
    (decodeOpcode s.cfg.opnum b = none → step t = .next (t.takeFault (.illegalOpcode b a)))

/-! ### Jumps (43_jumps.md) -/

/-- O24.  `JMP` pops its target and goes there, or halts where the target is its own address; underflow comes first, then the
bounds check (rule R130). -/
def Obligations.JmpTransfersOrHalts : Prop :=
  encode OpNum.default .jmp = [13] ∧
  ∀ s : State,
    (∀ (a : Word) (t : List Word), s.ds = a :: t →
      (inBounds s.cfg a = true → a ≠ s.ip → exec .jmp s = .next { s with ds := t, ip := a }) ∧
      (inBounds s.cfg a = true → a = s.ip → exec .jmp s = .next { s with ds := t, running := false }) ∧
      (inBounds s.cfg a = false → exec .jmp s = .next (s.takeFault (.addressOutOfBounds .jmp a)))) ∧
    StopsOnUnderflow .jmp s

/-- O25.  `JZ` and `JNZ` test the Word on top (decision D34) and jump to the Word below it; both are popped whether or not the
jump is taken, the target is checked only when it is (decision D8), and neither halts (decision D9): the spec's own choices
(rules R131, R132, R133, R134). -/
def Obligations.ConditionalJumps : Prop :=
  encode OpNum.default .jz = [14] ∧ encode OpNum.default .jnz = [15] ∧
  ∀ s : State,
    (∀ (a b : Word) (t : List Word), s.ds = a :: b :: t →
      (a ≠ 0 → exec .jz s = .next { s with ds := t, ip := adv s.cfg s.ip }) ∧
      (a = 0 → inBounds s.cfg b = true → exec .jz s = .next { s with ds := t, ip := b }) ∧
      (a = 0 → inBounds s.cfg b = false → exec .jz s = .next (s.takeFault (.addressOutOfBounds .jz b))) ∧
      (a = 0 → exec .jnz s = .next { s with ds := t, ip := adv s.cfg s.ip }) ∧
      (a ≠ 0 → inBounds s.cfg b = true → exec .jnz s = .next { s with ds := t, ip := b }) ∧
      (a ≠ 0 → inBounds s.cfg b = false → exec .jnz s = .next (s.takeFault (.addressOutOfBounds .jnz b)))) ∧
    StopsOnUnderflow .jz s ∧ StopsOnUnderflow .jnz s

/-- O26.  The halt idiom at `p` pushes the address of its own `JMP` and halts cleanly in two steps, with no diagnostic and
nothing else changed (rule R131, whose operand `p + 2` the spec marks derived). -/
def Obligations.HaltIdiomHalts : Prop :=
  ∀ (s : State) (p : Word), s.cfg.wf = true → s.Enabled → s.ip = p → 0 ≤ S p → S p + 2 < (s.cfg.memWords : Int) →
    hasRoom s.cfg.dstackCap s.ds.length = true →
    s.memRead p = s.cfg.opnum.num .push → s.memRead (p + 1) = p + 2 → s.memRead (p + 2) = s.cfg.opnum.num .jmp →
    step s = .next { s with ds := (p + 2) :: s.ds, ip := p + 2 } ∧
    step { s with ds := (p + 2) :: s.ds, ip := p + 2 } = .next { s with ip := p + 2, running := false } ∧
    CleanRun s { s with ip := p + 2, running := false }

/-- O27.  The engine stops in exactly two ways: a `JMP` that pops its own address, with no fault, or a raise (rule R27).  No
other instruction halts (decision D9: the spec's own choice). -/
def Obligations.EngineStopsInTwoWays : Prop :=
  ∀ s t : State, s.Enabled → step s = .next t → t.running = false →
    (t.fault = none ∧ t.ip = s.ip ∧ decodeOpcode s.cfg.opnum (s.memRead s.ip) = some .jmp ∧
      (s.ds.head? = some s.ip ∨ (s.ds = [] ∧ s.ip = 0 ∧ s.cfg.underflow = .continueWithZero))) ∨
    (∃ c : Cause, t.fault = some c)

/-! ### The data-stack and return-address-stack instructions (44_stack_ops.md, 45_ip_stack.md) -/

/-- O28.  `PUSH` pushes the Word at `adv(ip)` and goes past it; where that address is not in memory it stops with
`IpOutOfBounds` and pushes nothing, also on a full stack (rules R145, R225).  The last clause is a whole step: the operand is
read from memory when the `PUSH` executes. -/
def Obligations.PushPushesItsOperand : Prop :=
  (∀ imm : Word, encode OpNum.default (.push imm) = [16, imm]) ∧
  ∀ s : State,
    (∀ imm : Word, hasRoom s.cfg.dstackCap s.ds.length = true → inBounds s.cfg (adv s.cfg s.ip) = true →
      exec (.push imm) s = .next { s with ds := imm :: s.ds, ip := adv s.cfg (adv s.cfg s.ip) }) ∧
    (∀ imm : Word, inBounds s.cfg (adv s.cfg s.ip) = false →
      exec (.push imm) s = .next (s.takeFault (.ipOutOfBounds (adv s.cfg s.ip)))) ∧
    (hasRoom s.cfg.dstackCap s.ds.length = true → s.cfg.opnum.injective = true → s.Enabled →
      inBounds s.cfg s.ip = true → inBounds s.cfg (adv s.cfg s.ip) = true → s.memRead s.ip = s.cfg.opnum.num .push →
      step s = .next { s with ds := s.memRead (adv s.cfg s.ip) :: s.ds, ip := adv s.cfg (adv s.cfg s.ip) })

/-- O29.  `DUP`, `SWAP`, `ROL3`, `DROP` (rules R146, R147, R148, R149); stacks are written top first. -/
def Obligations.StackShapes : Prop :=
  encode OpNum.default .dup = [17] ∧ encode OpNum.default .swap = [18] ∧ encode OpNum.default .rol3 = [19] ∧
  encode OpNum.default .drop = [23] ∧
  ∀ s : State, s.StacksWithin →
    (∀ (a : Word) (t : List Word), s.ds = a :: t →
      (hasRoom s.cfg.dstackCap s.ds.length = true →
        exec .dup s = .next { s with ds := a :: a :: t, ip := adv s.cfg s.ip }) ∧
      exec .drop s = .next { s with ds := t, ip := adv s.cfg s.ip }) ∧
    (∀ (a b : Word) (t : List Word), s.ds = a :: b :: t →
      exec .swap s = .next { s with ds := b :: a :: t, ip := adv s.cfg s.ip }) ∧
    (∀ (a b c : Word) (t : List Word), s.ds = a :: b :: c :: t →
      exec .rol3 s = .next { s with ds := c :: a :: b :: t, ip := adv s.cfg s.ip }) ∧
    StopsOnUnderflow .dup s ∧ StopsOnUnderflow .swap s ∧ StopsOnUnderflow .rol3 s ∧ StopsOnUnderflow .drop s

/-- O30.  `PUSHIP`, `POPIP`, `DROPIP` (rules R160, R161, R162): `rs` is written top first, `ds` is not touched. -/
def Obligations.ReturnStackInstructions : Prop :=
  (∀ imm : Word, encode OpNum.default (.puship imm) = [20, imm]) ∧
  encode OpNum.default .popip = [21] ∧ encode OpNum.default .dropip = [22] ∧
  ∀ s : State,
    (∀ imm : Word, hasRoom s.cfg.rstackCap s.rs.length = true → inBounds s.cfg (adv s.cfg s.ip) = true →
      exec (.puship imm) s = .next { s with rs := imm :: s.rs, ip := adv s.cfg (adv s.cfg s.ip) }) ∧
    (∀ imm : Word, inBounds s.cfg (adv s.cfg s.ip) = false →
      exec (.puship imm) s = .next (s.takeFault (.ipOutOfBounds (adv s.cfg s.ip)))) ∧
    (∀ (a : Word) (t : List Word), s.rs = a :: t →
      (inBounds s.cfg a = true → exec .popip s = .next { s with rs := t, ip := a }) ∧
      (inBounds s.cfg a = false → exec .popip s = .next (s.takeFault (.addressOutOfBounds .popip a))) ∧
      exec .dropip s = .next { s with rs := t, ip := adv s.cfg s.ip }) ∧
    (s.rs = [] → s.cfg.underflow = .halt →
      exec .popip s = .next (s.takeFault (.stackUnderflow .ret .popip)) ∧
      exec .dropip s = .next (s.takeFault (.stackUnderflow .ret .dropip)))

/-- O31.  The call sequence at `p`, three instructions in five Words, reaches `f` with the return address `p + 5` on `rs` and
`ds` as it was; `POPIP` then returns to `p + 5` (rule R163, whose return address the spec marks derived). -/
def Obligations.CallSequenceCallsAndReturns : Prop :=
  ∀ (s : State) (p f : Word), s.cfg.wf = true → s.Enabled → s.ip = p → 0 ≤ S p → S p + 5 < (s.cfg.memWords : Int) →
    hasRoom s.cfg.dstackCap s.ds.length = true → hasRoom s.cfg.rstackCap s.rs.length = true →
    inBounds s.cfg f = true → f ≠ p + 4 →
    s.memRead p = s.cfg.opnum.num .puship → s.memRead (p + 1) = p + 5 →
    s.memRead (p + 2) = s.cfg.opnum.num .push → s.memRead (p + 3) = f →
    s.memRead (p + 4) = s.cfg.opnum.num .jmp →
    core.run 3 s = .next { s with rs := (p + 5) :: s.rs, ip := f } ∧
    exec .popip { s with rs := (p + 5) :: s.rs, ip := f } = .next { s with ip := p + 5 }

/-! ### Underflow, overflow and bounds (10_state.md, 20_memory.md, 60_exceptions.md) -/

/-- O32.  Under `UNDERFLOW_POLICY = halt` every instruction that pops more Words than its stack holds stops with
`StackUnderflow`, whatever the Words are, so before any bounds check, and changes nothing else (rules R24, R26, R225, decisions
D5 and D26: the spec's own choices). -/
def Obligations.UnderflowHalts : Prop :=
  ∀ (i : Instr) (s : State), s.cfg.underflow = .halt →
    (s.ds.length < dataPops i.opcode → exec i s = .next (s.takeFault (.stackUnderflow .data i.opcode))) ∧
    (s.rs.length < returnPops i.opcode → exec i s = .next (s.takeFault (.stackUnderflow .ret i.opcode)))

/-- O33.  Under `continue_with_zero` each missing Word reads as 0 and delivers one diagnostic, and the instruction goes on as
it would with zeros below the stack; if it then raises, the stack stays as it was.  On an empty `rs`, `POPIP` goes to address 0
and `DROPIP` only advances (rules R24, R26, R99, R123, R136, R150, R164: the spec's own derivations).  That the diagnostics
delivered before such a raise stay delivered is log 6, the model's inference. -/
def Obligations.UnderflowContinuesWithZero : Prop :=
  (∀ (i : Instr) (s t : State), s.cfg.underflow = .continueWithZero → s.fault = none →
    s.ds.length < dataPops i.opcode →
    exec i { s with ds := s.ds ++ List.replicate (dataPops i.opcode - s.ds.length) 0,
                    diags := s.diags ++ List.replicate (dataPops i.opcode - s.ds.length)
                      (.runtime (.stackUnderflow .data i.opcode)) } = .next t →
    exec i s = .next (if t.fault = none then t else { t with ds := s.ds })) ∧
  (∀ s : State, s.cfg.underflow = .continueWithZero → s.cfg.wf = true → s.rs = [] →
    exec .popip s = .next { s with ip := 0, diags := s.diags ++ [.runtime (.stackUnderflow .ret .popip)] } ∧
    exec .dropip s = .next { s with ip := adv s.cfg s.ip,
                                    diags := s.diags ++ [.runtime (.stackUnderflow .ret .dropip)] })

/-- O34.  The bounds check of a stack-derived address (20_memory.md rule R52): `InBounds(a)` is `0 <= S(a) < M`; each of the six
instructions whose popped address fails it stops with `AddressOutOfBounds` and leaves the machine as it was, for `JZ` and
`JNZ` when the jump is taken.  Which popped Word is the address of `STOR` and which is tested by `JZ` and `JNZ` is decision D34
(log 5): the spec's own choice. -/
def Obligations.OutOfBoundsAddressStops : Prop :=
  (∀ (cfg : Config) (a : Word), inBounds cfg a = true ↔ 0 ≤ S a ∧ S a < (cfg.memWords : Int)) ∧
  ∀ (s : State) (a : Word), inBounds s.cfg a = false →
    (∀ t : List Word, s.ds = a :: t →
      exec .load s = .next (s.takeFault (.addressOutOfBounds .load a)) ∧
      exec .jmp s = .next (s.takeFault (.addressOutOfBounds .jmp a))) ∧
    (∀ (b : Word) (t : List Word), s.ds = a :: b :: t →
      exec .stor s = .next (s.takeFault (.addressOutOfBounds .stor a))) ∧
    (∀ t : List Word, s.ds = 0 :: a :: t → exec .jz s = .next (s.takeFault (.addressOutOfBounds .jz a))) ∧
    (∀ (b : Word) (t : List Word), b ≠ 0 → s.ds = b :: a :: t →
      exec .jnz s = .next (s.takeFault (.addressOutOfBounds .jnz a))) ∧
    (∀ t : List Word, s.rs = a :: t → exec .popip s = .next (s.takeFault (.addressOutOfBounds .popip a)))

/-- O35.  A push on a full stack, with a finite cap, stops with `StackOverflow` after every other check, and nothing else
changes (10_state.md rules R23, R25, 60_exceptions.md rules R225, R226, decision D13: the spec's own choice): `DUP` keeps its
Word, and `IN` its byte, which is log 29, inferred from 00_scope.md rule R12. -/
def Obligations.FullStackOverflows : Prop :=
  ∀ s : State,
    (s.cfg.dstackCap = some s.ds.length →
      (∀ imm : Word, inBounds s.cfg (adv s.cfg s.ip) = true →
        exec (.push imm) s = .next (s.takeFault (.stackOverflow .data .push))) ∧
      (s.ds ≠ [] → exec .dup s = .next (s.takeFault (.stackOverflow .data .dup))) ∧
      (s.input.pending ≠ [] ∨ s.input.ended = true →
        exec .inp s = .next (s.takeFault (.stackOverflow .data .inp)))) ∧
    (s.cfg.rstackCap = some s.rs.length →
      ∀ imm : Word, inBounds s.cfg (adv s.cfg s.ip) = true →
        exec (.puship imm) s = .next (s.takeFault (.stackOverflow .ret .puship)))

/-! ### Faults and diagnostics (60_exceptions.md) -/

/-- O36.  A fault is precise: the step that raises latches the cause, stops the engine, delivers the cause last, and leaves
every other element as it was; the diagnostics before it are underflows, and under the halt policy there are none
(rules R221, R222, decision D4: the spec's own choice; that earlier diagnostics stay delivered is log 6). -/
def Obligations.FaultsArePrecise : Prop :=
  ∀ s t : State, s.Enabled → step s = .next t → t.fault ≠ none →
    ∃ (c : Cause) (earlier : List Diagnostic),
      t = { s with fault := some c, running := false, diags := s.diags ++ earlier ++ [.runtime c] } ∧
      (∀ d ∈ earlier, ∃ (st : StackId) (op : Opcode), d = .runtime (.stackUnderflow st op)) ∧
      (s.cfg.underflow = .halt → earlier = [])

/-- O37.  No delivered diagnostic is lost, and under the halt policy a step that raises nothing delivers nothing (rules R222,
R223, R232). -/
def Obligations.DiagnosticsOnlyGrow : Prop :=
  ∀ s t : State, step s = .next t →
    s.diags <+: t.diags ∧ (s.cfg.underflow = .halt → t.fault = none → t.diags = s.diags)

/-! ### The instruction pointer (10_state.md) -/

/-- O38.  How each instruction leaves `ip` (rule R21): unchanged by a raise; the popped target for the jumps; past the operand
for format I; `adv(ip)` for the rest.  Which popped Word `JZ` and `JNZ` test and which they jump to is decision D34 (log 5): the
spec's own choice.  A held `IN` has no next state, so it is not spoken of here (log 11). -/
def Obligations.InstructionPointerAfterEachInstruction : Prop :=
  ∀ (i : Instr) (s t : State), s.fault = none → exec i s = .next t →
    (t.fault ≠ none → t.ip = s.ip) ∧
    (t.fault = none →
      match i with
      | .push _ => t.ip = adv s.cfg (adv s.cfg s.ip)
      | .puship _ => t.ip = adv s.cfg (adv s.cfg s.ip)
      | .jmp => t.ip = s.ds.headD 0
      | .jz => t.ip = if s.ds.headD 0 = 0 then s.ds.tail.headD 0 else adv s.cfg s.ip
      | .jnz => t.ip = if s.ds.headD 0 = 0 then adv s.cfg s.ip else s.ds.tail.headD 0
      | .popip => t.ip = s.rs.headD 0
      | _ => t.ip = adv s.cfg s.ip)

/-- O39.  `adv` of an address in bounds is the next address: one past the last under `fault`, address 0 after the last under
`wrap_to_zero` (rule R22, decision D6: the spec's own choice). -/
def Obligations.AdvIsTheNextAddress : Prop :=
  ∀ (cfg : Config) (a : Word), cfg.wf = true → inBounds cfg a = true →
    (cfg.ipOverflow = .fault → S (adv cfg a) = S a + 1) ∧
    (cfg.ipOverflow = .wrapToZero →
      S (adv cfg a) = (S a + 1) % (cfg.memWords : Int) ∧ inBounds cfg (adv cfg a) = true)

/-! ### Invariants and reset -/

/-- O40.  Every step keeps the machine's invariant (rule R35, which the spec marks derived): legal parameters, memory canonical
and inside `0 .. M - 1`, `ip` in its range, the stacks within their caps, a latched fault with the engine stopped, all as reset
leaves it until the fill begins and the engine until `run` (rule R252), the write position in `0 .. M`, no patch address past it. -/
def Obligations.StepKeepsTheInvariant : Prop :=
  ∀ s t : State, s.Inv → step s = .next t → t.Inv

/-- O41.  A machine meets the invariant as `State.create` makes it with any legal parameters, and after every reset; so does
`State.reset`.  The model's choices: `State.create` is creation and the reset that must follow it in one, the state between them
being open (log 17), and the number of memory Words of `State.reset` (log 4). -/
def Obligations.ResetMeetsTheInvariant : Prop :=
  (∀ (cfg : Config) (input : InputStream) (ob : Nat), cfg.wf = true → (State.create cfg input ob).Inv) ∧
  (∀ s : State, s.cfg.wf = true → s.toReset.Inv) ∧
  State.reset.Inv

/-- O42.  Reset (rule R250): the values it gives, what it leaves alone, that it clears a fault, and that it is the only operation
that does: no step, no other host operation and no move of the input stream leads from a latched fault to none. -/
def Obligations.ResetGivesTheResetValues : Prop :=
  (∀ s : State, s.running = false → ∃ t : State, hostReset s = .next t ∧
    t.ip = 0 ∧ (∀ n : Nat, t.mem.read n = 0) ∧ t.ds = [] ∧ t.rs = [] ∧ t.running = false ∧ t.fault = none ∧
    t.wp = 0 ∧ t.labels = [] ∧ t.fwd = [] ∧ t.asmDiag = [] ∧
    t.out = s.out ∧ t.inPos = s.inPos ∧ t.input = s.input ∧ t.outBinding = s.outBinding ∧ t.cfg = s.cfg) ∧
  (∀ s t : State, s.fault ≠ none →
    (step s = .next t ∨ hostRun s = .next t ∨ (∃ w : Word, hostEmit w s = .next t) ∨
      (∃ text : List Byte, hostAssemble text s = .next t) ∨ (∃ bytes : List Byte, loadImage bytes s = .next t) ∨
      (∃ input : InputStream, rebindInput input s = .next t) ∨ (∃ n : Nat, rebindOutput n s = .next t) ∨
      (∃ b : Byte, t = supplyByte b s) ∨ t = endInput s) →
    t.fault ≠ none)

/-- O43.  When each host operation is allowed (70_reset_and_hazards.md rules R252, R253, R254, R262).  `run`, after the fill,
starts the engine at address 0 and changes no other element (decision D15), and is refused on a machine that has not been filled
since its reset (rule R253 (b)) and after a failed compile phase (decision D17).  The load port writes one Word at `wp` and advances it, or reports `ImageTooLarge` and writes nothing (rule R174,
decision D16).  The load port, the compile phase and the image load are allowed after reset and until `run`, the image save
after a run, reset, the read-out and rebinding whenever the engine is not stepping, and nothing while it is (rule R228).  D15, D16
and D17 are the spec's own choices.  The model's choices: the phase as an element of the state (log 16); that a latched fault
refuses the fill and `run` by a name of its own (log 13); that rebinding leaves `in_pos` and `out` alone (log 12); that a load
lays the image over memory and changes nothing else, refuses one that is ragged or too long, and that a save is accepted after a
fault stop too (log 21); that the load port's error carries no line and is delivered to the sink (log 19). -/
def Obligations.RunStartsAtZero : Prop :=
  ∀ s : State,
    (s.running = false → s.fault = none → s.phase = .reset → hostRun s = .refused .notFilled) ∧
    (s.running = false → s.fault = none → s.phase = .fill →
      (s.asmDiag = [] → hostRun s = .next { s with ip := 0, running := true, phase := .run }) ∧
      (s.asmDiag ≠ [] → hostRun s = .refused .failedImage)) ∧
    (s.running = false → s.fault = none → s.phase ≠ .run →
      (∀ w : Word, S s.wp < (s.cfg.memWords : Int) →
        hostEmit w s = .next { s with phase := .fill, mem := s.mem.write (addrIndex s.wp) w, wp := s.wp + 1 }) ∧
      (∀ w : Word, (s.cfg.memWords : Int) ≤ S s.wp →
        let report : AsmReport := { error := .imageTooLarge s.wp, line := none }
        hostEmit w s = .next { s with phase := .fill, asmDiag := s.asmDiag ++ [report],
                                      diags := s.diags ++ [.assembly report] }) ∧
      (∀ bytes : List Byte, bytesWords s.cfg.imageByteOrder bytes = none → loadImage bytes s = .refused .imageRagged) ∧
      (∀ (bytes : List Byte) (ws : List Word), bytesWords s.cfg.imageByteOrder bytes = some ws →
        (ws.length ≤ s.cfg.memWords → loadImage bytes s = .next { s with phase := .fill, mem := s.mem.fill 0 ws }) ∧
        (s.cfg.memWords < ws.length → loadImage bytes s = .refused .imageTooLong)) ∧
      (∀ text : List Byte, hostAssemble text s = .next (assemble text { s with phase := .fill })) ∧
      saveImage s = .refused .notRun) ∧
    (s.running = false → s.fault = none → s.phase = .run →
      hostRun s = .refused .notFilling ∧ (∀ w : Word, hostEmit w s = .refused .notFilling) ∧
      (∀ text : List Byte, hostAssemble text s = .refused .notFilling) ∧
      (∀ bytes : List Byte, loadImage bytes s = .refused .notFilling)) ∧
    (s.running = false → s.fault ≠ none →
      hostRun s = .refused .faultLatched ∧ (∀ w : Word, hostEmit w s = .refused .faultLatched) ∧
      (∀ text : List Byte, hostAssemble text s = .refused .faultLatched) ∧
      (∀ bytes : List Byte, loadImage bytes s = .refused .faultLatched)) ∧
    (s.running = false →
      hostReset s = .next s.toReset ∧ s.toReset.phase = .reset ∧ (s.phase = .run → saveImage s = .next (imageBytes s)) ∧
      (∀ input : InputStream, rebindInput input s = .next { s with input := input }) ∧
      (∀ n : Nat, rebindOutput n s = .next { s with outBinding := n }) ∧
      readOut s = some { running := s.running, fault := s.fault, ip := s.ip, ds := s.ds, rs := s.rs, mem := s.mem }) ∧
    (s.running = true →
      hostRun s = .refused .engineRunning ∧ hostReset s = .refused .engineRunning ∧
      (∀ w : Word, hostEmit w s = .refused .engineRunning) ∧
      (∀ text : List Byte, hostAssemble text s = .refused .engineRunning) ∧
      (∀ input : InputStream, rebindInput input s = .refused .engineRunning) ∧
      (∀ n : Nat, rebindOutput n s = .refused .engineRunning) ∧
      (∀ bytes : List Byte, loadImage bytes s = .refused .engineRunning) ∧
      saveImage s = .refused .engineRunning ∧ readOut s = none)

/-! ### Frames and independence -/

/-- O44.  What no instruction changes, and which elements only named instructions change (rules R25, R32, R33, R36).  `IN` takes
at most one byte, the first of those pending, and `in_pos` counts it (rule R33; the form of the stream is log 14). -/
def Obligations.InstructionFrames : Prop :=
  ∀ (i : Instr) (s t : State), exec i s = .next t →
    t.cfg = s.cfg ∧ t.outBinding = s.outBinding ∧ t.phase = s.phase ∧
    t.wp = s.wp ∧ t.labels = s.labels ∧ t.fwd = s.fwd ∧ t.asmDiag = s.asmDiag ∧
    (i ≠ .inp → t.inPos = s.inPos ∧ t.input = s.input) ∧
    (∃ taken : List Byte, s.input.pending = taken ++ t.input.pending ∧ taken.length ≤ 1 ∧
      t.inPos = s.inPos + taken.length ∧ t.input.ended = s.input.ended) ∧
    (i ≠ .out → i ≠ .outnum → t.out = s.out) ∧ s.out <+: t.out ∧
    (usesDataStack i.opcode = false → t.ds = s.ds) ∧ (usesReturnStack i.opcode = false → t.rs = s.rs) ∧
    (s.fault = none → t.fault = none → i ≠ .jmp → t.running = s.running)

/-- O45.  No step reads or writes the four compile-phase elements (rule R32). -/
def Obligations.CompilePhaseStateIsNotUsed : Prop :=
  ∀ (s : State) (wp : Word) (labels fwd : List (Token × Word)) (asmDiag : List AsmReport),
    step (s.withCompilePhase wp labels fwd asmDiag) =
      onNext (fun t => t.withCompilePhase wp labels fwd asmDiag) (step s)

/-- O46.  The return-address stack is used by `PUSHIP`, `POPIP` and `DROPIP` alone, and these do not touch the data stack
(rule R25 and the opening of 45_ip_stack.md). -/
def Obligations.StacksAreIndependent : Prop :=
  ∀ (i : Instr) (s : State) (st : List Word),
    (usesReturnStack i.opcode = false →
      exec i { s with rs := st } = onNext (fun t => { t with rs := st }) (exec i s)) ∧
    (usesDataStack i.opcode = false →
      exec i { s with ds := st } = onNext (fun t => { t with ds := st }) (exec i s))

/-! ### The compile phase (46_assembler_patch_table.md) and the image (20_memory.md) -/

/-- O47.  The tokenizer.  Whitespace is the four bytes space, tab, CR and LF; `next_token` skips whitespace and takes the bytes
up to the next whitespace, which it leaves; the token is empty only at the end of the stream (rule R172, decision D23 on the
terminator: the spec's own choice).  `skip_line` discards up to and including the next line feed, or all that is left, and the
line number is 1 plus the line feeds consumed (rules R173, R182). -/
def Obligations.NextTokenSplitsTheText : Prop :=
  (∀ b : Byte, isWhitespace b = true ↔ b = 0x20 ∨ b = 0x09 ∨ b = 0x0D ∨ b = 0x0A) ∧
  (∀ src : Source, ∃ blanks : List Byte,
    src.rest = blanks ++ (nextToken src).1 ++ (nextToken src).2.rest ∧
    blanks.all isWhitespace = true ∧ (nextToken src).1.all (fun b => !isWhitespace b) = true ∧
    ((nextToken src).1 = [] → (nextToken src).2.rest = []) ∧
    (∀ b : Byte, (nextToken src).2.rest.head? = some b → isWhitespace b = true) ∧
    (nextToken src).2.line = src.line + blanks.count 0x0A) ∧
  (∀ (src : Source) (comment rest : List Byte), src.rest = comment ++ 0x0A :: rest → 0x0A ∉ comment →
    skipLine src = { rest := rest, line := src.line + 1 }) ∧
  (∀ src : Source, 0x0A ∉ src.rest → skipLine src = { rest := [], line := src.line }) ∧
  (∀ text : List Byte, Source.start text = { rest := text, line := 1 })

/-- O48.  Every source form's expansion, where the form's own length fits in memory: the Words emitted from the write position
on and the entries recorded (rules R180, R184, R185, R186, R188, R189, R192, R196: the table of R196 is the spec's own
derivation), and the forms that are errors.  The spec's own choices (log 5): `HALT` only emits (D18), `HERE` is refused as a name
(D19), every bare word is a forward entry (D30), and the range of a numeric literal (D21). -/
def Obligations.SourceFormsExpand : Prop :=
  ∀ (s : State) (t : Token), s.cfg.wf = true → 0 ≤ S s.wp →
    let p := addrIndex s.wp
    let fits := fun (k : Int) => S s.wp + k ≤ (s.cfg.memWords : Int)
    let emitted := fun (ws : List Word) => { s with mem := s.mem.fill p ws, wp := s.wp + BitVec.ofNat 32 ws.length }
    let num := s.cfg.opnum.num
    (∀ op : Opcode, fits 1 → emitToken t (.opcode op) s = .ok () (emitted [num op])) ∧
    (∀ n : Nat, n ≤ 2147483647 → fits 2 →
      emitToken t (.literal (.numeric n)) s = .ok () (emitted [num .push, BitVec.ofNat 32 n])) ∧
    (∀ n : Nat, 2147483647 < n → emitToken t (.literal (.numeric n)) s = .error (.literalOutOfRange t) s) ∧
    (∀ c : Byte, fits 2 →
      emitToken t (.literal (.character c)) s = .ok () (emitted [num .push, BitVec.ofNat 32 c.toNat])) ∧
    (∀ name : Token, upper name = here →
      emitToken t (.literal (.labelRef name)) s = .error (.reservedLabel name) s ∧
      emitToken t (.labelDef name) s = .error (.reservedLabel (upper name)) s) ∧
    (∀ (name : Token) (a : Word), upper name ≠ here → lookup s name = some a → fits 2 →
      emitToken t (.literal (.labelRef name)) s = .ok () (emitted [num .push, a])) ∧
    (∀ name : Token, upper name ≠ here → lookup s name = none → fits 2 →
      emitToken t (.literal (.labelRef name)) s =
        .ok () { emitted [num .push, placeholder] with fwd := s.fwd ++ [(name, s.wp + 1)] }) ∧
    (fits 5 → emitToken t (.literal .bareWord) s =
      .ok () { emitted [num .puship, s.wp + 5, num .push, placeholder, num .jmp] with
               fwd := s.fwd ++ [(t, s.wp + 3)] }) ∧
    (∀ name : Token, upper name ≠ here →
      emitToken t (.labelDef name) s = .ok () { s with labels := s.labels ++ [(upper name, s.wp)] }) ∧
    (fits 3 → emitToken t .haltKeyword s = .ok () (emitted [num .push, s.wp + 2, num .jmp])) ∧
    (fits 3 → emitToken t .endOfStream s = .ok () (emitted [num .push, s.wp + 2, num .jmp])) ∧
    emitToken t .comment s = .ok () s ∧
    emitToken t (.literal .unknownEscape) s = .error (.unknownEscape t) s

/-- O49.  `emit` at a write position at or past `M` stops with `ImageTooLarge` and writes nothing (rule R174, decision D16:
the spec's own choice). -/
def Obligations.EmitRefusesPastMemory : Prop :=
  ∀ (s : State) (w : Word),
    ((s.cfg.memWords : Int) ≤ S s.wp → emit w s = .error (.imageTooLarge s.wp) s) ∧
    (S s.wp < (s.cfg.memWords : Int) →
      emit w s = .ok () { s with mem := s.mem.write (addrIndex s.wp) w, wp := s.wp + 1 })

/-- O50.  The compile phase touches only memory, the write position, the two tables and the diagnostics: never `ip`, the
stacks, `running`, `fault`, the streams or the parameters (rule R175). -/
def Obligations.AssemblerLeavesTheEngineAlone : Prop :=
  ∀ (text : List Byte) (s : State),
    { assemble text s with mem := s.mem, wp := s.wp, labels := s.labels, fwd := s.fwd, asmDiag := s.asmDiag,
                           diags := s.diags } = s

/-- O51.  Every image a successful compile phase makes on a reset machine, whatever ran on it before the reset, ends with a
halt idiom whose operand is the address of its own `JMP`, and running it from there halts cleanly in two steps (rules R131,
R179, R180, R195). -/
def Obligations.EveryImageEndsInAHalt : Prop :=
  ∀ (text : List Byte) (s0 s : State), s0.cfg.wf = true → hostAssemble text s0.toReset = .next s → s.compiled = true →
    3 ≤ S s.wp ∧ S s.wp ≤ (s0.cfg.memWords : Int) ∧
    s.memRead (s.wp - 3) = s0.cfg.opnum.num .push ∧ s.memRead (s.wp - 2) = s.wp - 1 ∧
    s.memRead (s.wp - 1) = s0.cfg.opnum.num .jmp ∧
    (hasRoom s0.cfg.dstackCap 0 = true →
      core.run 2 { s with ip := s.wp - 3, running := true } = .next { s with ip := s.wp - 1, running := false })

/-- O52.  After a successful compile phase on a reset machine every forward reference is resolved and patched: its name has
an address, that address stands at the patch address, and that is the operand of a `PUSH` (rules R190, R193). -/
def Obligations.EveryForwardReferenceIsPatched : Prop :=
  ∀ (text : List Byte) (s0 s : State), s0.cfg.wf = true → hostAssemble text s0.toReset = .next s → s.compiled = true →
    ∀ (name : Token) (pa : Word), (name, pa) ∈ s.fwd →
      lookup s name = some (s.memRead pa) ∧ s.memRead (pa - 1) = s0.cfg.opnum.num .push ∧ 1 ≤ S pa ∧ S pa < S s.wp

/-- O53.  The two tables after a compile phase on a reset machine, also a failed one: patch addresses rise, label addresses do not
fall in the order of definition (rules R174, R189: the write position is never moved backwards), no label is named `HERE`, every
stored name is upper-case, and after a successful compile phase every label names a Word of the image at or before the start of the
final halt idiom (rule R193, which the spec marks derived). -/
def Obligations.TablesAreInOrder : Prop :=
  ∀ (text : List Byte) (s0 s : State), s0.cfg.wf = true → hostAssemble text s0.toReset = .next s →
    s.fwd.Pairwise (fun e f => S e.2 < S f.2) ∧
    s.labels.Pairwise (fun e f => S e.2 ≤ S f.2) ∧
    (∀ e ∈ s.labels, e.1 ≠ here ∧ upper e.1 = e.1) ∧
    (s.compiled = true → ∀ e ∈ s.labels, 0 ≤ S e.2 ∧ S e.2 ≤ S s.wp - 3)

/-- O54.  Which assembly errors are reported, and how often (rules R190, R194, decision D17: the spec's own choice).  The compile
phase ends in one of two ways.  An error of a token ends it at once, and is reported once, with nothing reported before it.  Else
the end of the stream is reached, the scan has reported nothing, and the patch pass reports `UnresolvedLabel` once for each
forward entry whose name is in no label definition, in recording order, and nothing else.  `UnknownOpcode` is never reported
(rule R192).  The model's choices: that a report is also delivered to the diagnostic sink, and the line it carries (log 19), and
that a compile phase that fails keeps the Words and the entries of both tables made before the error (log 18). -/
def Obligations.AssemblyErrorsAreReported : Prop :=
  ∀ (text : List Byte) (s : State),
    (∀ (src : Source) (u v : State) (e : AsmError), ScanAt text s src u →
      emitToken (tokenAt src) (classify (tokenAt src)) u = .error e v →
      assemble text s = v.reportAsm e (some (nextToken src).2.line) ∧ v.asmDiag = s.asmDiag ∧ v.diags = s.diags ∧
      ∀ tok : Token, e ≠ .unknownOpcode tok) ∧
    (∀ (src : Source) (u v : State), ScanAt text s src u → tokenAt src = [] → emitToken [] .endOfStream u = .ok () v →
      let unresolved : List AsmReport := (v.fwd.filter (fun e => (lookup v e.1).isNone)).map
        (fun e => { error := .unresolvedLabel e.1, line := some (nextToken src).2.line })
      (assemble text s).asmDiag = s.asmDiag ++ unresolved ∧
      (assemble text s).diags = s.diags ++ unresolved.map Diagnostic.assembly) ∧
    (∃ (src : Source) (u : State), ScanAt text s src u ∧
      ((∃ (e : AsmError) (v : State), emitToken (tokenAt src) (classify (tokenAt src)) u = .error e v) ∨
       (tokenAt src = [] ∧ ∃ v : State, emitToken [] .endOfStream u = .ok () v)))

/-- O55.  The class of every token (rules R178, R181, R183, R185, R186; the order is decision D27 and the character forms are
D22: the spec's own choices): the empty token is the end of the stream; what ends in `:` is a label definition unless it
begins with `;`; a mnemonic in any letter case is its opcode; `HALT` in any case is the keyword; what begins with `;` is a
comment; `&NAME` is a label reference; a token of digits is a number; `'c'` is the character, and the four escapes have the
codes 9, 13, 10 and 0; any other token that begins with a quote and a backslash is an unknown escape; and every other token
is a bare word. -/
def Obligations.TokenClasses : Prop :=
  classify [] = .endOfStream ∧
  (∀ t : Token, t.head? ≠ some 0x3B → classify (t ++ [0x3A]) = .labelDef t) ∧
  (∀ t : Token, classify (0x3B :: t) = .comment) ∧
  (∀ (t : Token) (op : Opcode), upper t = ascii (mnemonicOf op) → classify t = .opcode op) ∧
  (∀ t : Token, upper t = ascii "HALT" → classify t = .haltKeyword) ∧
  (∀ name : Token, name.getLast? ≠ some 0x3A → classify (0x26 :: name) = .literal (.labelRef name)) ∧
  (∀ t : Token, t ≠ [] → t.all isDigit = true → classify t = .literal (.numeric (digitsValue t))) ∧
  (∀ c : Byte, c ≠ 0x5C → classify [0x27, c, 0x27] = .literal (.character c)) ∧
  classify [0x27, 0x5C, 0x74, 0x27] = .literal (.character 9) ∧
  classify [0x27, 0x5C, 0x72, 0x27] = .literal (.character 13) ∧
  classify [0x27, 0x5C, 0x6E, 0x27] = .literal (.character 10) ∧
  classify [0x27, 0x5C, 0x30, 0x27] = .literal (.character 0) ∧
  (∀ rest : Token, rest.getLast? ≠ some 0x3A →
    rest ∉ [[0x74, 0x27], [0x72, 0x27], [0x6E, 0x27], [(0x30 : Byte), 0x27]] →
    classify (0x27 :: 0x5C :: rest) = .literal .unknownEscape) ∧
  (∀ t : Token, t ≠ [] → upper t ≠ ascii "HALT" → t.head? ≠ some 0x3B → t.getLast? ≠ some 0x3A → opcodeOf t = none →
    t.head? ≠ some 0x26 → t.all isDigit = false → (∀ c : Byte, c ≠ 0x5C → t ≠ [0x27, c, 0x27]) →
    (∀ rest : Token, t ≠ 0x27 :: 0x5C :: rest) → classify t = .literal .bareWord)

/-- O56.  `lookup` folds case, answers the earliest definition of a name (decision D20: the spec's own choice), and `HERE` is
the write position, whatever the table holds (rule R177). -/
def Obligations.EarliestLabelWins : Prop :=
  (∀ (s : State) (name : Token) (a : Word) (before after : List (Token × Word)), upper name ≠ here →
    s.labels = before ++ (upper name, a) :: after → (∀ e ∈ before, e.1 ≠ upper name) → lookup s name = some a) ∧
  (∀ (s : State) (name : Token), upper name ≠ here → (∀ e ∈ s.labels, e.1 ≠ upper name) → lookup s name = none) ∧
  (∀ (s : State) (name : Token), upper name = here → lookup s name = some s.wp) ∧
  (∀ (s : State) (name : Token), lookup s (upper name) = lookup s name)

/-- O57.  Hand-over (rule R195, which the spec marks derived): the compile phase is accepted on a reset machine, and after a
successful one every Word from the write position on is `NOP`, the machine meets the boot requirements (rule R253), and `run`
starts it in a state that meets the invariant. -/
def Obligations.CompiledMachineIsReadyToRun : Prop :=
  ∀ (text : List Byte) (s0 : State), s0.cfg.wf = true →
    ∃ s : State, hostAssemble text s0.toReset = .next s ∧
      (s.compiled = true →
        (∀ n : Nat, U s.wp ≤ n → s.mem.read n = 0) ∧ s.BootReady ∧
        ∃ t : State, hostRun s = .next t ∧ t = { s with ip := 0, running := true, phase := .run } ∧ t.Inv ∧ t.Enabled)

/-- O58.  `program_end(mem)` is one past the last Word that is not `NOP`, and 0 where there is none (rule R62). -/
def Obligations.ProgramEndIsPastTheLastWord : Prop :=
  ∀ m : Memory, m.wf = true →
    (∀ n : Nat, m.programEnd ≤ n → m.read n = 0) ∧
    (0 < m.programEnd → m.read (m.programEnd - 1) ≠ 0) ∧
    ((∀ n : Nat, m.read n = 0) → m.programEnd = 0)

/-- O59.  Saving an image after a run and loading it into a reset machine of equal or larger capacity, under the same byte order
(decision D24), gives the same memory (20_memory.md rule R63).  That the load leaves the write position alone
(log 21), and that it is recorded as a fill (log 16), are the model's choices. -/
def Obligations.SavedImageLoadsBack : Prop :=
  ∀ s t : State, s.mem.wf = true → memWithin s.cfg s.mem = true → s.running = false → s.phase = .run →
    s.cfg.memWords ≤ t.cfg.memWords → t.cfg.imageByteOrder = s.cfg.imageByteOrder →
    t.running = false → t.fault = none → t.phase ≠ .run → t.mem = [] →
    ∃ bytes : List Byte, saveImage s = .next bytes ∧ loadImage bytes t = .next { t with phase := .fill, mem := s.mem }

/-- O60.  Every move from outside keeps the invariant: reset, the load port, the compile phase, the image load, `run`, rebinding
a stream, and what the outside does to the input stream; and where `run` is accepted the boot requirements held (rules R253,
R262; rule R253 the spec marks derived).  What counts as a fill, one that is an image of no Words too, is the model's choice
(log 16). -/
def Obligations.HostMovesKeepTheInvariant : Prop :=
  ∀ s t : State, s.Inv →
    ((hostReset s = .next t ∨ hostRun s = .next t ∨ (∃ w : Word, hostEmit w s = .next t) ∨
      (∃ text : List Byte, hostAssemble text s = .next t) ∨ (∃ bytes : List Byte, loadImage bytes s = .next t) ∨
      (∃ input : InputStream, rebindInput input s = .next t) ∨ (∃ n : Nat, rebindOutput n s = .next t) ∨
      (∃ b : Byte, t = supplyByte b s) ∨ t = endInput s) → t.Inv) ∧
    (hostRun s = .next t → s.BootReady)
end

