-- ==== Sys2Proof/Laws/State.lean ====
section
/-! SUPPORT. One lemma per field of `State` per named update: what the update leaves in that field. -/

namespace Sys2Proof.Machine

variable (s : State)

@[simp] theorem State.deliver_cfg (c : Cause) : (s.deliver c).cfg = s.cfg := rfl
@[simp] theorem State.deliver_ip (c : Cause) : (s.deliver c).ip = s.ip := rfl
@[simp] theorem State.deliver_mem (c : Cause) : (s.deliver c).mem = s.mem := rfl
@[simp] theorem State.deliver_ds (c : Cause) : (s.deliver c).ds = s.ds := rfl
@[simp] theorem State.deliver_rs (c : Cause) : (s.deliver c).rs = s.rs := rfl
@[simp] theorem State.deliver_running (c : Cause) : (s.deliver c).running = s.running := rfl
@[simp] theorem State.deliver_fault (c : Cause) : (s.deliver c).fault = s.fault := rfl
@[simp] theorem State.deliver_out (c : Cause) : (s.deliver c).out = s.out := rfl
@[simp] theorem State.deliver_inPos (c : Cause) : (s.deliver c).inPos = s.inPos := rfl
@[simp] theorem State.deliver_input (c : Cause) : (s.deliver c).input = s.input := rfl
@[simp] theorem State.deliver_outBinding (c : Cause) : (s.deliver c).outBinding = s.outBinding := rfl
@[simp] theorem State.deliver_diags (c : Cause) : (s.deliver c).diags = s.diags ++ [.runtime c] := rfl
@[simp] theorem State.deliver_wp (c : Cause) : (s.deliver c).wp = s.wp := rfl
@[simp] theorem State.deliver_labels (c : Cause) : (s.deliver c).labels = s.labels := rfl
@[simp] theorem State.deliver_fwd (c : Cause) : (s.deliver c).fwd = s.fwd := rfl
@[simp] theorem State.deliver_asmDiag (c : Cause) : (s.deliver c).asmDiag = s.asmDiag := rfl
@[simp] theorem State.deliver_phase (c : Cause) : (s.deliver c).phase = s.phase := rfl

@[simp] theorem State.takeFault_cfg (c : Cause) : (s.takeFault c).cfg = s.cfg := rfl
@[simp] theorem State.takeFault_ip (c : Cause) : (s.takeFault c).ip = s.ip := rfl
@[simp] theorem State.takeFault_mem (c : Cause) : (s.takeFault c).mem = s.mem := rfl
@[simp] theorem State.takeFault_ds (c : Cause) : (s.takeFault c).ds = s.ds := rfl
@[simp] theorem State.takeFault_rs (c : Cause) : (s.takeFault c).rs = s.rs := rfl
@[simp] theorem State.takeFault_running (c : Cause) : (s.takeFault c).running = false := rfl
@[simp] theorem State.takeFault_fault (c : Cause) : (s.takeFault c).fault = some c := rfl
@[simp] theorem State.takeFault_out (c : Cause) : (s.takeFault c).out = s.out := rfl
@[simp] theorem State.takeFault_inPos (c : Cause) : (s.takeFault c).inPos = s.inPos := rfl
@[simp] theorem State.takeFault_input (c : Cause) : (s.takeFault c).input = s.input := rfl
@[simp] theorem State.takeFault_outBinding (c : Cause) : (s.takeFault c).outBinding = s.outBinding := rfl
@[simp] theorem State.takeFault_diags (c : Cause) : (s.takeFault c).diags = s.diags ++ [.runtime c] := rfl
@[simp] theorem State.takeFault_wp (c : Cause) : (s.takeFault c).wp = s.wp := rfl
@[simp] theorem State.takeFault_labels (c : Cause) : (s.takeFault c).labels = s.labels := rfl
@[simp] theorem State.takeFault_fwd (c : Cause) : (s.takeFault c).fwd = s.fwd := rfl
@[simp] theorem State.takeFault_asmDiag (c : Cause) : (s.takeFault c).asmDiag = s.asmDiag := rfl
@[simp] theorem State.takeFault_phase (c : Cause) : (s.takeFault c).phase = s.phase := rfl

@[simp] theorem State.memWrite_cfg (a v : Word) : (s.memWrite a v).cfg = s.cfg := rfl
@[simp] theorem State.memWrite_ip (a v : Word) : (s.memWrite a v).ip = s.ip := rfl
@[simp] theorem State.memWrite_mem (a v : Word) : (s.memWrite a v).mem = s.mem.write (addrIndex a) v := rfl
@[simp] theorem State.memWrite_ds (a v : Word) : (s.memWrite a v).ds = s.ds := rfl
@[simp] theorem State.memWrite_rs (a v : Word) : (s.memWrite a v).rs = s.rs := rfl
@[simp] theorem State.memWrite_running (a v : Word) : (s.memWrite a v).running = s.running := rfl
@[simp] theorem State.memWrite_fault (a v : Word) : (s.memWrite a v).fault = s.fault := rfl
@[simp] theorem State.memWrite_out (a v : Word) : (s.memWrite a v).out = s.out := rfl
@[simp] theorem State.memWrite_inPos (a v : Word) : (s.memWrite a v).inPos = s.inPos := rfl
@[simp] theorem State.memWrite_input (a v : Word) : (s.memWrite a v).input = s.input := rfl
@[simp] theorem State.memWrite_outBinding (a v : Word) : (s.memWrite a v).outBinding = s.outBinding := rfl
@[simp] theorem State.memWrite_diags (a v : Word) : (s.memWrite a v).diags = s.diags := rfl
@[simp] theorem State.memWrite_wp (a v : Word) : (s.memWrite a v).wp = s.wp := rfl
@[simp] theorem State.memWrite_labels (a v : Word) : (s.memWrite a v).labels = s.labels := rfl
@[simp] theorem State.memWrite_fwd (a v : Word) : (s.memWrite a v).fwd = s.fwd := rfl
@[simp] theorem State.memWrite_asmDiag (a v : Word) : (s.memWrite a v).asmDiag = s.asmDiag := rfl
@[simp] theorem State.memWrite_phase (a v : Word) : (s.memWrite a v).phase = s.phase := rfl

@[simp] theorem State.toReset_cfg : (s.toReset).cfg = s.cfg := rfl
@[simp] theorem State.toReset_ip : (s.toReset).ip = 0 := rfl
@[simp] theorem State.toReset_mem : (s.toReset).mem = [] := rfl
@[simp] theorem State.toReset_ds : (s.toReset).ds = [] := rfl
@[simp] theorem State.toReset_rs : (s.toReset).rs = [] := rfl
@[simp] theorem State.toReset_running : (s.toReset).running = false := rfl
@[simp] theorem State.toReset_fault : (s.toReset).fault = none := rfl
@[simp] theorem State.toReset_out : (s.toReset).out = s.out := rfl
@[simp] theorem State.toReset_inPos : (s.toReset).inPos = s.inPos := rfl
@[simp] theorem State.toReset_input : (s.toReset).input = s.input := rfl
@[simp] theorem State.toReset_outBinding : (s.toReset).outBinding = s.outBinding := rfl
@[simp] theorem State.toReset_diags : (s.toReset).diags = s.diags := rfl
@[simp] theorem State.toReset_wp : (s.toReset).wp = 0 := rfl
@[simp] theorem State.toReset_labels : (s.toReset).labels = [] := rfl
@[simp] theorem State.toReset_fwd : (s.toReset).fwd = [] := rfl
@[simp] theorem State.toReset_asmDiag : (s.toReset).asmDiag = [] := rfl
@[simp] theorem State.toReset_phase : (s.toReset).phase = .reset := rfl

@[simp] theorem State.withCompilePhase_cfg (wp : Word) (labels fwd : List (Token × Word)) (asmDiag : List AsmReport) : (s.withCompilePhase wp labels fwd asmDiag).cfg = s.cfg := rfl
@[simp] theorem State.withCompilePhase_ip (wp : Word) (labels fwd : List (Token × Word)) (asmDiag : List AsmReport) : (s.withCompilePhase wp labels fwd asmDiag).ip = s.ip := rfl
@[simp] theorem State.withCompilePhase_mem (wp : Word) (labels fwd : List (Token × Word)) (asmDiag : List AsmReport) : (s.withCompilePhase wp labels fwd asmDiag).mem = s.mem := rfl
@[simp] theorem State.withCompilePhase_ds (wp : Word) (labels fwd : List (Token × Word)) (asmDiag : List AsmReport) : (s.withCompilePhase wp labels fwd asmDiag).ds = s.ds := rfl
@[simp] theorem State.withCompilePhase_rs (wp : Word) (labels fwd : List (Token × Word)) (asmDiag : List AsmReport) : (s.withCompilePhase wp labels fwd asmDiag).rs = s.rs := rfl
@[simp] theorem State.withCompilePhase_running (wp : Word) (labels fwd : List (Token × Word)) (asmDiag : List AsmReport) : (s.withCompilePhase wp labels fwd asmDiag).running = s.running := rfl
@[simp] theorem State.withCompilePhase_fault (wp : Word) (labels fwd : List (Token × Word)) (asmDiag : List AsmReport) : (s.withCompilePhase wp labels fwd asmDiag).fault = s.fault := rfl
@[simp] theorem State.withCompilePhase_out (wp : Word) (labels fwd : List (Token × Word)) (asmDiag : List AsmReport) : (s.withCompilePhase wp labels fwd asmDiag).out = s.out := rfl
@[simp] theorem State.withCompilePhase_inPos (wp : Word) (labels fwd : List (Token × Word)) (asmDiag : List AsmReport) : (s.withCompilePhase wp labels fwd asmDiag).inPos = s.inPos := rfl
@[simp] theorem State.withCompilePhase_input (wp : Word) (labels fwd : List (Token × Word)) (asmDiag : List AsmReport) : (s.withCompilePhase wp labels fwd asmDiag).input = s.input := rfl
@[simp] theorem State.withCompilePhase_outBinding (wp : Word) (labels fwd : List (Token × Word)) (asmDiag : List AsmReport) : (s.withCompilePhase wp labels fwd asmDiag).outBinding = s.outBinding := rfl
@[simp] theorem State.withCompilePhase_diags (wp : Word) (labels fwd : List (Token × Word)) (asmDiag : List AsmReport) : (s.withCompilePhase wp labels fwd asmDiag).diags = s.diags := rfl
@[simp] theorem State.withCompilePhase_wp (wp : Word) (labels fwd : List (Token × Word)) (asmDiag : List AsmReport) : (s.withCompilePhase wp labels fwd asmDiag).wp = wp := rfl
@[simp] theorem State.withCompilePhase_labels (wp : Word) (labels fwd : List (Token × Word)) (asmDiag : List AsmReport) : (s.withCompilePhase wp labels fwd asmDiag).labels = labels := rfl
@[simp] theorem State.withCompilePhase_fwd (wp : Word) (labels fwd : List (Token × Word)) (asmDiag : List AsmReport) : (s.withCompilePhase wp labels fwd asmDiag).fwd = fwd := rfl
@[simp] theorem State.withCompilePhase_asmDiag (wp : Word) (labels fwd : List (Token × Word)) (asmDiag : List AsmReport) : (s.withCompilePhase wp labels fwd asmDiag).asmDiag = asmDiag := rfl
@[simp] theorem State.withCompilePhase_phase (wp : Word) (labels fwd : List (Token × Word)) (asmDiag : List AsmReport) : (s.withCompilePhase wp labels fwd asmDiag).phase = s.phase := rfl

@[simp] theorem State.reportAsm_cfg (e : AsmError) (line : Option Nat) : (s.reportAsm e line).cfg = s.cfg := rfl
@[simp] theorem State.reportAsm_ip (e : AsmError) (line : Option Nat) : (s.reportAsm e line).ip = s.ip := rfl
@[simp] theorem State.reportAsm_mem (e : AsmError) (line : Option Nat) : (s.reportAsm e line).mem = s.mem := rfl
@[simp] theorem State.reportAsm_ds (e : AsmError) (line : Option Nat) : (s.reportAsm e line).ds = s.ds := rfl
@[simp] theorem State.reportAsm_rs (e : AsmError) (line : Option Nat) : (s.reportAsm e line).rs = s.rs := rfl
@[simp] theorem State.reportAsm_running (e : AsmError) (line : Option Nat) : (s.reportAsm e line).running = s.running := rfl
@[simp] theorem State.reportAsm_fault (e : AsmError) (line : Option Nat) : (s.reportAsm e line).fault = s.fault := rfl
@[simp] theorem State.reportAsm_out (e : AsmError) (line : Option Nat) : (s.reportAsm e line).out = s.out := rfl
@[simp] theorem State.reportAsm_inPos (e : AsmError) (line : Option Nat) : (s.reportAsm e line).inPos = s.inPos := rfl
@[simp] theorem State.reportAsm_input (e : AsmError) (line : Option Nat) : (s.reportAsm e line).input = s.input := rfl
@[simp] theorem State.reportAsm_outBinding (e : AsmError) (line : Option Nat) : (s.reportAsm e line).outBinding = s.outBinding := rfl
@[simp] theorem State.reportAsm_diags (e : AsmError) (line : Option Nat) : (s.reportAsm e line).diags = s.diags ++ [.assembly ⟨e, line⟩] := rfl
@[simp] theorem State.reportAsm_wp (e : AsmError) (line : Option Nat) : (s.reportAsm e line).wp = s.wp := rfl
@[simp] theorem State.reportAsm_labels (e : AsmError) (line : Option Nat) : (s.reportAsm e line).labels = s.labels := rfl
@[simp] theorem State.reportAsm_fwd (e : AsmError) (line : Option Nat) : (s.reportAsm e line).fwd = s.fwd := rfl
@[simp] theorem State.reportAsm_asmDiag (e : AsmError) (line : Option Nat) : (s.reportAsm e line).asmDiag = s.asmDiag ++ [⟨e, line⟩] := rfl
@[simp] theorem State.reportAsm_phase (e : AsmError) (line : Option Nat) : (s.reportAsm e line).phase = s.phase := rfl

@[simp] theorem State.beginFill_cfg : s.beginFill.cfg = s.cfg := rfl
@[simp] theorem State.beginFill_ip : s.beginFill.ip = s.ip := rfl
@[simp] theorem State.beginFill_mem : s.beginFill.mem = s.mem := rfl
@[simp] theorem State.beginFill_ds : s.beginFill.ds = s.ds := rfl
@[simp] theorem State.beginFill_rs : s.beginFill.rs = s.rs := rfl
@[simp] theorem State.beginFill_running : s.beginFill.running = s.running := rfl
@[simp] theorem State.beginFill_fault : s.beginFill.fault = s.fault := rfl
@[simp] theorem State.beginFill_out : s.beginFill.out = s.out := rfl
@[simp] theorem State.beginFill_inPos : s.beginFill.inPos = s.inPos := rfl
@[simp] theorem State.beginFill_input : s.beginFill.input = s.input := rfl
@[simp] theorem State.beginFill_outBinding : s.beginFill.outBinding = s.outBinding := rfl
@[simp] theorem State.beginFill_diags : s.beginFill.diags = s.diags := rfl
@[simp] theorem State.beginFill_wp : s.beginFill.wp = s.wp := rfl
@[simp] theorem State.beginFill_labels : s.beginFill.labels = s.labels := rfl
@[simp] theorem State.beginFill_fwd : s.beginFill.fwd = s.fwd := rfl
@[simp] theorem State.beginFill_asmDiag : s.beginFill.asmDiag = s.asmDiag := rfl
@[simp] theorem State.beginFill_phase : s.beginFill.phase = .fill := rfl

end Sys2Proof.Machine
end

