-- ==== Sys2Proof/Laws/Exec.lean ====
section
/-! SUPPORT. What the shared operations of an instruction's rule do: one equation per case of each primitive, one inversion
lemma per primitive, and what completing a rule answers.  Proofs cite these and do not unfold the primitives. -/

namespace Sys2Proof.Machine

/-! ### Sequencing -/

theorem bind_eq {ε σ α β : Type} (x : EStateM ε σ α) (f : α → EStateM ε σ β) (s : σ) :
    (x >>= f) s = match x s with
      | .ok a t => f a t
      | .error e t => .error e t := rfl

theorem bind_of_ok {ε σ α β : Type} {x : EStateM ε σ α} {s t : σ} {a : α} (h : x s = .ok a t) (f : α → EStateM ε σ β) :
    (x >>= f) s = f a t := by rw [bind_eq, h]

theorem bind_of_error {ε σ α β : Type} {x : EStateM ε σ α} {s t : σ} {e : ε} (h : x s = .error e t)
    (f : α → EStateM ε σ β) : (x >>= f) s = .error e t := by rw [bind_eq, h]

/-- A sequence ends only through an end of its first part. -/
theorem bind_ok_iff {ε σ α β : Type} {x : EStateM ε σ α} {f : α → EStateM ε σ β} {s u : σ} {b : β} :
    (x >>= f) s = .ok b u ↔ ∃ a t, x s = .ok a t ∧ f a t = .ok b u := by
  rw [bind_eq]
  cases h : x s <;> simp

/-- A sequence stops in its first part or in its second. -/
theorem bind_error_iff {ε σ α β : Type} {x : EStateM ε σ α} {f : α → EStateM ε σ β} {s u : σ} {e : ε} :
    (x >>= f) s = .error e u ↔ x s = .error e u ∨ ∃ a t, x s = .ok a t ∧ f a t = .error e u := by
  rw [bind_eq]
  cases h : x s <;> simp

@[simp] theorem pure_apply {ε σ α : Type} (a : α) (s : σ) : (pure a : EStateM ε σ α) s = .ok a s := rfl

@[simp] theorem get_apply {ε σ : Type} (s : σ) : (get : EStateM ε σ σ) s = .ok s s := rfl

/-! ### The primitives, case by case -/

@[simp] theorem raise_apply {α : Type} (c : Cause) (s : State) :
    (raise c : Exec α) s = .error (.raise c) s := rfl

@[simp] theorem advance_apply (s : State) : advance s = .ok () { s with ip := adv s.cfg s.ip } := rfl

@[simp] theorem setIp_apply (t : Word) (s : State) : setIp t s = .ok () { s with ip := t } := rfl

@[simp] theorem stopRunning_apply (s : State) : stopRunning s = .ok () { s with running := false } := rfl

@[simp] theorem putBytes_apply (bs : List Byte) (s : State) : putBytes bs s = .ok () { s with out := s.out ++ bs } := rfl

@[simp] theorem advancePast_apply (oa : Word) (s : State) :
    advancePast oa s = .ok () { s with ip := adv s.cfg oa } := rfl

@[simp] theorem loadWord_apply (a : Word) (s : State) : loadWord a s = .ok (s.memRead a) s := rfl

@[simp] theorem storeWord_apply (a v : Word) (s : State) : storeWord a v s = .ok () (s.memWrite a v) := rfl

@[simp] theorem currentIp_apply (s : State) : currentIp s = .ok s.ip s := rfl

theorem dpop_cons {op : Opcode} {s : State} {v : Word} {t : List Word} (h : s.ds = v :: t) :
    dpop op s = .ok v { s with ds := t } := by simp [dpop, h]

theorem dpop_nil_halt {op : Opcode} {s : State} (h : s.ds = []) (hp : s.cfg.underflow = .halt) :
    dpop op s = .error (.raise (.stackUnderflow .data op)) s := by simp [dpop, popEmpty, h, hp]

theorem dpop_nil_continue {op : Opcode} {s : State} (h : s.ds = []) (hp : s.cfg.underflow = .continueWithZero) :
    dpop op s = .ok 0 (s.deliver (.stackUnderflow .data op)) := by simp [dpop, popEmpty, h, hp]

theorem rpop_cons {op : Opcode} {s : State} {v : Word} {t : List Word} (h : s.rs = v :: t) :
    rpop op s = .ok v { s with rs := t } := by simp [rpop, h]

theorem rpop_nil_halt {op : Opcode} {s : State} (h : s.rs = []) (hp : s.cfg.underflow = .halt) :
    rpop op s = .error (.raise (.stackUnderflow .ret op)) s := by simp [rpop, popEmpty, h, hp]

theorem rpop_nil_continue {op : Opcode} {s : State} (h : s.rs = []) (hp : s.cfg.underflow = .continueWithZero) :
    rpop op s = .ok 0 (s.deliver (.stackUnderflow .ret op)) := by simp [rpop, popEmpty, h, hp]

theorem dpush_room {op : Opcode} {v : Word} {s : State} (h : hasRoom s.cfg.dstackCap s.ds.length = true) :
    dpush op v s = .ok () { s with ds := v :: s.ds } := by simp [dpush, h]

theorem dpush_full {op : Opcode} {v : Word} {s : State} (h : hasRoom s.cfg.dstackCap s.ds.length = false) :
    dpush op v s = .error (.raise (.stackOverflow .data op)) s := by simp [dpush, h]

theorem rpush_room {op : Opcode} {v : Word} {s : State} (h : hasRoom s.cfg.rstackCap s.rs.length = true) :
    rpush op v s = .ok () { s with rs := v :: s.rs } := by simp [rpush, h]

theorem rpush_full {op : Opcode} {v : Word} {s : State} (h : hasRoom s.cfg.rstackCap s.rs.length = false) :
    rpush op v s = .error (.raise (.stackOverflow .ret op)) s := by simp [rpush, h]

theorem boundsCheck_in {op : Opcode} {a : Word} {s : State} (h : inBounds s.cfg a = true) :
    boundsCheck op a s = .ok () s := by simp [boundsCheck, h]

theorem boundsCheck_out {op : Opcode} {a : Word} {s : State} (h : inBounds s.cfg a = false) :
    boundsCheck op a s = .error (.raise (.addressOutOfBounds op a)) s := by simp [boundsCheck, h]

theorem operandAddress_in {s : State} (h : inBounds s.cfg (adv s.cfg s.ip) = true) :
    operandAddress s = .ok (adv s.cfg s.ip) s := by simp [operandAddress, h]

theorem operandAddress_out {s : State} (h : inBounds s.cfg (adv s.cfg s.ip) = false) :
    operandAddress s = .error (.raise (.ipOutOfBounds (adv s.cfg s.ip))) s := by simp [operandAddress, h]

theorem takeInput_byte {s : State} {b : Byte} {rest : List Byte} (h : s.input.pending = b :: rest) :
    takeInput s = .ok (.byte b) { s with input := { s.input with pending := rest }, inPos := s.inPos + 1 } := by simp [takeInput, h]

theorem takeInput_eof {s : State} (h : s.input.pending = []) (he : s.input.ended = true) :
    takeInput s = .ok .eof s := by simp [takeInput, h, he]

theorem takeInput_held {s : State} (h : s.input.pending = []) (he : s.input.ended = false) :
    takeInput s = .error .held s := by simp [takeInput, h, he]

/-! ### Everything a pop or a push can do -/

/-- Everything `dpop` can do. -/
theorem dpop_cases (op : Opcode) (s : State) :
    (∃ v t, s.ds = v :: t ∧ dpop op s = .ok v { s with ds := t }) ∨
    (s.ds = [] ∧ s.cfg.underflow = .continueWithZero ∧ dpop op s = .ok 0 (s.deliver (.stackUnderflow .data op))) ∨
    (s.ds = [] ∧ s.cfg.underflow = .halt ∧ dpop op s = .error (.raise (.stackUnderflow .data op)) s) := by
  cases h : s.ds with
  | cons v t => exact .inl ⟨v, t, rfl, dpop_cons h⟩
  | nil =>
    cases hp : s.cfg.underflow with
    | halt => exact .inr (.inr ⟨rfl, rfl, dpop_nil_halt h hp⟩)
    | continueWithZero => exact .inr (.inl ⟨rfl, rfl, dpop_nil_continue h hp⟩)

/-- Everything `rpop` can do. -/
theorem rpop_cases (op : Opcode) (s : State) :
    (∃ v t, s.rs = v :: t ∧ rpop op s = .ok v { s with rs := t }) ∨
    (s.rs = [] ∧ s.cfg.underflow = .continueWithZero ∧ rpop op s = .ok 0 (s.deliver (.stackUnderflow .ret op))) ∨
    (s.rs = [] ∧ s.cfg.underflow = .halt ∧ rpop op s = .error (.raise (.stackUnderflow .ret op)) s) := by
  cases h : s.rs with
  | cons v t => exact .inl ⟨v, t, rfl, rpop_cons h⟩
  | nil =>
    cases hp : s.cfg.underflow with
    | halt => exact .inr (.inr ⟨rfl, rfl, rpop_nil_halt h hp⟩)
    | continueWithZero => exact .inr (.inl ⟨rfl, rfl, rpop_nil_continue h hp⟩)

/-- Everything `dpush` can do. -/
theorem dpush_cases (op : Opcode) (v : Word) (s : State) :
    (hasRoom s.cfg.dstackCap s.ds.length = true ∧ dpush op v s = .ok () { s with ds := v :: s.ds }) ∨
    (hasRoom s.cfg.dstackCap s.ds.length = false ∧ dpush op v s = .error (.raise (.stackOverflow .data op)) s) := by
  cases h : hasRoom s.cfg.dstackCap s.ds.length with
  | true => exact .inl ⟨rfl, dpush_room h⟩
  | false => exact .inr ⟨rfl, dpush_full h⟩

/-- Everything `rpush` can do. -/
theorem rpush_cases (op : Opcode) (v : Word) (s : State) :
    (hasRoom s.cfg.rstackCap s.rs.length = true ∧ rpush op v s = .ok () { s with rs := v :: s.rs }) ∨
    (hasRoom s.cfg.rstackCap s.rs.length = false ∧ rpush op v s = .error (.raise (.stackOverflow .ret op)) s) := by
  cases h : hasRoom s.cfg.rstackCap s.rs.length with
  | true => exact .inl ⟨rfl, rpush_room h⟩
  | false => exact .inr ⟨rfl, rpush_full h⟩

/-- Everything `In()` can do. -/
theorem takeInput_cases (s : State) :
    (∃ b rest, s.input.pending = b :: rest ∧
      takeInput s = .ok (.byte b) { s with input := { s.input with pending := rest }, inPos := s.inPos + 1 }) ∨
    (s.input.pending = [] ∧ s.input.ended = true ∧ takeInput s = .ok .eof s) ∨
    (s.input.pending = [] ∧ s.input.ended = false ∧ takeInput s = .error .held s) := by
  cases h : s.input.pending with
  | cons b rest => exact .inl ⟨b, rest, rfl, takeInput_byte h⟩
  | nil =>
    cases he : s.input.ended with
    | true => exact .inr (.inl ⟨rfl, rfl, takeInput_eof h he⟩)
    | false => exact .inr (.inr ⟨rfl, rfl, takeInput_held h he⟩)

/-! ### What the end of a primitive says -/

/-- A pop that ends: its Word, and all it changed. -/
theorem dpop_ok {op : Opcode} {s t : State} {v : Word} (h : dpop op s = .ok v t) :
    v = s.ds.headD 0 ∧ ∃ e, t = { s with ds := s.ds.tail, diags := s.diags ++ e } ∧ (s.ds ≠ [] → e = []) := by
  rcases dpop_cases op s with ⟨w, r, hd, h'⟩ | ⟨hd, -, h'⟩ | ⟨-, -, h'⟩ <;> rw [h'] at h <;> cases h
  · exact ⟨by simp [hd], [], by simp [hd], by simp⟩
  · exact ⟨by simp [hd], [_], by simp [hd, State.deliver]; rfl, by simp [hd]⟩

/-- A pop of the return-address stack that ends: its Word, and all it changed. -/
theorem rpop_ok {op : Opcode} {s t : State} {v : Word} (h : rpop op s = .ok v t) :
    v = s.rs.headD 0 ∧ ∃ e, t = { s with rs := s.rs.tail, diags := s.diags ++ e } ∧ (s.rs ≠ [] → e = []) := by
  rcases rpop_cases op s with ⟨w, r, hd, h'⟩ | ⟨hd, -, h'⟩ | ⟨-, -, h'⟩ <;> rw [h'] at h <;> cases h
  · exact ⟨by simp [hd], [], by simp [hd], by simp⟩
  · exact ⟨by simp [hd], [_], by simp [hd, State.deliver]; rfl, by simp [hd]⟩

theorem dpush_ok {op : Opcode} {s t : State} {v : Word} {u : Unit} (h : dpush op v s = .ok u t) :
    t = { s with ds := v :: s.ds } ∧ hasRoom s.cfg.dstackCap s.ds.length = true := by
  rcases dpush_cases op v s with ⟨hr, h'⟩ | ⟨-, h'⟩ <;> rw [h'] at h <;> cases h
  exact ⟨rfl, hr⟩

theorem rpush_ok {op : Opcode} {s t : State} {v : Word} {u : Unit} (h : rpush op v s = .ok u t) :
    t = { s with rs := v :: s.rs } ∧ hasRoom s.cfg.rstackCap s.rs.length = true := by
  rcases rpush_cases op v s with ⟨hr, h'⟩ | ⟨-, h'⟩ <;> rw [h'] at h <;> cases h
  exact ⟨rfl, hr⟩

theorem boundsCheck_ok {op : Opcode} {s t : State} {a : Word} {u : Unit} (h : boundsCheck op a s = .ok u t) :
    t = s ∧ inBounds s.cfg a = true := by
  cases hb : inBounds s.cfg a with
  | true => rw [boundsCheck_in hb] at h; cases h; exact ⟨rfl, rfl⟩
  | false => rw [boundsCheck_out hb] at h; cases h

theorem operandAddress_ok {s t : State} {a : Word} (h : operandAddress s = .ok a t) :
    a = adv s.cfg s.ip ∧ t = s ∧ inBounds s.cfg a = true := by
  cases hb : inBounds s.cfg (adv s.cfg s.ip) with
  | true => rw [operandAddress_in hb] at h; cases h; exact ⟨rfl, rfl, hb⟩
  | false => rw [operandAddress_out hb] at h; cases h

/-! ### Completing a rule -/

theorem complete_of_ok {body : Exec Unit} {s t : State} (h : body s = .ok () t) : complete body s = .next t := by
  simp [complete, h]

theorem complete_of_raise {body : Exec Unit} {s t : State} {c : Cause} (h : body s = .error (.raise c) t) :
    complete body s = .next (({ s with diags := t.diags } : State).takeFault c) := by simp [complete, h]

theorem complete_of_held {body : Exec Unit} {s t : State} (h : body s = .error .held t) :
    complete body s = .fault .waitingForInput := by simp [complete, h]

/-- Everything completing a rule can answer: the rule's end, a fault taken on the state before it, or no next state. -/
theorem complete_cases (body : Exec Unit) (s : State) :
    (∃ t, body s = .ok () t ∧ complete body s = .next t) ∨
    (∃ c t, body s = .error (.raise c) t ∧ complete body s = .next (({ s with diags := t.diags } : State).takeFault c)) ∨
    (∃ t, body s = .error .held t ∧ complete body s = .fault .waitingForInput) := by
  cases h : body s with
  | ok u t => exact .inl ⟨t, rfl, complete_of_ok h⟩
  | error e t =>
    cases e with
    | raise c => exact .inr (.inl ⟨c, t, rfl, complete_of_raise h⟩)
    | held => exact .inr (.inr ⟨t, rfl, complete_of_held h⟩)

/-! ### Room and caps -/

/-- A stack within its cap has room for as many Words as were popped from it. -/
theorem hasRoom_of_within {cap : Option Nat} {n k : Nat} (h : withinCap cap n = true) (hk : k < n) :
    hasRoom cap k = true := by
  cases cap with
  | none => rfl
  | some c =>
    simp only [withinCap, hasRoom, decide_eq_true_eq] at *
    omega

/-- A push where there is room stays within the cap. -/
theorem within_of_hasRoom {cap : Option Nat} {n : Nat} (h : hasRoom cap n = true) : withinCap cap (n + 1) = true := by
  cases cap with
  | none => rfl
  | some c =>
    simp only [withinCap, hasRoom, decide_eq_true_eq] at *
    omega

/-- A shallower stack is within the cap too. -/
theorem within_mono {cap : Option Nat} {n k : Nat} (h : withinCap cap n = true) (hk : k ≤ n) : withinCap cap k = true := by
  cases cap with
  | none => rfl
  | some c =>
    simp only [withinCap, decide_eq_true_eq] at *
    omega

/-! ### Addresses -/

theorem inBounds_iff {cfg : Config} {a : Word} : inBounds cfg a = true ↔ 0 ≤ S a ∧ S a < (cfg.memWords : Int) := by
  simp [inBounds]

/-- The bounds of a legal number of memory Words. -/
theorem memWords_bounds {cfg : Config} (h : cfg.wf = true) : 1 ≤ cfg.memWords ∧ cfg.memWords ≤ 2147483647 := by
  simp only [Config.wf, Config.memWordsOk, Bool.and_eq_true, decide_eq_true_eq] at h
  exact h.1

/-- An address that passed its check indexes memory inside its bounds. -/
theorem addrIndex_lt {cfg : Config} {a : Word} (h : inBounds cfg a = true) : addrIndex a < cfg.memWords := by
  have := inBounds_iff.1 h
  simp only [addrIndex]
  omega

/-- `w32(S(a) + k)` is the Word sum. -/
theorem w32_add (a : Word) (k : Nat) : w32 (S a + k) = a + BitVec.ofNat 32 k := by
  rw [w32, S, BitVec.ofInt_add, BitVec.ofInt_toInt]
  rfl

theorem w32_succ (a : Word) : w32 (S a + 1) = a + 1 := w32_add a 1

/-- The signed value after a step forward that does not pass `2^31 - 1`. -/
theorem S_add {a : Word} {k : Nat} (h0 : 0 ≤ S a) (h : S a + k ≤ 2147483647) : S (a + BitVec.ofNat 32 k) = S a + k := by
  rw [← w32_add, w32, S, S, BitVec.toInt_ofInt]
  simp only [S] at h0 h
  exact Int.bmod_eq_of_le (by omega) (by omega)

/-- The next address, away from the end of memory, is the same under both policies. -/
theorem adv_of_lt {cfg : Config} {a : Word} (h : S a + 1 < (cfg.memWords : Int)) : adv cfg a = a + 1 := by
  unfold adv
  cases cfg.ipOverflow with
  | fault => exact w32_succ a
  | wrapToZero =>
    simp only
    rw [if_neg (by omega)]
    exact w32_succ a

/-- The next address of one in bounds is at most one past the last, and in bounds where it wraps. -/
theorem ipWithin_adv {cfg : Config} (hc : cfg.wf = true) {a : Word} (ha : inBounds cfg a = true) :
    ipWithin cfg (adv cfg a) = true := by
  have hm := memWords_bounds hc
  have hb := inBounds_iff.1 ha
  have hs : S (a + 1) = S a + 1 := S_add (k := 1) hb.1 (by omega)
  unfold adv ipWithin
  cases cfg.ipOverflow with
  | fault =>
    simp only [w32_succ, decide_eq_true_eq, hs]
    omega
  | wrapToZero =>
    simp only [w32_succ, decide_eq_true_eq]
    split
    · simp only [S, BitVec.toInt_ofNat]
      exact ⟨by decide, by simp; omega⟩
    · rw [hs]
      omega

/-- An address in bounds can stand in `ip`. -/
theorem ipWithin_of_inBounds {cfg : Config} {a : Word} (ha : inBounds cfg a = true) : ipWithin cfg a = true := by
  have := inBounds_iff.1 ha
  unfold ipWithin
  cases cfg.ipOverflow <;> simp only [decide_eq_true_eq] <;> omega

/-- Two addresses that are not negative and index the same Word are equal. -/
theorem addrIndex_inj {a b : Word} (ha : 0 ≤ S a) (hb : 0 ≤ S b) (h : addrIndex a = addrIndex b) : a = b := by
  simp only [addrIndex] at h
  exact BitVec.eq_of_toInt_eq (by simp only [S] at *; omega)

end Sys2Proof.Machine
end

