-- ==== Sys2Proof/Laws/Memory.lean ====
section
/-! SUPPORT. The laws of memory: read after write, the canonical form and the bounds are kept, and a canonical memory is
determined by what it reads as. -/

namespace Sys2Proof.Machine

namespace Memory

/-- The canonical form, cell by cell. -/
theorem wf_cons {p : Cell} {m : Memory} :
    Memory.wf (p :: m) = true ↔ (∀ q ∈ m, p.1 < q.1) ∧ p.2 ≠ 0 ∧ Memory.wf m = true := by
  simp only [Memory.wf, List.pairwise_cons, List.all_cons, Bool.and_eq_true, decide_eq_true_eq, bne_iff_ne]
  tauto

@[simp] theorem wf_nil : Memory.wf [] = true := by simp [Memory.wf]

@[simp] theorem read_nil (n : Nat) : Memory.read [] n = 0 := rfl

/-- An address below every listed one reads as `NOP`. -/
theorem read_below {m : Memory} {n : Nat} (h : ∀ q ∈ m, n < q.1) : m.read n = 0 := by
  induction m with
  | nil => rfl
  | cons p m ih =>
    have hp := h p (by simp)
    simp only [Memory.read]
    rw [if_neg (by omega)]
    exact ih (fun q hq => h q (by simp [hq]))

/-- Every listed address of a written memory is the written one or was listed. -/
theorem mem_write {m : Memory} {n : Nat} {v : Word} {q : Cell} (h : q ∈ m.write n v) : q = (n, v) ∨ q ∈ m := by
  induction m with
  | nil =>
    simp only [Memory.write] at h
    split at h <;> simp_all
  | cons p m ih =>
    obtain ⟨b, u⟩ := p
    simp only [Memory.write] at h
    split at h
    · split at h <;> simp_all
    · split at h
      · split at h
        · exact .inr (by simp [h])
        · simp only [List.mem_cons] at h
          rcases h with h | h
          · exact .inl h
          · exact .inr (by simp [h])
      · simp only [List.mem_cons] at h
        rcases h with h | h
        · exact .inr (by simp [h])
        · rcases ih h with h | h
          · exact .inl h
          · exact .inr (by simp [h])

/-- A write keeps the canonical form. -/
theorem write_wf {m : Memory} (h : m.wf = true) (n : Nat) (v : Word) : (m.write n v).wf = true := by
  induction m with
  | nil =>
    simp only [Memory.write]
    split <;> simp_all [wf_cons]
  | cons p m ih =>
    obtain ⟨b, u⟩ := p
    obtain ⟨hb, hu, hm⟩ := wf_cons.1 h
    simp only [Memory.write]
    split
    · split
      · exact h
      · refine wf_cons.2 ⟨?_, by assumption, h⟩
        intro q hq
        simp only [List.mem_cons] at hq
        rcases hq with rfl | hq
        · assumption
        · have := hb q hq
          simp only at this ⊢
          omega
    · split
      · split
        · exact hm
        · subst_vars
          exact wf_cons.2 ⟨hb, by assumption, hm⟩
      · refine wf_cons.2 ⟨?_, hu, ih hm⟩
        intro q hq
        rcases mem_write hq with rfl | hq
        · simp only
          omega
        · exact hb q hq

/-- Read after write, at the address written and at every other. -/
theorem read_write {m : Memory} (h : m.wf = true) (n k : Nat) (v : Word) :
    (m.write n v).read k = if k = n then v else m.read k := by
  induction m with
  | nil =>
    simp only [Memory.write]
    split
    · split <;> simp_all
    · simp only [Memory.read]
      split <;> split <;> simp_all
  | cons p m ih =>
    obtain ⟨b, u⟩ := p
    obtain ⟨hb, hu, hm⟩ := wf_cons.1 h
    simp only [Memory.write]
    split
    · have low : n < b := by assumption
      split
      · subst_vars
        split
        · subst_vars
          exact read_below (fun q hq => by
            simp only [List.mem_cons] at hq
            rcases hq with rfl | hq
            · exact low
            · have := hb q hq
              simp only at this
              omega)
        · rfl
      · simp only [Memory.read]
        by_cases hk : k = n
        · subst hk; simp
        · rw [if_neg (by omega), if_neg hk]
    · split
      · subst_vars
        split
        · subst_vars
          by_cases hk : k = b
          · subst hk
            simp only [if_pos]
            exact read_below hb
          · simp [Memory.read, hk, Ne.symm hk]
        · simp only [Memory.read]
          by_cases hk : k = b
          · subst hk; simp
          · simp [hk, Ne.symm hk]
      · simp only [Memory.read]
        by_cases hk : b = k
        · subst hk
          rw [if_pos rfl, if_pos rfl, if_neg (by omega)]
        · rw [if_neg hk, if_neg hk, ih hm]

/-- A write keeps memory inside its bounds. -/
theorem write_within {cfg : Config} {m : Memory} (h : memWithin cfg m = true) {n : Nat} (hn : n < cfg.memWords) (v : Word) :
    memWithin cfg (m.write n v) = true := by
  simp only [memWithin, List.all_eq_true, decide_eq_true_eq] at h ⊢
  intro q hq
  rcases mem_write hq with rfl | hq
  · exact hn
  · exact h q hq

/-- An image load keeps the canonical form. -/
theorem fill_wf {m : Memory} (h : m.wf = true) (n : Nat) (ws : List Word) : (m.fill n ws).wf = true := by
  induction ws generalizing m n with
  | nil => exact h
  | cons w ws ih => exact ih (write_wf h _ _) _

/-- An image that fits leaves memory within its bounds. -/
theorem fill_within {cfg : Config} {m : Memory} (h : memWithin cfg m = true) {n : Nat} {ws : List Word}
    (hn : n + ws.length ≤ cfg.memWords) : memWithin cfg (m.fill n ws) = true := by
  induction ws generalizing m n with
  | nil => exact h
  | cons w ws ih =>
    simp only [List.length_cons] at hn
    exact ih (write_within h (by omega) _) (by omega)

/-- A listed cell of a canonical memory is what its address reads as. -/
theorem read_of_mem {m : Memory} (h : m.wf = true) {q : Cell} (hq : q ∈ m) : m.read q.1 = q.2 := by
  induction m with
  | nil => simp at hq
  | cons p m ih =>
    obtain ⟨b, u⟩ := p
    obtain ⟨hb, hu, hm⟩ := wf_cons.1 h
    simp only [List.mem_cons] at hq
    rcases hq with rfl | hq
    · simp [Memory.read]
    · have := hb q hq
      simp only [Memory.read]
      simp only at this
      rw [if_neg (by omega)]
      exact ih hm hq

/-- An address that does not read as `NOP` is listed. -/
theorem mem_of_read {m : Memory} {n : Nat} (h : m.read n ≠ 0) : (n, m.read n) ∈ m := by
  induction m with
  | nil => simp at h
  | cons p m ih =>
    obtain ⟨b, u⟩ := p
    simp only [Memory.read] at h ⊢
    split at h
    · subst_vars; simp
    · rw [if_neg (by assumption)]
      exact List.mem_cons_of_mem _ (ih h)

/-- Canonical memories that read alike are equal. -/
theorem ext {m m' : Memory} (h : m.wf = true) (h' : m'.wf = true) (hr : ∀ n, m.read n = m'.read n) : m = m' := by
  induction m generalizing m' with
  | nil =>
    cases m' with
    | nil => rfl
    | cons q m' =>
      obtain ⟨-, hv, -⟩ := wf_cons.1 h'
      have := hr q.1
      simp [Memory.read] at this
      exact absurd this.symm hv
  | cons p m ih =>
    obtain ⟨b, u⟩ := p
    obtain ⟨hb, hu, hm⟩ := wf_cons.1 h
    cases m' with
    | nil =>
      have := hr b
      simp [Memory.read] at this
      exact absurd this hu
    | cons q m' =>
      obtain ⟨b', u'⟩ := q
      obtain ⟨hb', hu', hm'⟩ := wf_cons.1 h'
      have key : b = b' := by
        by_contra hne
        rcases Nat.lt_or_gt_of_ne hne with hlt | hlt
        · have := hr b
          rw [read_of_mem h (q := (b, u)) (by simp), read_below (m := (b', u') :: m')] at this
          · exact hu this
          · intro q hq
            simp only [List.mem_cons] at hq
            rcases hq with rfl | hq
            · exact hlt
            · have := hb' q hq
              simp only at this
              omega
        · have := hr b'
          rw [read_of_mem h' (q := (b', u')) (by simp), read_below (m := (b, u) :: m)] at this
          · exact hu' this.symm
          · intro q hq
            simp only [List.mem_cons] at hq
            rcases hq with rfl | hq
            · exact hlt
            · have := hb q hq
              simp only at this
              omega
      subst key
      have hu2 : u = u' := by simpa [Memory.read] using hr b
      subst hu2
      congr 1
      refine ih hm hm' (fun n => ?_)
      by_cases hn : b = n
      · subst hn
        rw [read_below hb, read_below hb']
      · simpa [Memory.read, hn] using hr n

end Memory

end Sys2Proof.Machine
end

