-- ==== Sys2Proof/Laws/Assembler.lean ====
section
/-! SUPPORT. What the tokenizer, the emission of one token, the scan and the patch pass do: the frame of the compile phase, the
property that holds between tokens, and what a scan and a patch pass leave. -/

namespace Sys2Proof.Machine

/-! ### The tokenizer -/

theorem drop_takeWhile (p : Byte → Bool) (l : List Byte) : l.drop (l.takeWhile p).length = l.dropWhile p := by
  induction l with
  | nil => rfl
  | cons a l ih => simp only [List.takeWhile_cons, List.dropWhile_cons]; split <;> simp_all

theorem take_takeWhile (p : Byte → Bool) (l : List Byte) : l.take (l.takeWhile p).length = l.takeWhile p := by
  induction l with
  | nil => rfl
  | cons a l ih => simp only [List.takeWhile_cons]; split <;> simp_all

/-- The three things `next_token` answers, without the byte counts. -/
theorem nextToken_eq (src : Source) :
    (nextToken src).1 = (src.rest.dropWhile isWhitespace).takeWhile (fun b => !isWhitespace b) ∧
    (nextToken src).2.rest = (src.rest.dropWhile isWhitespace).dropWhile (fun b => !isWhitespace b) ∧
    (nextToken src).2.line = src.line + lineFeeds (src.rest.takeWhile isWhitespace) +
      lineFeeds ((src.rest.dropWhile isWhitespace).takeWhile (fun b => !isWhitespace b)) := by
  simp only [nextToken, Source.consume, drop_takeWhile, take_takeWhile]
  simp

/-- A token is consumed from what is left. -/
theorem nextToken_length (src : Source) :
    (nextToken src).1.length + (nextToken src).2.rest.length ≤ src.rest.length := by
  obtain ⟨h1, h2, -⟩ := nextToken_eq src
  rw [h1, h2, ← List.length_append, List.takeWhile_append_dropWhile]
  exact (List.dropWhile_suffix _).length_le

theorem skipLine_length (src : Source) : (skipLine src).rest.length ≤ src.rest.length := by
  simp [skipLine, Source.consume]

/-! ### One relation along every action of the assembler -/

/-- Wherever the action leads, to its end or to an error, `R` relates the state before it to the state there. -/
def AsmMoves (R : State → State → Prop) {α : Type} (x : Asm α) : Prop :=
  ∀ s, (∀ a t, x s = .ok a t → R s t) ∧ (∀ e t, x s = .error e t → R s t)

theorem AsmMoves.bind {R : State → State → Prop} (trans : ∀ s t u, R s t → R t u → R s u) {α β : Type} {x : Asm α}
    {f : α → Asm β} (hx : AsmMoves R x) (hf : ∀ a, AsmMoves R (f a)) : AsmMoves R (x >>= f) := by
  intro s
  constructor
  · intro b u h
    obtain ⟨a, t, h1, h2⟩ := bind_ok_iff.1 h
    exact trans _ _ _ ((hx s).1 a t h1) ((hf a t).1 b u h2)
  · intro e u h
    rcases bind_error_iff.1 h with h | ⟨a, t, h1, h2⟩
    · exact (hx s).2 e u h
    · exact trans _ _ _ ((hx s).1 a t h1) ((hf a t).2 e u h2)

theorem AsmMoves.ite {R : State → State → Prop} {α : Type} {c : Prop} [Decidable c] {x y : Asm α} (hx : AsmMoves R x)
    (hy : AsmMoves R y) : AsmMoves R (if c then x else y) := by
  split <;> assumption

/-- A relation holds along the emission of every token when it holds of the three primitives that change the state. -/
theorem emitToken_moves {R : State → State → Prop} (refl : ∀ s, R s s) (trans : ∀ s t u, R s t → R t u → R s u)
    (emit : ∀ w, AsmMoves R (emit w)) (forward : ∀ n, AsmMoves R (recordForward n)) (label : ∀ n, AsmMoves R (recordLabel n))
    (t : Token) (c : TokenClass) : AsmMoves R (emitToken t c) := by
  have still : ∀ {α : Type} {x : Asm α} {g : State → α}, (∀ s, x s = .ok (g s) s) → AsmMoves R x := by
    intro α x g h s
    rw [h s]
    exact ⟨fun _ _ e => by cases e; exact refl s, fun _ _ e => by cases e⟩
  have err : ∀ {α : Type} (e : AsmError), AsmMoves R (asmError e : Asm α) := by
    intro α e s
    exact ⟨fun _ _ h => (by cases h), fun _ _ h => by cases h; exact refl s⟩
  have seq : ∀ {α β : Type} {x : Asm α} {f : α → Asm β}, AsmMoves R x → (∀ a, AsmMoves R (f a)) → AsmMoves R (x >>= f) :=
    fun hx hf => AsmMoves.bind trans hx hf
  have op : ∀ o, AsmMoves R (emitOp o) := fun o s => emit _ s
  have wp : AsmMoves R writePosition := still (fun _ => rfl)
  have get' : AsmMoves R (get : Asm State) := still (fun _ => rfl)
  have push : ∀ w, AsmMoves R (emitPush w) := fun w => seq (op _) fun _ => emit _
  have halt : AsmMoves R emitHalt := seq wp fun _ => seq (op _) fun _ => seq (emit _) fun _ => op _
  cases c with
  | literal c =>
    cases c with
    | labelRef n =>
      refine AsmMoves.ite (err _) (seq (op _) fun _ => seq get' fun s => ?_)
      split
      · exact emit _
      · exact seq (forward _) fun _ => emit _
    | numeric n => exact AsmMoves.ite (err _) (push _)
    | character c => exact push _
    | unknownEscape => exact err _
    | bareWord =>
      exact seq (op _) fun _ => seq wp fun _ => seq (emit _) fun _ => seq (op _) fun _ => seq (forward _) fun _ =>
        seq (emit _) fun _ => op _
  | endOfStream => exact halt
  | haltKeyword => exact halt
  | comment => exact still (fun _ => rfl)
  | labelDef n => exact AsmMoves.ite (err _) (label _)
  | opcode o => exact op o

/-! ### What no action of the assembler changes -/

/-- The two states differ in memory, the write position and the two tables only. -/
def SameEngine (s t : State) : Prop :=
  t = { s with mem := t.mem, wp := t.wp, labels := t.labels, fwd := t.fwd }

theorem SameEngine.refl (s : State) : SameEngine s s := rfl
theorem SameEngine.trans {s t u : State} (h : SameEngine s t) (h' : SameEngine t u) : SameEngine s u := by
  unfold SameEngine at *; rw [h'] ; simp only; rw [h]

theorem leaves_emit (w : Word) : AsmMoves SameEngine (emit w) := by
  intro s; unfold emit; split <;> constructor <;> intros <;> rename_i h <;> cases h <;> rfl

/-- One token leaves the engine alone. -/
theorem leaves_tok (t : Token) (c : TokenClass) : AsmMoves SameEngine (emitToken t c) :=
  emitToken_moves SameEngine.refl (fun _ _ _ => SameEngine.trans) leaves_emit
    (fun _ s => ⟨fun _ _ h => by cases h; rfl, fun _ _ h => by cases h⟩)
    (fun _ s => ⟨fun _ _ h => by cases h; rfl, fun _ _ h => by cases h⟩) t c

/-- A scan leaves the engine alone. -/
theorem scan_same : ∀ fuel src s, (∀ l t, scan fuel src s = .ok (l, t) → SameEngine s t) ∧ 
   (∀ t, scan fuel src s = .error t → { t with mem := s.mem, wp := s.wp, labels := s.labels, fwd := s.fwd, asmDiag := s.asmDiag, diags := s.diags } = s) := by
  intro fuel
  induction fuel with
  | zero => intro src s; constructor <;> intros <;> rename_i h <;> cases h; rfl
  | succ n ih =>
    intro src s
    simp only [scan]
    cases he : emitToken (nextToken src).1 (classify (nextToken src).1) s with
    | error e s1 =>
      have h1 := (leaves_tok _ _ s).2 e s1 he
      constructor <;> intros <;> rename_i h <;> cases h
      rw [SameEngine] at h1; rw [h1]; rfl
    | ok a s1 =>
      have h1 := (leaves_tok _ _ s).1 a s1 he
      have step : ∀ src', (∀ l t, scan n src' s1 = .ok (l, t) → SameEngine s t) ∧ 
   (∀ t, scan n src' s1 = .error t → { t with mem := s.mem, wp := s.wp, labels := s.labels, fwd := s.fwd, asmDiag := s.asmDiag, diags := s.diags } = s) := by
        intro src'
        refine ⟨fun l t h => h1.trans ((ih src' s1).1 l t h), fun t h => ?_⟩
        have := (ih src' s1).2 t h
        rw [SameEngine] at h1
        rw [h1] at this
        have h2 := congrArg
            (fun u : State => { u with mem := s.mem, wp := s.wp, labels := s.labels, fwd := s.fwd, asmDiag := s.asmDiag, diags := s.diags }) this
        exact h2
      simp only
      split
      · constructor <;> intros <;> rename_i h <;> cases h; exact h1
      · exact step _
      · exact step _

/-- The patch pass changes memory and the reports only. -/
theorem patch_same (line : Nat) (l) (s : State) :
    { patchPass line l s with mem := s.mem, asmDiag := s.asmDiag, diags := s.diags } = s := by
  induction l generalizing s with
  | nil => rfl
  | cons e l ih =>
    have := ih (patchEntry line s e)
    simp only [patchPass, List.foldl_cons] at this ⊢
    have h2 := congrArg (fun u : State => { u with mem := s.mem, asmDiag := s.asmDiag, diags := s.diags }) this
    simp only at h2
    rw [h2]
    unfold patchEntry; split <;> rfl

/-! ### Emission -/

theorem emit_room {w : Word} {s : State} (h : S s.wp < (s.cfg.memWords : Int)) :
    emit w s = .ok () { s with mem := s.mem.write (addrIndex s.wp) w, wp := s.wp + 1 } := by
  simp only [emit, State.memWrite, w32_succ]
  rw [if_neg (by omega)]
theorem emit_full {w : Word} {s : State} (h : (s.cfg.memWords : Int) ≤ S s.wp) :
    emit w s = .error (.imageTooLarge s.wp) s := by
  simp only [emit]
  rw [if_pos (by omega)]

/-! ### What holds between tokens -/

/-- What holds of the state between two tokens (rule R193, for the scan). -/
structure AsmGood (s : State) : Prop where
  cwf : s.cfg.wf = true
  wf : s.mem.wf = true
  within : memWithin s.cfg s.mem = true
  wp0 : 0 ≤ S s.wp
  wpM : S s.wp ≤ (s.cfg.memWords : Int)
  blank : ∀ n, addrIndex s.wp ≤ n → s.mem.read n = 0
  ord : s.fwd.Pairwise (fun e f => S e.2 < S f.2)
  fin : ∀ e ∈ s.fwd, 1 ≤ S e.2 ∧ S e.2 < S s.wp ∧ s.mem.read (addrIndex e.2 - 1) = s.cfg.opnum.num .push
  gap : ∀ e ∈ s.fwd, ∀ f ∈ s.fwd, addrIndex f.2 ≠ addrIndex e.2 - 1
  lab : ∀ e ∈ s.labels, e.1 ≠ here ∧ upper e.1 = e.1 ∧ 0 ≤ S e.2 ∧ S e.2 ≤ S s.wp
  labOrd : s.labels.Pairwise (fun e f => S e.2 ≤ S f.2)
  diag : s.asmDiag = []

/-- What holds wherever the scan stops. -/
structure AsmTables (s : State) : Prop where
  ord : s.fwd.Pairwise (fun e f => S e.2 < S f.2)
  lab : ∀ e ∈ s.labels, e.1 ≠ here ∧ upper e.1 = e.1
  labOrd : s.labels.Pairwise (fun e f => S e.2 ≤ S f.2)
  diag : s.asmDiag = []

theorem AsmGood.tables {s} (h : AsmGood s) : AsmTables s :=
    ⟨h.ord, fun e he => ⟨(h.lab e he).1, (h.lab e he).2.1⟩, h.labOrd, h.diag⟩

theorem wp_succ {s : State} (h : AsmGood s) (hr : S s.wp < (s.cfg.memWords : Int)) : S (s.wp + 1) = S s.wp + 1 := by
  have := memWords_bounds h.cwf
  exact S_add (k := 1) h.wp0 (by omega)

theorem AsmGood.emit {s : State} (h : AsmGood s) (w : Word) (hr : S s.wp < (s.cfg.memWords : Int)) :
    AsmGood { s with mem := s.mem.write (addrIndex s.wp) w, wp := s.wp + 1 } := by
  have h1 := wp_succ h hr
  have h2 := h.wp0
  have hi : addrIndex s.wp < s.cfg.memWords := by simp only [addrIndex]; omega
  have h3 : addrIndex (s.wp + 1) = addrIndex s.wp + 1 := by simp only [addrIndex, h1]; omega
  refine ⟨h.cwf, Memory.write_wf h.wf _ _, Memory.write_within h.within hi _, by simp only [h1]; omega,
      by simp only [h1]; omega, ?_, h.ord, ?_, h.gap, ?_, h.labOrd, h.diag⟩
  · intro n hn
    simp only [h3] at hn
    simp only [Memory.read_write h.wf]
    rw [if_neg (by omega)]
    exact h.blank n (by omega)
  · intro e he
    obtain ⟨a, b, c⟩ := h.fin e he
    refine ⟨a, by simp only [h1]; omega, ?_⟩
    simp only [Memory.read_write h.wf]
    rw [if_neg (by simp only [addrIndex]; omega)]
    exact c
  · intro e he
    obtain ⟨a, b, c, d⟩ := h.lab e he
    exact ⟨a, b, c, by simp only [h1]; omega⟩

/-- From `s0` the Words `ws`, newest first, were emitted and nothing else was done. -/
structure Emitted (s0 : State) (ws : List Word) (s : State) : Prop where
  good : AsmGood s
  same : s = { s0 with mem := s.mem, wp := s.wp }
  wp : S s.wp = S s0.wp + ws.length
  last : ∀ k, k < ws.length → s.mem.read (addrIndex s.wp - 1 - k) = ws.getD k 0

theorem emit_emitted {s0 s : State} {ws : List Word} {w : Word} (h : Emitted s0 ws s) (g0 : AsmGood s0) :
    (∀ a t, emit w s = .ok a t → Emitted s0 (w :: ws) t) ∧ (∀ e t, emit w s = .error e t → t = s) := by
  rcases Int.lt_or_le (S s.wp) (s.cfg.memWords : Int) with hr | hr
  · rw [emit_room hr]
    constructor <;> intro _ t ht <;> cases ht
    have h1 := wp_succ h.good hr
    have hw := h.good.wp0
    have h3 : addrIndex (s.wp + 1) = addrIndex s.wp + 1 := by simp only [addrIndex, h1]; omega
    have g00 := g0.wp0
    have hl := h.wp
    refine ⟨h.good.emit w hr, ?_, ?_, ?_⟩
    · have := h.same; rw [this]
    · simp only [h1, h.wp, List.length_cons]; omega
    · intro k hk
      simp only [h3, Memory.read_write h.good.wf]
      cases k with
      | zero => simp
      | succ k =>
        have : k < ws.length := by simpa using hk
        rw [if_neg (by simp only [addrIndex]; omega)]
        have := h.last k this
        rw [← show addrIndex s.wp - 1 - k = addrIndex s.wp + 1 - 1 - (k+1) by omega, this]
        simp
  · rw [emit_full hr]
    constructor <;> intro _ t ht <;> cases ht; rfl

theorem Emitted.refl {s : State} (h : AsmGood s) : Emitted s [] s := ⟨h, rfl, by simp, by simp⟩

theorem emitHalt_spec {s : State} (h : AsmGood s) : 
    (∀ a t, emitHalt s = .ok a t → Emitted s [s.cfg.opnum.num .jmp, s.wp + 2, s.cfg.opnum.num .push] t) ∧
        (∀ e t, emitHalt s = .error e t → AsmGood t) := by
  have e0 := Emitted.refl h
  constructor
  · intro a t ht
    simp only [emitHalt, bind_ok_iff] at ht
    obtain ⟨p, t1, h1, _, t2, h2, _, t3, h3, h4⟩ := ht
    cases h1
    have e1 := (emit_emitted e0 h).1 _ _ h2
    have e2 := (emit_emitted e1 h).1 _ _ h3
    have e3 := (emit_emitted e2 h).1 _ _ h4
    have c : t3.cfg = s.cfg := by rw [e2.same]
    rw [c] at e3
    rwa [show w32 (S s.wp + 2) = s.wp + 2 from w32_add _ 2] at e3
  · intro e t ht
    simp only [emitHalt, bind_error_iff] at ht
    rcases ht with ht | ⟨p, t1, h1, ht | ⟨_, t2, h2, ht | ⟨_, t3, h3, h4⟩⟩⟩
    · cases ht
    · cases h1; have := (emit_emitted e0 h).2 _ _ ht; rw [this]; exact h
    · cases h1
      have e1 := (emit_emitted e0 h).1 _ _ h2
      rw [(emit_emitted e1 h).2 _ _ ht]; exact e1.good
    · cases h1
      have e1 := (emit_emitted e0 h).1 _ _ h2
      have e2 := (emit_emitted e1 h).1 _ _ h3
      rw [(emit_emitted e2 h).2 _ _ h4]; exact e2.good

theorem emitPush_spec {s : State} (h : AsmGood s) (w : Word) : 
    (∀ a t, emitPush w s = .ok a t → AsmGood t) ∧ (∀ e t, emitPush w s = .error e t → AsmGood t) := by
  have e0 := Emitted.refl h
  constructor
  · intro a t ht
    simp only [emitPush, bind_ok_iff] at ht
    obtain ⟨_, t2, h2, h3⟩ := ht
    have e1 := (emit_emitted e0 h).1 _ _ h2
    exact ((emit_emitted e1 h).1 _ _ h3).good
  · intro e t ht
    simp only [emitPush, bind_error_iff] at ht
    rcases ht with ht | ⟨_, t2, h2, ht⟩
    · rw [(emit_emitted e0 h).2 _ _ ht]; exact h
    · have e1 := (emit_emitted e0 h).1 _ _ h2
      rw [(emit_emitted e1 h).2 _ _ ht]; exact e1.good

/-- A forward reference recorded and its placeholder emitted, right after a `PUSH` opcode Word. -/
theorem forward_spec {s0 s : State} {ws : List Word} (g0 : AsmGood s0) (h : Emitted s0 (s0.cfg.opnum.num .push :: ws) s)
    (name : Token) (w : Word) :
    (∀ a t, (recordForward name >>= fun _ => emit w) s = .ok a t → AsmGood t) ∧
    (∀ e t, (recordForward name >>= fun _ => emit w) s = .error e t → AsmTables t) := by
  have hw := h.wp
  have g00 := g0.wp0
  simp only [List.length_cons] at hw
  have hf : s.fwd = s0.fwd := by rw [h.same]
  have hc : s.cfg = s0.cfg := by rw [h.same]
  have ord : (s.fwd ++ [(name, s.wp)]).Pairwise (fun e f => S e.2 < S f.2) := by
    rw [List.pairwise_append]
    refine ⟨h.good.ord, by simp, ?_⟩
    intro e he f hf
    simp only [List.mem_singleton] at hf
    subst hf
    exact (h.good.fin e he).2.1
  simp only [bind_eq, recordForward]
  rcases Int.lt_or_le (S s.wp) (s.cfg.memWords : Int) with hr | hr
  · rw [emit_room (by exact hr)]
    constructor <;> intro _ t ht <;> cases ht
    have g := h.good.emit w hr
    have h1 := wp_succ h.good hr
    have hw0 := h.good.wp0
    refine ⟨g.cwf, g.wf, g.within, g.wp0, g.wpM, g.blank, ord, ?_, ?_, g.lab, g.labOrd, g.diag⟩
    · intro e he
      simp only [List.mem_append, List.mem_singleton] at he
      rcases he with he | rfl
      · exact g.fin e he
      · refine ⟨by simp only; omega, by simp only [h1]; omega, ?_⟩
        simp only [Memory.read_write h.good.wf]
        rw [if_neg (by simp only [addrIndex]; omega)]
        have := h.last 0 (by simp)
        simpa [hc] using this
    · intro e he f hf'
      simp only [List.mem_append, List.mem_singleton] at he hf'
      rcases he with he | rfl <;> rcases hf' with hf' | rfl
      · exact h.good.gap e he f hf'
      · have := h.good.fin e he
        simp only [addrIndex]; omega
      · rw [hf] at hf'
        have := g0.fin f hf'
        simp only [addrIndex]; omega
      · simp only [addrIndex]; omega
  · rw [emit_full (by exact hr)]
    constructor <;> intro _ t ht <;> cases ht
    exact ⟨ord, h.good.tables.lab, h.good.labOrd, h.good.diag⟩

theorem emitRef_spec {s : State} (h : AsmGood s) (name : Token) :
    (∀ a t, emitLabelRef name s = .ok a t → AsmGood t) ∧ (∀ e t, emitLabelRef name s = .error e t → AsmTables t) := by
  have e0 := Emitted.refl h
  simp only [emitLabelRef]
  split
  · constructor <;> intro _ t ht <;> cases ht; exact h.tables
  · have key : ∀ t2, Emitted s [s.cfg.opnum.num .push] t2 → 
      (∀ a t, ((match lookup t2 name with | some a => emit a | none => recordForward name >>= fun _ => emit placeholder) : Asm Unit) t2 = .ok a t → AsmGood t) ∧
      (∀ e t, ((match lookup t2 name with | some a => emit a | none => recordForward name >>= fun _ => emit placeholder) : Asm Unit) t2 = .error e t → AsmTables t) := by
      intro t2 e1
      cases lookup t2 name with
      | some a => 
        exact ⟨fun _ t ht => ((emit_emitted e1 h).1 _ _ ht).good, fun _ t ht => by rw [(emit_emitted e1 h).2 _ _ ht]; exact e1.good.tables⟩
      | none => exact forward_spec h e1 name placeholder
    constructor
    · intro a t ht
      simp only [bind_ok_iff] at ht
      obtain ⟨_, t2, h2, st, t3, h3, h4⟩ := ht
      cases h3
      have e1 := (emit_emitted e0 h).1 _ _ h2
      exact (key _ e1).1 a t h4
    · intro e t ht
      simp only [bind_error_iff] at ht
      rcases ht with ht | ⟨_, t2, h2, ht | ⟨st, t3, h3, h4⟩⟩
      · rw [(emit_emitted e0 h).2 _ _ ht]; exact h.tables
      · cases ht
      · cases h3
        have e1 := (emit_emitted e0 h).1 _ _ h2
        exact (key _ e1).2 e t h4

theorem emitCall_spec {s : State} (h : AsmGood s) (name : Token) :
    (∀ a t, emitCall name s = .ok a t → AsmGood t) ∧ (∀ e t, emitCall name s = .error e t → AsmTables t) := by
  have e0 := Emitted.refl h
  have key : ∀ t2, (∃ ws, Emitted s (s.cfg.opnum.num .push :: ws) t2) → 
     (∀ a t, (recordForward name >>= fun _ => emit placeholder >>= fun _ => emitOp .jmp) t2 = .ok a t → AsmGood t) ∧
     (∀ e t, (recordForward name >>= fun _ => emit placeholder >>= fun _ => emitOp .jmp) t2 = .error e t → AsmTables t) := by
    rintro t2 ⟨ws, e1⟩
    have f := forward_spec h e1 name placeholder
    have assoc :
        (recordForward name >>= fun _ => emit placeholder >>= fun _ => emitOp .jmp) = ((recordForward name >>= fun _ => emit placeholder) >>= fun _ => emitOp .jmp) := by
      funext s; simp only [bind_eq, recordForward]
    rw [assoc]
    constructor
    · intro a t ht
      rw [bind_ok_iff] at ht
      obtain ⟨_, t3, h3, h4⟩ := ht
      have g := f.1 _ _ h3
      exact ((emit_emitted (Emitted.refl g) g).1 _ _ h4).good
    · intro e t ht
      rw [bind_error_iff] at ht
      rcases ht with ht | ⟨_, t3, h3, h4⟩
      · exact f.2 _ _ ht
      · have g := f.1 _ _ h3
        rw [(emit_emitted (Emitted.refl g) g).2 _ _ h4]; exact g.tables
  simp only [emitCall]
  constructor
  · intro a t ht
    rw [bind_ok_iff] at ht
    obtain ⟨_, t1, h1, ht⟩ := ht
    rw [bind_ok_iff] at ht
    obtain ⟨_, t2, h2, ht⟩ := ht
    cases h2
    rw [bind_ok_iff] at ht
    obtain ⟨_, t3, h3, ht⟩ := ht
    rw [bind_ok_iff] at ht
    obtain ⟨_, t4, h4, ht⟩ := ht
    have e1 := (emit_emitted e0 h).1 _ _ h1
    have e2 := (emit_emitted e1 h).1 _ _ h3
    have e3 := (emit_emitted e2 h).1 _ _ h4
    have c : t3.cfg = s.cfg := by rw [e2.same]
    rw [c] at e3
    exact (key t4 ⟨_, e3⟩).1 a t ht
  · intro e t ht
    rw [bind_error_iff] at ht
    rcases ht with ht | ⟨_, t1, h1, ht⟩
    · rw [(emit_emitted e0 h).2 _ _ ht]; exact h.tables
    have e1 := (emit_emitted e0 h).1 _ _ h1
    rw [bind_error_iff] at ht
    rcases ht with ht | ⟨_, t2, h2, ht⟩
    · cases ht
    cases h2
    rw [bind_error_iff] at ht
    rcases ht with ht | ⟨_, t3, h3, ht⟩
    · rw [(emit_emitted e1 h).2 _ _ ht]; exact e1.good.tables
    have e2 := (emit_emitted e1 h).1 _ _ h3
    rw [bind_error_iff] at ht
    rcases ht with ht | ⟨_, t4, h4, ht⟩
    · rw [(emit_emitted e2 h).2 _ _ ht]; exact e2.good.tables
    have e3 := (emit_emitted e2 h).1 _ _ h4
    have c : t3.cfg = s.cfg := by rw [e2.same]
    rw [c] at e3
    exact (key t4 ⟨_, e3⟩).2 e t ht

theorem upperByte_idem (b : Byte) : upperByte (upperByte b) = upperByte b := by revert b; decide
theorem upper_idem (t : Token) : upper (upper t) = upper t := by
  simp [upper, Function.comp_def, upperByte_idem]

/-- What one token does to a good state. -/
theorem emitToken_spec {s : State} (h : AsmGood s) (tok : Token) (c : TokenClass) :
    (∀ a t, emitToken tok c s = .ok a t → AsmGood t) ∧ (∀ e t, emitToken tok c s = .error e t → AsmTables t) := by
  have halt : (∀ a t, emitHalt s = .ok a t → AsmGood t) ∧ (∀ e t, emitHalt s = .error e t → AsmTables t) :=
    ⟨fun a t ht => ((emitHalt_spec h).1 a t ht).good, fun e t ht => ((emitHalt_spec h).2 e t ht).tables⟩
  have push : ∀ w, (∀ a t, emitPush w s = .ok a t → AsmGood t) ∧
      (∀ e t, emitPush w s = .error e t → AsmTables t) := fun w =>
    ⟨fun a t ht => ((emitPush_spec h w).1 a t ht), fun e t ht => ((emitPush_spec h w).2 e t ht).tables⟩
  have err : ∀ er : AsmError, (∀ a t, (asmError er : Asm Unit) s = .ok a t → AsmGood t) ∧
      (∀ e t, (asmError er : Asm Unit) s = .error e t → AsmTables t) := by
    intro er; constructor <;> intro _ t ht <;> cases ht; exact h.tables
  cases c with
  | literal c =>
    cases c with
    | labelRef n => exact emitRef_spec h n
    | numeric n => simp only [emitToken, emitNumeric]; split; exact err _; exact push _
    | character c => exact push _
    | unknownEscape => exact err _
    | bareWord => exact emitCall_spec h _
  | endOfStream => exact halt
  | haltKeyword => exact halt
  | comment => constructor <;> intro _ t ht <;> cases ht; exact h
  | labelDef n =>
    simp only [emitToken, defineLabel]; split
    · exact err _
    · rename_i hn
      constructor <;> intro _ t ht <;> cases ht
      refine ⟨h.cwf, h.wf, h.within, h.wp0, h.wpM, h.blank, h.ord, h.fin, h.gap, ?_, ?_, h.diag⟩
      · intro e he
        simp only [List.mem_append, List.mem_singleton] at he
        rcases he with he | rfl
        · exact h.lab e he
        · exact ⟨hn, upper_idem _, h.wp0, Int.le_refl _⟩
      · rw [List.pairwise_append]
        refine ⟨h.labOrd, by simp, fun e he f hf => ?_⟩
        simp only [List.mem_singleton] at hf
        subst hf
        exact (h.lab e he).2.2.2
  | opcode op =>
    exact ⟨fun a t ht => ((emit_emitted (Emitted.refl h) h).1 _ _ ht).good, fun e t ht => by
      rw [(emit_emitted (Emitted.refl h) h).2 _ _ ht]; exact h.tables⟩

theorem classify_eos {t : Token} : classify t = .endOfStream ↔ t = [] := by
  constructor
  · intro h
    by_contra hn
    unfold classify at h
    rw [if_neg hn] at h
    split at h; cases h
    split at h; cases h
    split at h; cases h
    split at h <;> cases h
  · rintro rfl; rfl

/-! ### The scan, token by token -/

theorem afterToken_eq {src : Source} (h : classify (tokenAt src) ≠ .comment) : afterToken src = (nextToken src).2 := by
  unfold afterToken; split
  · contradiction
  · rfl

theorem afterToken_comment {src : Source} (h : classify (tokenAt src) = .comment) :
    afterToken src = skipLine (nextToken src).2 := by simp [afterToken, h]

/-- A token that is not empty consumes a byte. -/
theorem afterToken_length {src : Source} (h : tokenAt src ≠ []) : (afterToken src).rest.length < src.rest.length := by
  have h1 := nextToken_length src
  have h2 := List.length_pos_iff.2 h
  have h3 := skipLine_length (nextToken src).2
  have h4 : (afterToken src).rest.length ≤ (nextToken src).2.rest.length := by
    unfold afterToken; split
    · exact h3
    · exact Nat.le_refl _
  simp only [tokenAt] at h2
  omega


/-- A token that stops with an error ends the scan. -/
theorem scan_error {fuel : Nat} {src : Source} {s s1 : State} {e : AsmError}
    (h : emitToken (tokenAt src) (classify (tokenAt src)) s = .error e s1) :
    scan (fuel + 1) src s = .error (s1.reportAsm e (some (nextToken src).2.line)) := by
  simp only [scan]; rw [h]

/-- The end of the stream ends the scan. -/
theorem scan_end {fuel : Nat} {src : Source} {s s1 : State} (hk : tokenAt src = [])
    (h : emitToken [] .endOfStream s = .ok () s1) : scan (fuel + 1) src s = .ok ((nextToken src).2.line, s1) := by
  have hc : classify (tokenAt src) = .endOfStream := classify_eos.2 hk
  rw [← hc, ← hk] at h
  simp only [scan]; rw [h]; simp only [tokenAt] at hc; simp only [hc]

/-- Any other token is emitted and the scan goes on after it. -/
theorem scan_token {fuel : Nat} {src : Source} {s s1 : State} (hk : tokenAt src ≠ [])
    (h : emitToken (tokenAt src) (classify (tokenAt src)) s = .ok () s1) :
    scan (fuel + 1) src s = scan fuel (afterToken src) s1 := by
  simp only [scan]; rw [h]; simp only
  split
  · rename_i hc; exact absurd (classify_eos.1 hc) hk
  · rename_i hc; rw [afterToken_comment hc]
  · rename_i h1 h2; rw [afterToken_eq h2]

/-- The scan of the text is the scan from any place it comes to, with fuel enough. -/
theorem scan_of_scanAt {text : List Byte} {s u : State} {src : Source} (h : ScanAt text s src u) :
    ∃ fuel, src.rest.length < fuel ∧ scan (text.length + 1) (Source.start text) s = scan fuel src u := by
  induction h with
  | start => exact ⟨_, Nat.lt_succ_self _, rfl⟩
  | @token src u v before more emitted ih =>
    obtain ⟨fuel, hl, he⟩ := ih
    have := afterToken_length more
    obtain ⟨n, rfl⟩ : ∃ n, fuel = n + 1 := ⟨fuel - 1, by omega⟩
    exact ⟨n, by omega, by rw [he, scan_token more emitted]⟩

/-- The scan reports nothing before the token it stops at. -/
theorem scanAt_same {text : List Byte} {s u : State} {src : Source} (h : ScanAt text s src u) : SameEngine s u := by
  induction h with
  | start => exact SameEngine.refl _
  | token before more emitted ih => exact ih.trans ((leaves_tok _ _ _).1 _ _ emitted)

/-- Everything a scan with enough fuel can answer: the final halt idiom was emitted last, or one error was reported. -/
theorem scan_spec : ∀ fuel src s, AsmGood s → src.rest.length < fuel →
    (∀ l t, scan fuel src s = .ok (l, t) → ∃ s0, AsmGood s0 ∧
        Emitted s0 [s0.cfg.opnum.num .jmp, s0.wp + 2, s0.cfg.opnum.num .push] t) ∧
    (∀ t, scan fuel src s = .error t → ∃ u e l, AsmTables u ∧ t = u.reportAsm e (some l)) := by
  intro fuel
  induction fuel with
  | zero => intro src s _ h; omega
  | succ n ih =>
    intro src s hg hl
    have hlen := nextToken_length src
    simp only [scan]
    cases he : emitToken (nextToken src).1 (classify (nextToken src).1) s with
    | error e s1 =>
      constructor
      · intro l t ht; cases ht
      · intro t ht; cases ht
        exact ⟨s1, e, _, (emitToken_spec hg _ _).2 _ _ he, rfl⟩
    | ok a s1 =>
      have g1 := (emitToken_spec hg _ _).1 _ _ he
      simp only
      split
      · rename_i hc
        constructor
        · intro l t ht; cases ht
          rw [hc] at he
          exact ⟨s, hg, (emitHalt_spec hg).1 _ _ he⟩
        · intro t ht; cases ht
      · rename_i hc
        have : (nextToken src).1 ≠ [] := by rintro h0; rw [h0] at hc; cases hc
        have := List.length_pos_iff.2 this
        have := skipLine_length (nextToken src).2
        exact ih _ _ g1 (by omega)
      · rename_i hc _
        have : (nextToken src).1 ≠ [] := fun h0 => hc (classify_eos.2 h0)
        have := List.length_pos_iff.2 this
        exact ih _ _ g1 (by omega)

/-- Every machine whose fill begins right after a reset is ready for a compile phase. -/
theorem asmGood_reset {s : State} (hc : s.cfg.wf = true) : AsmGood s.toReset.beginFill := by
  have := memWords_bounds hc
  exact ⟨hc, rfl, rfl, by simp, by simp, fun n _ => rfl, by simp, by simp, by simp, by simp, by simp, rfl⟩

/-! ### The patch pass -/

/-- Patching changes no label and not the write position. -/
theorem lookup_patch {line : Nat} {s : State} {e : Token × Word} (n : Token) :
    lookup (patchEntry line s e) n = lookup s n := by
  unfold patchEntry; split <;> rfl

/-- Everything the patch pass does to entries at distinct addresses in memory: it keeps memory's form and bounds, changes no
other Word, forgets no report, and where it reported nothing every entry holds the address of its name. -/
theorem patch_spec (line : Nat) (l : List (Token × Word)) (s : State) (hw : s.mem.wf = true)
    (hi : memWithin s.cfg s.mem = true)
   (hb : ∀ e ∈ l, addrIndex e.2 < s.cfg.memWords) (hp : l.Pairwise (fun e f => addrIndex e.2 ≠ addrIndex f.2)) :
   (patchPass line l s).mem.wf = true ∧ memWithin s.cfg (patchPass line l s).mem = true ∧
   (∀ n, (∀ e ∈ l, addrIndex e.2 ≠ n) → (patchPass line l s).mem.read n = s.mem.read n) ∧
   s.asmDiag <+: (patchPass line l s).asmDiag ∧
   ((patchPass line l s).asmDiag = [] → ∀ e ∈ l, lookup s e.1 = some ((patchPass line l s).mem.read (addrIndex e.2))) ∧
   (∀ n, lookup (patchPass line l s) n = lookup s n) := by
  induction l generalizing s with
  | nil => simp [patchPass, hw, hi]
  | cons e l ih =>
    have hcfg : (patchEntry line s e).cfg = s.cfg := by unfold patchEntry; split <;> rfl
    have hw' : (patchEntry line s e).mem.wf = true := by unfold patchEntry; split; exact Memory.write_wf hw _ _; exact hw
    have hi' : memWithin s.cfg (patchEntry line s e).mem = true := by
      unfold patchEntry; split
      · exact Memory.write_within hi (hb e (by simp)) _
      · exact hi
    have hp' := List.pairwise_cons.1 hp
    have := ih (patchEntry line s e) hw' (by rw [hcfg]; exact hi') (by rw [hcfg]; exact fun f hf => hb f (by simp [hf])) hp'.2
    simp only [hcfg] at this
    obtain ⟨a, b, c, d, f, g⟩ := this
    have hpp : patchPass line (e :: l) s = patchPass line l (patchEntry line s e) := rfl
    rw [hpp]
    have hd : s.asmDiag <+: (patchEntry line s e).asmDiag := by
      unfold patchEntry; split
      · exact List.prefix_refl _
      · simp [State.reportAsm]
    refine ⟨a, b, ?_, hd.trans d, ?_, fun n => (g n).trans (lookup_patch n)⟩
    · intro n hn
      rw [c n (fun q hq => hn q (by simp [hq]))]
      have := hn e (by simp)
      unfold patchEntry; split
      · simp only [State.memWrite, Memory.read_write hw]; rw [if_neg (fun h => this h.symm)]
      · rfl
    · intro h0 q hq
      rw [h0] at d
      have d0 : (patchEntry line s e).asmDiag = [] := by simpa using d
      simp only [List.mem_cons] at hq
      rcases hq with rfl | hq
      · rw [c _ (fun p hp => fun h => hp'.1 p hp h.symm)]
        unfold patchEntry at d0 ⊢
        split
        · rename_i h; simp [State.memWrite, Memory.read_write hw, h]
        · rename_i h; rw [h] at d0; simp [State.reportAsm] at d0
      · have := f h0 q hq
        rwa [lookup_patch] at this

/-- The address `k` Words below one that is at least `k`. -/
theorem addrIndex_sub {w : Word} {k : Nat} (h : (k : Int) ≤ S w) :
    addrIndex (w - BitVec.ofNat 32 k) = addrIndex w - k ∧ S (w - BitVec.ofNat 32 k) = S w - k := by
  have h1 : S (w - BitVec.ofNat 32 k) = S w - k := by
    have hlt : S w < 2147483648 := by
      have := @BitVec.toInt_lt 32 w
      simpa using this
    rw [S, BitVec.toInt_sub, BitVec.toInt_ofNat']
    simp only [S] at *
    rw [show (k : Int).bmod (2 ^ 32) = k from Int.bmod_eq_of_le (by omega) (by omega)]
    exact Int.bmod_eq_of_le (by omega) (by omega)
  refine ⟨?_, h1⟩
  simp only [addrIndex, h1]
  omega

/-- The reports of the entries whose names have no address, in order. -/
def unresolvedReports (line : Nat) (s : State) (l : List (Token × Word)) : List AsmReport :=
  (l.filter (fun e => (lookup s e.1).isNone)).map (fun e => { error := .unresolvedLabel e.1, line := some line })

/-- What the patch pass reports: one `UnresolvedLabel` for each entry with no address, in order, and nothing else (rule R190). -/
theorem patch_reports (line : Nat) (l : List (Token × Word)) (s : State) :
    (patchPass line l s).asmDiag = s.asmDiag ++ unresolvedReports line s l ∧
    (patchPass line l s).diags = s.diags ++ (unresolvedReports line s l).map Diagnostic.assembly := by
  induction l generalizing s with
  | nil => simp [patchPass, unresolvedReports]
  | cons e l ih =>
    have hl : unresolvedReports line (patchEntry line s e) l = unresolvedReports line s l := by
      simp only [unresolvedReports, lookup_patch]
    have := ih (patchEntry line s e)
    rw [hl] at this
    rw [show patchPass line (e :: l) s = patchPass line l (patchEntry line s e) from rfl, this.1, this.2]
    unfold patchEntry
    cases h : lookup s e.1 <;> simp [unresolvedReports, h]

/-! ### What the compile phase keeps from any state -/

/-- What the compile phase keeps from any state, fresh or not: memory's form and bounds, the write position and the patch addresses
in theirs. -/
structure AsmBounds (s : State) : Prop where
  cwf : s.cfg.wf = true
  wf : s.mem.wf = true
  within : memWithin s.cfg s.mem = true
  wpIn : 0 ≤ S s.wp ∧ S s.wp ≤ (s.cfg.memWords : Int)
  fwdIn : ∀ e ∈ s.fwd, 0 ≤ S e.2 ∧ S e.2 ≤ S s.wp

/-- An `emit` that ends moves the write position by one and keeps the entries. -/
theorem emit_ok {w : Word} {s t : State} {u : Unit} (hs : AsmBounds s) (h : emit w s = .ok u t) :
    AsmBounds t ∧ S t.wp = S s.wp + 1 ∧ t.fwd = s.fwd := by
  have hm := memWords_bounds hs.cwf
  rcases Int.lt_or_le (S s.wp) (s.cfg.memWords : Int) with hr | hr
  · rw [emit_room hr] at h
    cases h
    have h1 : S (s.wp + 1) = S s.wp + 1 := S_add (k := 1) hs.wpIn.1 (by omega)
    have h2 := hs.wpIn.1
    refine ⟨⟨hs.cwf, Memory.write_wf hs.wf _ _, Memory.write_within hs.within (by simp only [addrIndex]; omega) _, ?_, ?_⟩, h1, rfl⟩
    · simp only [h1]; omega
    · intro e he
      have := hs.fwdIn e he
      simp only [h1]; omega
  · rw [emit_full hr] at h; cases h

/-- One token keeps the bounds, wherever it leads. -/
theorem keeps_token (t : Token) (c : TokenClass) : AsmMoves (fun s t => AsmBounds s → AsmBounds t) (emitToken t c) := by
  refine emitToken_moves (fun _ h => h) (fun _ _ _ h1 h2 h => h2 (h1 h)) ?_ ?_ ?_ t c
  · refine fun w s => ⟨fun _ t h hs => (emit_ok hs h).1, fun e t h hs => ?_⟩
    revert h; unfold emit; split <;> intro h <;> cases h
    exact hs
  · refine fun n s => ⟨fun _ t h hs => ?_, fun _ _ h => by cases h⟩
    cases h
    refine ⟨hs.1, hs.2, hs.3, hs.4, fun e he => ?_⟩
    simp only [List.mem_append, List.mem_singleton] at he
    rcases he with he | rfl
    · exact hs.5 e he
    · exact ⟨hs.wpIn.1, Int.le_refl _⟩
  · exact fun n s => ⟨fun _ t h hs => by cases h; exact ⟨hs.1, hs.2, hs.3, hs.4, hs.5⟩, fun _ _ h => by cases h⟩

/-- After the final halt idiom every patch address is an address in memory. -/
theorem emitHalt_fwd {s t : State} {u : Unit} (hs : AsmBounds s) (h : emitHalt s = .ok u t) :
    AsmBounds t ∧ ∀ e ∈ t.fwd, addrIndex e.2 < t.cfg.memWords := by
  simp only [emitHalt, bind_ok_iff] at h
  obtain ⟨p, t1, h1, _, t2, h2, _, t3, h3, h4⟩ := h
  cases h1
  have e1 := emit_ok hs h2
  have e2 := emit_ok e1.1 h3
  have e3 := emit_ok e2.1 h4
  refine ⟨e3.1, fun e he => ?_⟩
  have h1 := e3.1.wpIn
  rw [e3.2.2, e2.2.2, e1.2.2] at he
  have h2 := hs.fwdIn e he
  simp only [addrIndex]
  omega

theorem AsmBounds.report {s : State} (h : AsmBounds s) (e : AsmError) (l : Option Nat) : AsmBounds (s.reportAsm e l) :=
  ⟨h.1, h.2, h.3, h.4, h.5⟩

/-- A scan keeps the bounds, and where it ends every patch address is an address in memory. -/
theorem scan_bounds : ∀ fuel src s, AsmBounds s → src.rest.length < fuel →
    (∀ l t, scan fuel src s = .ok (l, t) → AsmBounds t ∧ ∀ e ∈ t.fwd, addrIndex e.2 < t.cfg.memWords) ∧
    (∀ t, scan fuel src s = .error t → AsmBounds t) := by
  intro fuel
  induction fuel with
  | zero => intro src s _ h; omega
  | succ n ih =>
    intro src s hs hl
    cases he : emitToken (tokenAt src) (classify (tokenAt src)) s with
    | error e s1 =>
      rw [scan_error he]
      exact ⟨fun _ _ h => (by cases h), fun t h => by cases h; exact ((keeps_token _ _ s).2 _ _ he hs).report _ _⟩
    | ok a s1 =>
      by_cases hk : tokenAt src = []
      · rw [classify_eos.2 hk, hk] at he
        rw [scan_end hk he]
        exact ⟨fun _ _ h => by cases h; exact emitHalt_fwd hs he, fun _ h => (by cases h)⟩
      · rw [scan_token hk he]
        exact ih _ _ ((keeps_token _ _ s).1 _ _ he hs) (by have := afterToken_length hk; omega)

/-- The patch pass keeps the bounds where every entry is an address in memory. -/
theorem patch_bounds (line : Nat) : ∀ (l : List (Token × Word)) (s : State), AsmBounds s →
    (∀ e ∈ l, addrIndex e.2 < s.cfg.memWords) → AsmBounds (patchPass line l s) := by
  intro l
  induction l with
  | nil => intro s h _; exact h
  | cons e l ih =>
    intro s h hl
    have hcfg : (patchEntry line s e).cfg = s.cfg := by unfold patchEntry; split <;> rfl
    refine ih (patchEntry line s e) ?_ (by rw [hcfg]; exact fun f hf => hl f (by simp [hf]))
    unfold patchEntry; split
    · exact ⟨h.1, Memory.write_wf h.wf _ _, Memory.write_within h.within (hl e (by simp)) _, h.4, h.5⟩
    · exact h.report _ _

/-- A compile phase keeps the bounds. -/
theorem assemble_bounds {text : List Byte} {s : State} (h : AsmBounds s) : AsmBounds (assemble text s) := by
  have := scan_bounds (text.length + 1) (Source.start text) s h (by simp [Source.start])
  unfold assemble
  split
  · rename_i hs; exact this.2 _ hs
  · rename_i hs; have := this.1 _ _ hs; exact patch_bounds _ _ _ this.1 this.2

end Sys2Proof.Machine
end

