-- ==== Sys2Proof/Laws/Decode.lean ====
section
/-! SUPPORT. What the decoder's helpers answer. -/

namespace Sys2Proof

/-- The enumeration lists every opcode. -/
theorem Opcode.mem_all (op : Opcode) : op ∈ Opcode.all := by cases op <;> decide

/-- An accepted Word is the number of the opcode it is read as. -/
theorem num_of_decodeOpcode {t : OpNum} {w : Word} {op : Opcode} (h : decodeOpcode t w = some op) : t.num op = w := by
  simpa using List.find?_some h

/-- Only an injective map gives distinct opcodes distinct numbers. -/
theorem OpNum.num_inj {t : OpNum} (h : t.injective = true) {a b : Opcode} (hab : t.num a = t.num b) : a = b := by
  simp only [OpNum.injective, decide_eq_true_eq] at h
  exact List.inj_on_of_nodup_map h (Opcode.mem_all a) (Opcode.mem_all b) hab

/-- Legal parameters have an injective map. -/
theorem Config.injective_of_wf {c : Config} (h : c.wf = true) : c.opnum.injective = true := by
  simp only [Config.wf, OpNum.wf, Bool.and_eq_true] at h
  exact h.2.1

/-- The number of an opcode is read back as that opcode, under an injective map. -/
theorem decodeOpcode_num {t : OpNum} (h : t.injective = true) (op : Opcode) : decodeOpcode t (t.num op) = some op := by
  cases hd : decodeOpcode t (t.num op) with
  | none =>
    have := (List.find?_eq_none.1 hd) op (Opcode.mem_all op)
    simp at this
  | some op' => rw [OpNum.num_inj h (num_of_decodeOpcode hd)]

/-- The opcode of the instruction an opcode makes. -/
@[simp] theorem Opcode.instr_opcode (op : Opcode) (w : Word) : (op.instr w).opcode = op := by cases op <;> rfl

end Sys2Proof
end

