-- ==== Sys2Proof/Laws/Fetch.lean ====
section
/-! SUPPORT. What the fetch and the step answer, case by case. -/

namespace Sys2Proof.Machine

theorem fetch_out {s : State} (h : inBounds s.cfg s.ip = false) : fetch s = .error (.ipOutOfBounds s.ip) := by
  simp [fetch, h]

theorem fetch_illegal {s : State} (h : inBounds s.cfg s.ip = true)
    (hd : decodeOpcode s.cfg.opnum (s.memRead s.ip) = none) :
    fetch s = .error (.illegalOpcode (s.memRead s.ip) s.ip) := by simp [fetch, h, decode, hd]

/-- The fetched instruction of a legal Word; only format I uses the operand Word. -/
theorem fetch_ok {s : State} {op : Opcode} (h : inBounds s.cfg s.ip = true)
    (hd : decodeOpcode s.cfg.opnum (s.memRead s.ip) = some op) : fetch s = .ok (op.instr (operandWord s)) := by
  simp only [fetch, h, if_true, decode, hd]
  cases op <;> rfl

theorem step_enabled {s : State} (h : s.Enabled) :
    step s = match fetch s with
      | .error c => .next (s.takeFault c)
      | .ok i => exec i s := by cases hf : fetch s <;> simp [step, h.1, h.2, hf]

/-- Everything a step that answers a next state can be. -/
theorem step_next_cases {s t : State} (h : step s = .next t) :
    s.Enabled ∧
      ((inBounds s.cfg s.ip = false ∧ t = s.takeFault (.ipOutOfBounds s.ip)) ∨
       (inBounds s.cfg s.ip = true ∧ decodeOpcode s.cfg.opnum (s.memRead s.ip) = none ∧
          t = s.takeFault (.illegalOpcode (s.memRead s.ip) s.ip)) ∨
       (∃ op, inBounds s.cfg s.ip = true ∧ decodeOpcode s.cfg.opnum (s.memRead s.ip) = some op ∧
          exec (op.instr (operandWord s)) s = .next t)) := by
  have he : s.Enabled := by
    cases hf : s.fault with
    | some c => simp [step, hf] at h
    | none =>
      cases hr : s.running with
      | false => simp [step, hf, hr] at h
      | true => exact ⟨hr, hf⟩
  refine ⟨he, ?_⟩
  rw [step_enabled he] at h
  cases hb : inBounds s.cfg s.ip with
  | false =>
    rw [fetch_out hb] at h
    exact .inl ⟨rfl, by simpa using h.symm⟩
  | true =>
    cases hd : decodeOpcode s.cfg.opnum (s.memRead s.ip) with
    | none =>
      rw [fetch_illegal hb hd] at h
      exact .inr (.inl ⟨rfl, rfl, by simpa using h.symm⟩)
    | some op =>
      rw [fetch_ok hb hd] at h
      exact .inr (.inr ⟨op, rfl, rfl, h⟩)

end Sys2Proof.Machine
end

