-- ==== Sys2Proof/Laws/HostInterface.lean ====
section
/-! SUPPORT. When a host operation answers a next state: what held before it, and what it then did. -/

namespace Sys2Proof.Machine

/-- An operation allowed while the engine is not stepping. -/
theorem whenStopped_next {s t : State} {k : State → Answer} (h : whenStopped s k = .next t) :
    s.running = false ∧ k s = .next t := by
  unfold whenStopped at h
  split at h
  · cases h
  · exact ⟨by simpa using ‹¬ s.running = true›, h⟩

/-- An operation that comes after reset and before the run (70_reset_and_hazards.md rule R252). -/
theorem beforeRun_next {s t : State} {k : State → Answer} (h : beforeRun s k = .next t) :
    s.running = false ∧ s.fault = none ∧ s.phase ≠ .run ∧ k s = .next t := by
  obtain ⟨hr, h⟩ := whenStopped_next h
  split at h
  · cases h
  · have hf : s.fault = none := by simpa using ‹¬ s.fault.isSome = true›
    split at h
    · rename_i hp; exact ⟨hr, hf, by simp [hp], h⟩
    · rename_i hp; exact ⟨hr, hf, by simp [hp], h⟩
    · cases h

/-- An operation that fills memory (70_reset_and_hazards.md rules R252, R262). -/
theorem whenFilling_next {s t : State} {k : State → Answer} (h : whenFilling s k = .next t) :
    s.running = false ∧ s.fault = none ∧ s.phase ≠ .run ∧ k s.beginFill = .next t := beforeRun_next h

/-- `run` is accepted only in the fill phase, with nothing reported (70_reset_and_hazards.md rule R253). -/
theorem hostRun_next {s t : State} (h : hostRun s = .next t) :
    s.running = false ∧ s.fault = none ∧ s.phase = .fill ∧ s.asmDiag = [] ∧
      t = { s with ip := 0, running := true, phase := .run } := by
  obtain ⟨hr, hf, -, h⟩ := beforeRun_next h
  split at h
  · split at h
    · rename_i hp hc
      cases h
      exact ⟨hr, hf, hp, by simpa [State.compiled] using hc, rfl⟩
    · cases h
  · cases h

/-- A compile phase on a machine that is not running and has not run since its reset. -/
theorem hostAssemble_next {text : List Byte} {s t : State} (h : hostAssemble text s = .next t) :
    t = assemble text s.beginFill := by
  obtain ⟨-, -, -, h⟩ := whenFilling_next h
  cases h
  rfl

/-- The compile phase's part of the invariant. -/
theorem State.Inv.bounds {s : State} (h : s.Inv) : AsmBounds s := ⟨h.cfgWf, h.memWf, h.memIn, h.wpIn, h.fwdIn⟩

end Sys2Proof.Machine
end

