-- ==== Sys2Proof/Laws/Moves.lean ====
section
/-! SUPPORT. Reasoning about a whole rule from its primitives: `Moves R x` says that wherever `x` leads, to its end or to where
it stops, the states before and after are related by `R`.  A frame or an invariant of an instruction follows from one fact per
primitive and the sequencing lemma. -/

namespace Sys2Proof.Machine

/-- Wherever the rule leads, `R` relates the state before it to the state where it ends or stops. -/
def Moves (R : State → State → Prop) {α : Type} (x : Exec α) : Prop :=
  ∀ s : State, (∀ a t, x s = .ok a t → R s t) ∧ (∀ e t, x s = .error e t → R s t)

variable {R : State → State → Prop}

theorem Moves.of_ok {α : Type} {x : Exec α} (h : Moves R x) {s t : State} {a : α} (hx : x s = .ok a t) : R s t :=
  (h s).1 a t hx

theorem Moves.of_error {α : Type} {x : Exec α} (h : Moves R x) {s t : State} {e : Stop} (hx : x s = .error e t) : R s t :=
  (h s).2 e t hx

/-- Sequencing, for a transitive relation. -/
theorem Moves.bind (trans : ∀ s t u, R s t → R t u → R s u) {α β : Type} {x : Exec α} {f : α → Exec β}
    (hx : Moves R x) (hf : ∀ a, Moves R (f a)) : Moves R (x >>= f) := by
  intro s
  constructor
  · intro b u h
    obtain ⟨a, t, h1, h2⟩ := bind_ok_iff.1 h
    exact trans _ _ _ (hx.of_ok h1) ((hf a).of_ok h2)
  · intro e u h
    rcases bind_error_iff.1 h with h | ⟨a, t, h1, h2⟩
    · exact hx.of_error h
    · exact trans _ _ _ (hx.of_ok h1) ((hf a).of_error h2)

theorem Moves.ite {α : Type} {c : Prop} [Decidable c] {x y : Exec α} (hx : Moves R x) (hy : Moves R y) :
    Moves R (if c then x else y) := by
  split
  · exact hx
  · exact hy

/-- A rule that ends in one state only. -/
theorem Moves.of_eq_ok {α : Type} {x : Exec α} {g : State → α} {f : State → State} (h : ∀ s, x s = .ok (g s) (f s))
    (hR : ∀ s, R s (f s)) : Moves R x := by
  intro s
  rw [h s]
  refine ⟨fun a t e => ?_, fun e t e' => ?_⟩
  · cases e
    exact hR s
  · cases e'

theorem Moves.dpop (refl : ∀ s, R s s) (pop : ∀ s v t, s.ds = v :: t → R s { s with ds := t })
    (deliver : ∀ s, s.cfg.underflow = .continueWithZero → ∀ op, R s (s.deliver (.stackUnderflow .data op))) (op : Opcode) :
    Moves R (dpop op) := by
  intro s
  rcases dpop_cases op s with ⟨v, t, hd, h⟩ | ⟨-, hp, h⟩ | ⟨-, -, h⟩ <;> rw [h]
  · exact ⟨fun a u e => by cases e; exact pop s v t hd, fun e u e' => by cases e'⟩
  · exact ⟨fun a u e => by cases e; exact deliver s hp _, fun e u e' => by cases e'⟩
  · exact ⟨fun a u e => (by cases e), fun e u e' => by cases e'; exact refl s⟩

theorem Moves.rpop (refl : ∀ s, R s s) (pop : ∀ s v t, s.rs = v :: t → R s { s with rs := t })
    (deliver : ∀ s, s.cfg.underflow = .continueWithZero → ∀ op, R s (s.deliver (.stackUnderflow .ret op))) (op : Opcode) :
    Moves R (rpop op) := by
  intro s
  rcases rpop_cases op s with ⟨v, t, hd, h⟩ | ⟨-, hp, h⟩ | ⟨-, -, h⟩ <;> rw [h]
  · exact ⟨fun a u e => by cases e; exact pop s v t hd, fun e u e' => by cases e'⟩
  · exact ⟨fun a u e => by cases e; exact deliver s hp _, fun e u e' => by cases e'⟩
  · exact ⟨fun a u e => (by cases e), fun e u e' => by cases e'; exact refl s⟩

theorem Moves.dpush (refl : ∀ s, R s s)
    (push : ∀ s v, hasRoom s.cfg.dstackCap s.ds.length = true → R s { s with ds := v :: s.ds }) (op : Opcode) (v : Word) :
    Moves R (dpush op v) := by
  intro s
  rcases dpush_cases op v s with ⟨hr, h⟩ | ⟨-, h⟩ <;> rw [h]
  · exact ⟨fun a u e => by cases e; exact push s v hr, fun e u e' => by cases e'⟩
  · exact ⟨fun a u e => (by cases e), fun e u e' => by cases e'; exact refl s⟩

theorem Moves.rpush (refl : ∀ s, R s s)
    (push : ∀ s v, hasRoom s.cfg.rstackCap s.rs.length = true → R s { s with rs := v :: s.rs }) (op : Opcode) (v : Word) :
    Moves R (rpush op v) := by
  intro s
  rcases rpush_cases op v s with ⟨hr, h⟩ | ⟨-, h⟩ <;> rw [h]
  · exact ⟨fun a u e => by cases e; exact push s v hr, fun e u e' => by cases e'⟩
  · exact ⟨fun a u e => (by cases e), fun e u e' => by cases e'; exact refl s⟩

theorem Moves.boundsCheck (refl : ∀ s, R s s) (op : Opcode) (a : Word) : Moves R (boundsCheck op a) := by
  intro s
  cases h : inBounds s.cfg a with
  | true =>
    rw [boundsCheck_in h]
    exact ⟨fun b u e => by cases e; exact refl s, fun e u e' => by cases e'⟩
  | false =>
    rw [boundsCheck_out h]
    exact ⟨fun b u e => (by cases e), fun e u e' => by cases e'; exact refl s⟩

theorem Moves.operandAddress (refl : ∀ s, R s s) : Moves R operandAddress := by
  intro s
  cases h : inBounds s.cfg (adv s.cfg s.ip) with
  | true =>
    rw [operandAddress_in h]
    exact ⟨fun b u e => by cases e; exact refl s, fun e u e' => by cases e'⟩
  | false =>
    rw [operandAddress_out h]
    exact ⟨fun b u e => (by cases e), fun e u e' => by cases e'; exact refl s⟩

theorem Moves.takeInput (refl : ∀ s, R s s)
    (next : ∀ s b rest, s.input.pending = b :: rest →
      R s { s with input := { s.input with pending := rest }, inPos := s.inPos + 1 }) : Moves R takeInput := by
  intro s
  rcases takeInput_cases s with ⟨b, rest, hp, h⟩ | ⟨-, -, h⟩ | ⟨-, -, h⟩ <;> rw [h]
  · exact ⟨fun a u e => by cases e; exact next s b rest hp, fun e u e' => by cases e'⟩
  · exact ⟨fun a u e => by cases e; exact refl s, fun e u e' => by cases e'⟩
  · exact ⟨fun a u e => (by cases e), fun e u e' => by cases e'; exact refl s⟩

/-- What a completed rule answers, for a relation that taking a fault respects. -/
theorem Moves.complete {body : Exec Unit} (h : Moves R body)
    (fault : ∀ s t c, R s t → R s (({ s with diags := t.diags } : State).takeFault c)) {s t : State}
    (hc : complete body s = .next t) : R s t := by
  rcases complete_cases body s with ⟨u, h1, h2⟩ | ⟨c, u, h1, h2⟩ | ⟨u, h1, h2⟩ <;> rw [h2] at hc <;> cases hc
  · exact h.of_ok h1
  · exact fault s u c (h.of_error h1)

/-- Every instruction is a completed rule, and one relation holds along it when it holds of each change a primitive can make.
The conditions on `i` say which primitives the instruction uses. -/
theorem exec_body (refl : ∀ s, R s s) (trans : ∀ s t u, R s t → R t u → R s u)
    (deliver : ∀ s, s.cfg.underflow = .continueWithZero → ∀ st op, R s (s.deliver (.stackUnderflow st op)))
    (ip : ∀ s w, R s { s with ip := w }) (i : Instr)
    (dpop : usesDataStack i.opcode = true → ∀ s v t, s.ds = v :: t → R s { s with ds := t })
    (dpush : usesDataStack i.opcode = true →
      ∀ s v, hasRoom s.cfg.dstackCap s.ds.length = true → R s { s with ds := v :: s.ds })
    (rpop : usesReturnStack i.opcode = true → ∀ s v t, s.rs = v :: t → R s { s with rs := t })
    (rpush : usesReturnStack i.opcode = true →
      ∀ s v, hasRoom s.cfg.rstackCap s.rs.length = true → R s { s with rs := v :: s.rs })
    (input : i = .inp → ∀ s b rest, s.input.pending = b :: rest →
      R s { s with input := { s.input with pending := rest }, inPos := s.inPos + 1 })
    (out : i = .out ∨ i = .outnum → ∀ s bs, R s { s with out := s.out ++ bs })
    (store : i = .stor → ∀ s a v, R s (s.memWrite a v))
    (halt : i = .jmp → ∀ s, R s { s with running := false })
    (s : State) : ∃ body : Exec Unit, exec i s = complete body s ∧ Moves R body := by
  have hadv : Moves R advance := Moves.of_eq_ok advance_apply (fun s => ip s _)
  have hset : ∀ w, Moves R (setIp w) := fun w => Moves.of_eq_ok (setIp_apply w) (fun s => ip s _)
  have hpast : ∀ w, Moves R (advancePast w) := fun w => Moves.of_eq_ok (advancePast_apply w) (fun s => ip s _)
  have hbc := Moves.boundsCheck (R := R) refl
  have hoa := Moves.operandAddress (R := R) refl
  have hcur : Moves R currentIp := Moves.of_eq_ok currentIp_apply refl
  have hload : ∀ a, Moves R (loadWord a) := fun a => Moves.of_eq_ok (loadWord_apply a) refl
  have bind : ∀ {α β : Type} {x : Exec α} {f : α → Exec β}, Moves R x → (∀ a, Moves R (f a)) → Moves R (x >>= f) :=
    fun hx hf => Moves.bind trans hx hf
  have hjump : ∀ op w, Moves R (jumpTo op w) := fun op w => bind (hbc op w) (fun _ => hset w)
  have done : ∀ {body : Exec Unit} {a : Answer}, Moves R body → a = complete body s →
      ∃ body : Exec Unit, a = complete body s ∧ Moves R body := fun hb hc => ⟨_, hc, hb⟩
  have hdpop : usesDataStack i.opcode = true → ∀ op, Moves R (Machine.dpop op) :=
    fun hu op => Moves.dpop refl (dpop hu) (fun s hp op => deliver s hp _ op) op
  have hdpush : usesDataStack i.opcode = true → ∀ op v, Moves R (Machine.dpush op v) :=
    fun hu op v => Moves.dpush refl (dpush hu) op v
  have hrpop : usesReturnStack i.opcode = true → ∀ op, Moves R (Machine.rpop op) :=
    fun hu op => Moves.rpop refl (rpop hu) (fun s hp op => deliver s hp _ op) op
  have hrpush : usesReturnStack i.opcode = true → ∀ op v, Moves R (Machine.rpush op v) :=
    fun hu op v => Moves.rpush refl (rpush hu) op v
  have hbin : usesDataStack i.opcode = true → ∀ op f, Moves R (binary op f) := fun hu op f =>
    bind (hdpop hu op) fun _ => bind (hdpop hu op) fun _ => bind (hdpush hu op _) fun _ => hadv
  have hun : usesDataStack i.opcode = true → ∀ op f, Moves R (unary op f) := fun hu op f =>
    bind (hdpop hu op) fun _ => bind (hdpush hu op _) fun _ => hadv
  cases i with
  | nop => exact done hadv rfl
  | add => exact done (hbin rfl _ _) rfl
  | sub => exact done (hbin rfl _ _) rfl
  | and => exact done (hbin rfl _ _) rfl
  | or => exact done (hbin rfl _ _) rfl
  | xor => exact done (hbin rfl _ _) rfl
  | not => exact done (hun rfl _ _) rfl
  | compl => exact done (hun rfl _ _) rfl
  | inp =>
    exact done (bind (Moves.takeInput refl (input rfl)) fun _ => bind (hdpush rfl _ _) fun _ => hadv) rfl
  | out =>
    exact done (bind (hdpop rfl _) fun _ =>
      bind (Moves.of_eq_ok (putBytes_apply _) (fun s => out (.inl rfl) s _)) fun _ => hadv) rfl
  | outnum =>
    exact done (bind (hdpop rfl _) fun _ =>
      bind (Moves.of_eq_ok (putBytes_apply _) (fun s => out (.inr rfl) s _)) fun _ => hadv) rfl
  | load =>
    exact done (bind (hdpop rfl _) fun _ => bind (hbc _ _) fun _ => bind (hload _) fun _ =>
      bind (hdpush rfl _ _) fun _ => hadv) rfl
  | stor =>
    exact done (bind (hdpop rfl _) fun _ => bind (hdpop rfl _) fun _ => bind (hbc _ _) fun _ =>
      bind (Moves.of_eq_ok (storeWord_apply _ _) (fun s => store rfl s _ _)) fun _ => hadv) rfl
  | jmp =>
    exact done (bind (hdpop rfl _) fun _ => bind (hbc _ _) fun _ => bind hcur fun _ =>
      Moves.ite (Moves.of_eq_ok stopRunning_apply (fun s => halt rfl s)) (hset _)) rfl
  | jz =>
    exact done (bind (hdpop rfl _) fun _ => bind (hdpop rfl _) fun _ => Moves.ite (hjump _ _) hadv) rfl
  | jnz =>
    exact done (bind (hdpop rfl _) fun _ => bind (hdpop rfl _) fun _ => Moves.ite hadv (hjump _ _)) rfl
  | push imm => exact done (bind hoa fun _ => bind (hdpush rfl _ _) fun _ => hpast _) rfl
  | dup =>
    exact done (bind (hdpop rfl _) fun _ => bind (hdpush rfl _ _) fun _ => bind (hdpush rfl _ _) fun _ => hadv) rfl
  | swap =>
    exact done (bind (hdpop rfl _) fun _ => bind (hdpop rfl _) fun _ => bind (hdpush rfl _ _) fun _ =>
      bind (hdpush rfl _ _) fun _ => hadv) rfl
  | rol3 =>
    exact done (bind (hdpop rfl _) fun _ => bind (hdpop rfl _) fun _ => bind (hdpop rfl _) fun _ =>
      bind (hdpush rfl _ _) fun _ => bind (hdpush rfl _ _) fun _ => bind (hdpush rfl _ _) fun _ => hadv) rfl
  | puship imm => exact done (bind hoa fun _ => bind (hrpush rfl _ _) fun _ => hpast _) rfl
  | popip => exact done (bind (hrpop rfl _) fun _ => bind (hbc _ _) fun _ => hset _) rfl
  | dropip => exact done (bind (hrpop rfl _) fun _ => hadv) rfl
  | drop => exact done (bind (hdpop rfl _) fun _ => hadv) rfl

/-- One relation over every instruction: it is enough that it holds of each change a primitive can make, and that taking a
fault respects it. -/
theorem exec_moves (refl : ∀ s, R s s) (trans : ∀ s t u, R s t → R t u → R s u)
    (deliver : ∀ s, s.cfg.underflow = .continueWithZero → ∀ st op, R s (s.deliver (.stackUnderflow st op)))
    (ip : ∀ s w, R s { s with ip := w })
    (fault : ∀ s t c, R s t → R s (({ s with diags := t.diags } : State).takeFault c))
    (i : Instr)
    (dpop : usesDataStack i.opcode = true → ∀ s v t, s.ds = v :: t → R s { s with ds := t })
    (dpush : usesDataStack i.opcode = true →
      ∀ s v, hasRoom s.cfg.dstackCap s.ds.length = true → R s { s with ds := v :: s.ds })
    (rpop : usesReturnStack i.opcode = true → ∀ s v t, s.rs = v :: t → R s { s with rs := t })
    (rpush : usesReturnStack i.opcode = true →
      ∀ s v, hasRoom s.cfg.rstackCap s.rs.length = true → R s { s with rs := v :: s.rs })
    (input : i = .inp → ∀ s b rest, s.input.pending = b :: rest →
      R s { s with input := { s.input with pending := rest }, inPos := s.inPos + 1 })
    (out : i = .out ∨ i = .outnum → ∀ s bs, R s { s with out := s.out ++ bs })
    (store : i = .stor → ∀ s a v, R s (s.memWrite a v))
    (halt : i = .jmp → ∀ s, R s { s with running := false })
    {s t : State} (h : exec i s = .next t) : R s t := by
  obtain ⟨body, he, hb⟩ := exec_body refl trans deliver ip i dpop dpush rpop rpush input out store halt s
  rw [he] at h
  exact hb.complete fault h

end Sys2Proof.Machine
end

