-- ==== Sys2Proof/Laws/PerInstr.lean ====
section
/-! SUPPORT. A family of facts about every instruction as syntax: under the default map its Words begin with the number of
its opcode, they are as many as the opcode's length says, and the decoder reads them back. -/

namespace Sys2Proof.Laws

/-- The Words of one instruction under the default map (30_encoding.md rules R70, R72, R74). -/
def DefaultWords.Statement (i : Instr) : Prop :=
  (encode OpNum.default i).head? = some (BitVec.ofNat 32 i.opcode.index.val) ∧
  (encode OpNum.default i).length = i.opcode.length ∧
  ∀ rest : List Word, decode OpNum.default (encode OpNum.default i ++ rest) = .ok (i, rest)

theorem DefaultWords.nop : DefaultWords.Statement .nop := ⟨rfl, rfl, fun _ => rfl⟩

theorem DefaultWords.add : DefaultWords.Statement .add := ⟨rfl, rfl, fun _ => rfl⟩

theorem DefaultWords.sub : DefaultWords.Statement .sub := ⟨rfl, rfl, fun _ => rfl⟩

theorem DefaultWords.and : DefaultWords.Statement .and := ⟨rfl, rfl, fun _ => rfl⟩

theorem DefaultWords.or : DefaultWords.Statement .or := ⟨rfl, rfl, fun _ => rfl⟩

theorem DefaultWords.xor : DefaultWords.Statement .xor := ⟨rfl, rfl, fun _ => rfl⟩

theorem DefaultWords.not : DefaultWords.Statement .not := ⟨rfl, rfl, fun _ => rfl⟩

theorem DefaultWords.compl : DefaultWords.Statement .compl := ⟨rfl, rfl, fun _ => rfl⟩

theorem DefaultWords.inp : DefaultWords.Statement .inp := ⟨rfl, rfl, fun _ => rfl⟩

theorem DefaultWords.out : DefaultWords.Statement .out := ⟨rfl, rfl, fun _ => rfl⟩

theorem DefaultWords.outnum : DefaultWords.Statement .outnum := ⟨rfl, rfl, fun _ => rfl⟩

theorem DefaultWords.load : DefaultWords.Statement .load := ⟨rfl, rfl, fun _ => rfl⟩

theorem DefaultWords.stor : DefaultWords.Statement .stor := ⟨rfl, rfl, fun _ => rfl⟩

theorem DefaultWords.jmp : DefaultWords.Statement .jmp := ⟨rfl, rfl, fun _ => rfl⟩

theorem DefaultWords.jz : DefaultWords.Statement .jz := ⟨rfl, rfl, fun _ => rfl⟩

theorem DefaultWords.jnz : DefaultWords.Statement .jnz := ⟨rfl, rfl, fun _ => rfl⟩

theorem DefaultWords.push (imm : Word) : DefaultWords.Statement (.push imm) := ⟨rfl, rfl, fun _ => rfl⟩

theorem DefaultWords.dup : DefaultWords.Statement .dup := ⟨rfl, rfl, fun _ => rfl⟩

theorem DefaultWords.swap : DefaultWords.Statement .swap := ⟨rfl, rfl, fun _ => rfl⟩

theorem DefaultWords.rol3 : DefaultWords.Statement .rol3 := ⟨rfl, rfl, fun _ => rfl⟩

theorem DefaultWords.puship (imm : Word) : DefaultWords.Statement (.puship imm) := ⟨rfl, rfl, fun _ => rfl⟩

theorem DefaultWords.popip : DefaultWords.Statement .popip := ⟨rfl, rfl, fun _ => rfl⟩

theorem DefaultWords.dropip : DefaultWords.Statement .dropip := ⟨rfl, rfl, fun _ => rfl⟩

theorem DefaultWords.drop : DefaultWords.Statement .drop := ⟨rfl, rfl, fun _ => rfl⟩

end Sys2Proof.Laws
end

