-- ==== Sys2Proof/Tests/Slice0.lean ====
section
/-! SUPPORT. Tests of the model on fixed values, and a witness for the hypotheses of each obligation.  Expected results are those
of 95_test_vectors.md (the vector is named in the docstring) or are worked out by hand from the rule named. -/

namespace Sys2Proof.Tests

open Sys2Proof Sys2Proof.Machine

/-- A running machine of `m` Words at `ip = p`, with the stacks (top first) and the Words from address 0 on. -/
def machine (m : Nat) (p : Word) (ds rs words : List Word) : State :=
  { State.create { Config.default with memWords := m } { pending := [], ended := true } 0 with
    ip := p, ds := ds, rs := rs, mem := Memory.fill [] 0 words, running := true, phase := .run }

/-- A running machine of 16 Words with empty memory. -/
def small (p : Word) (ds rs : List Word) : State := machine 16 p ds rs []

/-- The same machine under `UNDERFLOW_POLICY = continue_with_zero`. -/
def continuing (s : State) : State := { s with cfg := { s.cfg with underflow := .continueWithZero } }

/-- The same machine under `IP_OVERFLOW_POLICY = wrap_to_zero`. -/
def wrapping (s : State) : State := { s with cfg := { s.cfg with ipOverflow := .wrapToZero } }

/-- The same machine with caps on both stacks. -/
def capped (d r : Nat) (s : State) : State := { s with cfg := { s.cfg with dstackCap := some d, rstackCap := some r } }

/-- The same machine with another input stream. -/
def reading (pending : List Byte) (ended : Bool) (s : State) : State :=
  { s with input := { pending := pending, ended := ended } }

/-- The next state of an answer. -/
def nextOf : Answer → Option State
  | .next t => some t
  | .fault _ => none
  | .refused _ => none

/-- What an instruction leaves in `ds`, in `ip` and in the latch. -/
def outcome (i : Instr) (s : State) : Option (List Word × Word × Option Cause) :=
  (nextOf (exec i s)).map (fun t => (t.ds, t.ip, t.fault))

/-! ### What the checks of WellFormed.lean refuse (00_scope.md rule R6, 30_encoding.md rule R72) -/

theorem test_wf_default : Config.default.wf = true := by decide
theorem test_wf_refuses_no_memory : ({ Config.default with memWords := 0 } : Config).wf = false := by decide
theorem test_wf_refuses_too_much_memory : ({ Config.default with memWords := 2147483648 } : Config).wf = false := by decide
theorem test_wf_refuses_shared_number : OpNum.injective (Vector.replicate 24 0) = false := by decide
theorem test_wf_refuses_nop_not_zero :
    OpNum.wf #v[1, 0, 2, 3, 4, 5, 6, 7, 8, 9, 10, 11, 12, 13, 14, 15, 16, 17, 18, 19, 20, 21, 22, 23] = false := by decide
theorem test_wf_refuses_ambiguous_instruction : Instr.wf (Vector.replicate 24 0) .add = false := by decide
theorem test_wf_accepts_instruction : Instr.wf OpNum.default (.push 0xFFFFFFFF) = true := by decide
theorem test_wf_refuses_unsorted_memory : Memory.wf [(5, 1), (3, 2)] = false := by decide
theorem test_wf_refuses_listed_nop : Memory.wf [(5, 0)] = false := by decide

/-! ### Decoding: Words written out from the table of 30_encoding.md rule R72 -/

theorem test_decode_arith :
    decodeTableWord 32 0x00000000 = some .nop ∧ decodeTableWord 32 0x00000001 = some .add ∧
    decodeTableWord 32 0x00000002 = some .sub ∧ decodeTableWord 32 0x00000003 = some .and ∧
    decodeTableWord 32 0x00000004 = some .or ∧ decodeTableWord 32 0x00000005 = some .xor ∧
    decodeTableWord 32 0x00000006 = some .not ∧ decodeTableWord 32 0x00000007 = some .compl := by decide
theorem test_decode_io :
    decodeTableWord 32 0x00000008 = some .inp ∧ decodeTableWord 32 0x00000009 = some .out ∧
    decodeTableWord 32 0x0000000A = some .outnum := by decide
theorem test_decode_memory :
    decodeTableWord 32 0x0000000B = some .load ∧ decodeTableWord 32 0x0000000C = some .stor := by decide
theorem test_decode_jumps :
    decodeTableWord 32 0x0000000D = some .jmp ∧ decodeTableWord 32 0x0000000E = some .jz ∧
    decodeTableWord 32 0x0000000F = some .jnz := by decide
theorem test_decode_stack :
    decodeTableWord 64 0x000003E800000010 = some (.push 1000) ∧ decodeTableWord 32 0x00000010 = some (.push 0) ∧
    decodeTableWord 32 0x00000011 = some .dup ∧ decodeTableWord 32 0x00000012 = some .swap ∧
    decodeTableWord 32 0x00000013 = some .rol3 ∧ decodeTableWord 32 0x00000017 = some .drop := by decide
theorem test_decode_return_stack :
    decodeTableWord 64 0xFFFFFFFF00000014 = some (.puship 0xFFFFFFFF) ∧ decodeTableWord 32 0x00000015 = some .popip ∧
    decodeTableWord 32 0x00000016 = some .dropip := by decide
theorem test_decode_refuses :
    decode OpNum.default [24] = .error (.illegalOpcode 24) ∧ decode OpNum.default [16] = .error (.noOperand .push) ∧
    decode OpNum.default [] = .error .noWord ∧ decodeTableWord 32 0xFFFFFFFF = none := ⟨rfl, rfl, rfl, by decide⟩

/-! ### One instruction (vector groups TV2 to TV7) -/

/-- V1. -/
theorem test_nop : outcome .nop (small 3 [4] []) = some ([4], 4, none) := by decide
/-- V3. -/
theorem test_add_wraps : outcome .add (small 3 [1, 0x7FFFFFFF] []) = some ([0x80000000], 4, none) := by decide
/-- V16. -/
theorem test_add_underflow :
    outcome .add (small 3 [5] []) = some ([5], 3, some (.stackUnderflow .data .add)) := by decide
/-- V5. -/
theorem test_sub_order : outcome .sub (small 3 [3, 10] []) = some ([7], 4, none) := by decide
/-- V19. -/
theorem test_sub_continues :
    (nextOf (exec .sub (continuing (small 3 [7] [])))).map (fun t => (t.ds, t.ip, t.diags)) =
      some ([0xFFFFFFF9], 4, [.runtime (.stackUnderflow .data .sub)]) := by decide
/-- V8. -/
theorem test_and : outcome .and (small 3 [10, 12] []) = some ([8], 4, none) := by decide
/-- V9. -/
theorem test_or : outcome .or (small 3 [10, 12] []) = some ([14], 4, none) := by decide
/-- V10. -/
theorem test_xor : outcome .xor (small 3 [10, 12] []) = some ([6], 4, none) := by decide
/-- V11. -/
theorem test_not_zero : outcome .not (small 3 [0] []) = some ([1], 4, none) := by decide
/-- V13. -/
theorem test_not_top_bit : outcome .not (small 3 [0x80000000] []) = some ([0], 4, none) := by decide
/-- V15. -/
theorem test_compl : outcome .compl (small 3 [0x0000FFFF] []) = some ([0xFFFF0000], 4, none) := by decide
/-- O2 of TV3. -/
theorem test_in_zero_extends :
    (nextOf (exec .inp (reading [0xFF, 7] true (small 3 [] [])))).map (fun t => (t.ds, t.ip, t.inPos, t.input.pending)) =
      some ([255], 4, 1, [7]) := by decide
/-- O3 of TV3, and a stream that has not answered: no step (41_io.md rule R110). -/
theorem test_in_eof_and_held :
    outcome .inp (small 3 [] []) = some ([0xFFFFFFFF], 4, none) ∧
    exec .inp (reading [] false (small 3 [] [])) = .fault .waitingForInput := ⟨by decide, rfl⟩
/-- O5 of TV3. -/
theorem test_out_low_byte :
    (nextOf (exec .out (small 3 [0x141] []))).map (fun t => (t.ds, t.out)) = some ([], [0x41]) := by decide
/-- O9 of TV3. -/
theorem test_outnum_negative :
    (nextOf (exec .outnum (small 3 [0xFFFFFFFB] []))).map (·.out) = some [0x2D, 0x35] := by decide
/-- O10 of TV3. -/
theorem test_outnum_least :
    (nextOf (exec .outnum (small 3 [0x80000000] []))).map (·.out) = some (ascii "-2147483648") := by decide
/-- M2c. -/
theorem test_load_last :
    outcome .load { small 3 [15] [] with mem := [(15, 77)] } = some ([77], 4, none) := by decide
/-- M2b. -/
theorem test_load_negative :
    outcome .load (small 3 [0xFFFFFFFF] []) =
      some ([0xFFFFFFFF], 3, some (.addressOutOfBounds .load 0xFFFFFFFF)) := by decide
/-- M3. -/
theorem test_stor :
    (nextOf (exec .stor (small 3 [9, 42] []))).map (fun t => (t.ds, t.mem)) = some ([], [(9, 42)]) := by decide
/-- M5. -/
theorem test_stor_underflow_first :
    outcome .stor (small 3 [0xFFFFFFFF] []) = some ([0xFFFFFFFF], 3, some (.stackUnderflow .data .stor)) := by decide
/-- J2. -/
theorem test_jmp_halts :
    (nextOf (exec .jmp (small 8 [8] []))).map (fun t => (t.ip, t.ds, t.running, t.fault)) =
      some (8, [], false, none) := by decide
/-- J3. -/
theorem test_jmp_out_of_bounds :
    outcome .jmp (small 4 [16] []) = some ([16], 4, some (.addressOutOfBounds .jmp 16)) := by decide
/-- J10. -/
theorem test_jz_to_itself :
    (nextOf (exec .jz (small 4 [0, 4] []))).map (fun t => (t.ip, t.ds, t.running)) = some (4, [], true) := by decide
/-- J6. -/
theorem test_jz_untaken : outcome .jz (small 4 [7, 99] []) = some ([], 5, none) := by decide
/-- J8. -/
theorem test_jnz_taken : outcome .jnz (small 4 [1, 6] []) = some ([], 6, none) := by decide
/-- J7. -/
theorem test_jnz_out_of_bounds :
    outcome .jnz (small 4 [1, 99] []) = some ([1, 99], 4, some (.addressOutOfBounds .jnz 99)) := by decide
/-- T5: nothing is pushed. -/
theorem test_push_past_memory : outcome (.push 7) (small 15 [] []) = some ([], 15, some (.ipOutOfBounds 16)) := by decide
/-- T10. -/
theorem test_dup : outcome .dup (small 3 [9] []) = some ([9, 9], 4, none) := by decide
/-- T11. -/
theorem test_swap : outcome .swap (small 3 [9, 4] []) = some ([4, 9], 4, none) := by decide
/-- T1. -/
theorem test_rol3 : outcome .rol3 (small 3 [3, 2, 1] []) = some ([1, 3, 2], 4, none) := by decide
/-- T9. -/
theorem test_rol3_underflow :
    outcome .rol3 (small 3 [2, 1] []) = some ([2, 1], 3, some (.stackUnderflow .data .rol3)) := by decide
/-- T6. -/
theorem test_drop : outcome .drop (small 3 [2, 1] []) = some ([1], 4, none) := by decide
/-- K1. -/
theorem test_puship :
    (nextOf (exec (.puship 4) (small 0 [8] []))).map (fun t => (t.rs, t.ds, t.ip)) = some ([4], [8], 2) := by decide
/-- K7. -/
theorem test_popip_to_itself :
    (nextOf (exec .popip (small 2 [] [2]))).map (fun t => (t.ip, t.rs, t.running)) = some (2, [], true) := by decide
/-- K3. -/
theorem test_popip_out_of_bounds :
    (nextOf (exec .popip (small 2 [] [99]))).map (fun t => (t.rs, t.fault)) =
      some ([99], some (.addressOutOfBounds .popip 99)) := by decide
/-- K5: the dropped Word is not checked. -/
theorem test_dropip : (nextOf (exec .dropip (small 2 [] [99]))).map (fun t => (t.rs, t.ip)) = some ([], 3) := by decide

/-! ### One step (vector groups TV6, TV8) -/

/-- T3. -/
theorem test_step_push :
    (nextOf (step (machine 16 0 [] [] [16, 1000]))).map (fun t => (t.ds, t.ip)) = some ([1000], 2) := by decide
/-- T5b: the operand is `mem[0]`. -/
theorem test_step_push_wraps :
    (nextOf (step (wrapping (machine 3 2 [] [] [7, 0, 16])))).map (fun t => (t.ds, t.ip)) = some ([7], 1) := by decide
/-- S1. -/
theorem test_step_illegal :
    (nextOf (step (machine 16 0 [] [] [24]))).map (fun t => (t.ip, t.running, t.fault, t.diags)) =
      some (0, false, some (.illegalOpcode 24 0), [.runtime (.illegalOpcode 24 0)]) := by decide
/-- The end of S4. -/
theorem test_step_off_the_end :
    (nextOf (step (small 16 [] []))).map (fun t => (t.ip, t.fault)) = some (16, some (.ipOutOfBounds 16)) := by decide
/-- Laid Words are fetched: the first step after reset runs `PUSH 1000` (T3). -/
theorem test_withFetchWord :
    (nextOf (step (State.reset.withFetchWord 64 0x000003E800000010))).map (fun t => (t.ds, t.ip)) =
      some ([1000], 2) := by decide

/-! ### The life cycle (70_reset_and_hazards.md rules R252, R262) -/

/-- After a run the fill is refused until reset. -/
theorem test_no_fill_after_a_run :
    hostEmit 1 { small 3 [] [] with running := false } = .refused .notFilling ∧
    (nextOf (hostReset { small 3 [] [] with running := false })).map (·.phase) = some .reset := ⟨rfl, by decide⟩

/-- `run` is refused right after reset, and accepted once the load port has filled a Word. -/
theorem test_run_needs_a_fill :
    hostRun State.reset = .refused .notFilled ∧
    ((nextOf (hostEmit 16 State.reset)).bind (fun t => nextOf (hostRun t))).map (fun t => (t.running, t.phase)) =
      some (true, .run) := ⟨rfl, by decide⟩

/-! ### The compile phase (vector group TV9), `M = 64` -/

/-- A reset machine of `m` Words. -/
def fresh (m : Nat) : State := State.create { Config.default with memWords := m } { pending := [], ended := true } 0

/-- What a compile phase leaves: the Words from address 0 on, the tables, the errors. -/
def compiledImage (m : Nat) (text : String) :
    List Word × List (Token × Word) × List (Token × Word) × List AsmError :=
  let t := assemble (ascii text) (fresh m)
  (t.mem.image, t.labels, t.fwd, t.asmDiag.map (·.error))

/-- A1. -/
theorem test_assemble_forward_reference :
    compiledImage 64 "&end JMP ; skip\n65 OUT\nend:" =
      ([16, 6, 13, 16, 65, 9, 16, 8, 13], [(ascii "END", 6)], [(ascii "end", 1)], []) := by decide
/-- A2. -/
theorem test_assemble_empty : compiledImage 64 "" = ([16, 2, 13], [], [], []) := by decide
/-- A5. -/
theorem test_assemble_literal_range :
    compiledImage 64 "2147483648" = ([], [], [], [.literalOutOfRange (ascii "2147483648")]) := by decide
/-- A6. -/
theorem test_assemble_unresolved :
    compiledImage 64 "foo" =
      ([20, 5, 16, 0xFFFFFFFF, 13, 16, 7, 13], [], [(ascii "foo", 3)], [.unresolvedLabel (ascii "foo")]) := by decide
/-- A8. -/
theorem test_assemble_characters :
    compiledImage 64 "'A' OUT '\\n' OUT" = ([16, 65, 9, 16, 10, 9, 16, 8, 13], [], [], []) := by decide
/-- A9. -/
theorem test_assemble_escape :
    compiledImage 64 "'\\q'" = ([], [], [], [.unknownEscape (ascii "'\\q'")]) := by decide
/-- A12. -/
theorem test_assemble_reserved :
    compiledImage 64 "&here" = ([], [], [], [.reservedLabel (ascii "here")]) := by decide
/-- A14. -/
theorem test_assemble_earliest_label :
    compiledImage 64 "x: 1 x: &x OUTNUM" =
      ([16, 1, 16, 0, 10, 16, 7, 13], [(ascii "X", 0), (ascii "X", 2)], [], []) := by decide
/-- A17. -/
theorem test_assemble_too_large :
    compiledImage 8 "1 2 ADD OUTNUM" = ([16, 1, 16, 2, 1, 10, 16, 8], [], [], [.imageTooLarge 8]) := by decide
/-- TV12: the image of program P3. -/
theorem test_assemble_call :
    compiledImage 64 "7 double OUTNUM\nhalt\ndouble: DUP ADD POPIP" =
      ([16, 7, 20, 7, 16, 11, 13, 10, 16, 10, 13, 17, 1, 21, 16, 16, 13], [(ascii "DOUBLE", 11)],
       [(ascii "double", 5)], []) := by decide

/-! ### Witnesses: states and operands that meet the hypotheses of each obligation, clause by clause -/

theorem witness_DecodeGivesBackEncode : OpNum.default.injective = true := by decide
theorem witness_EncodeGivesBackDecode : decode OpNum.default [16, 0xFFFFFFFF, 1] = .ok (.push 0xFFFFFFFF, [1]) := rfl
theorem witness_OpcodeDecodingIsExact : OpNum.default.injective = true := by decide
theorem witness_StepRunsTheDecodedInstruction :
    (small 16 [] []).Enabled ∧ inBounds (small 16 [] []).cfg 16 = false ∧
    (machine 16 15 [] [] []).Enabled ∧ inBounds (small 15 [] []).cfg 15 = true ∧
    (decodeOpcode OpNum.default 24 = none) ∧ (machine 16 0 [] [] [24]).memRead 0 = 24 ∧
    (machine 16 0 [] [] [23]).Enabled ∧
    decodeOpcode OpNum.default ((machine 16 0 [] [] [23]).memRead 0) = some .drop := by decide
theorem witness_StepRunsTheDecodedInstruction_stopped :
    ((small 0 [] []).takeFault (.ipOutOfBounds 16)).fault = some (.ipOutOfBounds 16) ∧
    State.reset.fault = none ∧ State.reset.running = false := by decide
theorem witness_StepRunsTheEncodedInstruction :
    (machine 16 0 [] [] [1]).Enabled ∧ inBounds (small 0 [] []).cfg 0 = true ∧
    encode OpNum.default .add = [(machine 16 0 [] [] [1]).memRead 0] ∧
    inBounds (small 14 [] []).cfg (adv (small 14 [] []).cfg 14) = true ∧
    encode OpNum.default (.push 5) = [(machine 16 0 [] [] [16, 5]).memRead 0, (machine 16 0 [] [] [16, 5]).memRead 1] := by
  decide
theorem witness_MnemonicTableIsExact :
    upper (ascii "pUsH") = ascii (mnemonicOf .push) ∧ upper (ascii "jz") = upper (ascii "JZ") ∧
    ([0x61, 0x7A, 0x60, 0x7B] : Token)[0]? = some 0x61 ∧ ([0x61, 0x7A, 0x60, 0x7B] : Token)[1]? = some 0x7A ∧
    ([0x61, 0x7A, 0x60, 0x7B] : Token)[2]? = some 0x60 ∧ ([0x61, 0x7A, 0x60, 0x7B] : Token)[3]? = some 0x7B := by decide
theorem witness_EveryInstructionAnswersNext :
    Instr.add ≠ .inp ∧ (reading [0] false (small 3 [] [])).input.pending ≠ [] ∧ (small 3 [] []).input.ended = true ∧
    (reading [] false (small 3 [] [])).input.pending = [] ∧ (reading [] false (small 3 [] [])).input.ended = false := by
  decide
theorem witness_AddAndSubResults :
    (small 3 [1, 2] []).StacksWithin ∧ (small 3 [1, 2] []).ds = 1 :: 2 :: [] ∧
    (small 3 [1] []).cfg.underflow = .halt ∧ (small 3 [1] []).ds.length < dataPops .add := by decide
theorem witness_ArithmeticWraps :
    (small 3 [0x7FFFFFFF, 0x7FFFFFFF] []).StacksWithin ∧
    (small 3 [0x7FFFFFFF, 0x7FFFFFFF] []).ds = 0x7FFFFFFF :: 0x7FFFFFFF :: [] ∧ -(2 ^ 31) ≤ S 0x7FFFFFFF + S 0 ∧
    S 0x7FFFFFFF + S 0 < 2 ^ 31 ∧ -(2 ^ 31) ≤ S 0x80000000 - S 0 ∧ S 0x80000000 - S 0 < 2 ^ 31 := by decide
theorem witness_BitwiseResults :
    (capped 2 0 (small 3 [1, 2] [])).StacksWithin ∧ (small 3 [1, 2] []).ds = 1 :: 2 :: [] ∧
    (small 3 [] []).cfg.underflow = .halt ∧ (small 3 [] []).ds.length < dataPops .xor := by decide
theorem witness_NotAndComplResults :
    (capped 1 0 (small 3 [0] [])).StacksWithin ∧ (small 3 [0] []).ds = 0 :: [] ∧
    (small 3 [] []).cfg.underflow = .halt ∧ (small 3 [] []).ds.length < dataPops .not := by decide
theorem witness_InReadsOrIsHeld :
    (reading [0x80] false (small 3 [] [])).input.pending = 0x80 :: [] ∧ hasRoom (small 3 [] []).cfg.dstackCap 0 = true ∧
    (small 3 [] []).input.pending = [] ∧ (small 3 [] []).input.ended = true ∧
    (reading [] false (small 3 [] [])).input.pending = [] ∧ (reading [] false (small 3 [] [])).input.ended = false := by
  decide
theorem witness_InputLiftsTheHold :
    (reading [] false (small 3 [] [])).input.pending = [] ∧ (reading [] false (small 3 [] [])).input.ended = false ∧
    hasRoom (small 3 [] []).cfg.dstackCap (small 3 [] []).ds.length = true := by decide
theorem witness_OutWritesTheLowByte :
    (small 3 [0x1FF] []).ds = 0x1FF :: [] ∧ (small 3 [] []).ds.length < dataPops .out ∧
    (continuing (small 3 [] [])).cfg.underflow = .continueWithZero ∧ (continuing (small 3 [] [])).ds = [] := by decide
theorem witness_OutnumWritesTheNumeral :
    (small 3 [0x80000000] []).ds = 0x80000000 :: [] ∧ (small 3 [] []).ds.length < dataPops .outnum ∧
    (continuing (small 3 [] [])).cfg.underflow = .continueWithZero ∧ (continuing (small 3 [] [])).ds = [] := by decide
theorem witness_DecimalNumeralIsExact :
    (0 : Nat) < 2 ^ 31 ∧ 2147483647 < 2 ^ 31 ∧ 0 < 2147483648 ∧ 2147483648 ≤ 2 ^ 31 ∧
    dec 0 = [0x30] ∧ dec 2147483647 = ascii "2147483647" ∧ dec (-2147483648) = ascii "-2147483648" := by decide
theorem witness_LoadReadsTheWord :
    (small 3 [15] []).StacksWithin ∧ (small 3 [15] []).ds = 15 :: [] ∧
    (0 ≤ S 15 ∧ S 15 < ((small 3 [] []).cfg.memWords : Int)) ∧ (0 ≤ S 0 ∧ S 0 < ((small 3 [] []).cfg.memWords : Int)) ∧
    ((small 3 [] []).cfg.memWords : Int) ≤ S 16 ∧ S 0xFFFFFFFF < 0 ∧ (small 3 [] []).ds.length < dataPops .load := by decide
theorem witness_StorWritesTheWord :
    (small 3 [15, 42] []).ds = 15 :: 42 :: [] ∧ (0 ≤ S 15 ∧ S 15 < ((small 3 [] []).cfg.memWords : Int)) ∧
    ((small 3 [] []).cfg.memWords : Int) ≤ S 16 ∧ S 0x80000000 < 0 ∧ (small 3 [16] []).ds.length < dataPops .stor := by
  decide
theorem witness_MemWriteSetsOneWord :
    (machine 16 0 [] [] [16, 5]).mem.wf = true ∧ inBounds (small 0 [] []).cfg 15 = true ∧
    inBounds (small 0 [] []).cfg 0 = true ∧ (0 : Word) ≠ 15 ∧ (16 : Nat) ≠ (S 15).toNat := by decide
theorem witness_OnlyStorWritesMemory :
    (machine 16 0 [9, 42] [] [16, 5]).mem.wf = true ∧ Instr.load ≠ .stor ∧
    storAddress (machine 16 0 [9, 42] [] [16, 5]) = some 9 ∧ storAddress (small 0 [] []) = none :=
  ⟨by decide, by decide, rfl, rfl⟩
theorem witness_OnlyStorWritesMemory_next :
    ∃ t, exec .stor (machine 16 0 [9, 42] [] [16, 5]) = .next t ∧ t.mem = [(0, 16), (1, 5), (9, 42)] := ⟨_, rfl, by decide⟩
/-- A machine about to store over the next instruction. -/
def storingNext : State := machine 16 0 [1, 13] [] [12]
theorem storingNext_inv : storingNext.Inv :=
  ⟨by decide, by decide, by decide, by decide, by decide, by decide, by decide, by decide, by decide, by decide⟩
theorem witness_StoreIsSeenByTheNextFetch :
    storingNext.Inv ∧ storingNext.Enabled ∧ (∃ t, exec .stor storingNext = .next t) ∧ storingNext.ds = 1 :: 13 :: [] ∧
    inBounds storingNext.cfg 1 = true ∧ (1 : Word) = adv storingNext.cfg storingNext.ip ∧
    decodeOpcode storingNext.cfg.opnum 13 = some .jmp ∧ decodeOpcode storingNext.cfg.opnum 24 = none :=
  ⟨storingNext_inv, by decide, ⟨_, rfl⟩, by decide, by decide, by decide, by decide, by decide⟩
theorem witness_JmpTransfersOrHalts :
    (small 2 [15] []).ds = 15 :: [] ∧ inBounds (small 2 [] []).cfg 15 = true ∧ (15 : Word) ≠ (small 2 [] []).ip ∧
    (2 : Word) = (small 2 [] []).ip ∧ inBounds (small 2 [] []).cfg 16 = false ∧
    (small 2 [] []).ds.length < dataPops .jmp := by decide
theorem witness_ConditionalJumps :
    (small 2 [0, 15] []).ds = 0 :: 15 :: [] ∧ (1 : Word) ≠ 0 ∧ inBounds (small 2 [] []).cfg 15 = true ∧
    inBounds (small 2 [] []).cfg 16 = false ∧ (small 2 [0] []).ds.length < dataPops .jz := by decide
/-- A machine at a halt idiom that fills its memory. -/
def atHalt : State := machine 3 0 [] [] [16, 2, 13]
theorem witness_HaltIdiomHalts :
    atHalt.cfg.wf = true ∧ atHalt.Enabled ∧ atHalt.ip = 0 ∧ 0 ≤ S 0 ∧ S 0 + 2 < (atHalt.cfg.memWords : Int) ∧
    hasRoom atHalt.cfg.dstackCap atHalt.ds.length = true ∧ atHalt.memRead 0 = atHalt.cfg.opnum.num .push ∧
    atHalt.memRead (0 + 1) = 0 + 2 ∧ atHalt.memRead (0 + 2) = atHalt.cfg.opnum.num .jmp := by decide
theorem witness_EngineStopsInTwoWays :
    (∃ t, (machine 3 2 [2] [] [16, 2, 13]).Enabled ∧ step (machine 3 2 [2] [] [16, 2, 13]) = .next t ∧ t.running = false) ∧
    (∃ t, (small 16 [] []).Enabled ∧ step (small 16 [] []) = .next t ∧ t.running = false) :=
  ⟨⟨_, by decide, rfl, by decide⟩, ⟨_, by decide, rfl, by decide⟩⟩
theorem witness_PushPushesItsOperand :
    hasRoom (capped 1 1 (small 14 [] [])).cfg.dstackCap 0 = true ∧
    inBounds (small 14 [] []).cfg (adv (small 14 [] []).cfg 14) = true ∧
    inBounds (small 15 [] []).cfg (adv (small 15 [] []).cfg 15) = false ∧
    inBounds (capped 0 0 (small 15 [] [])).cfg (adv (small 15 [] []).cfg 15) = false ∧
    (machine 16 0 [] [] [16, 9]).Enabled ∧ inBounds (small 0 [] []).cfg 0 = true ∧
    (machine 16 0 [] [] [16, 9]).memRead 0 = OpNum.default.num .push := by decide
theorem witness_StackShapes :
    (capped 4 0 (small 3 [3, 2, 1] [])).StacksWithin ∧ (small 3 [3] []).ds = 3 :: [] ∧
    hasRoom (capped 4 0 (small 3 [3, 2, 1] [])).cfg.dstackCap 3 = true ∧ (small 3 [3, 2] []).ds = 3 :: 2 :: [] ∧
    (small 3 [3, 2, 1] []).ds = 3 :: 2 :: 1 :: [] ∧ (small 3 [3, 2] []).ds.length < dataPops .rol3 := by decide
theorem witness_ReturnStackInstructions :
    hasRoom (capped 1 1 (small 14 [] [])).cfg.rstackCap 0 = true ∧
    inBounds (small 14 [] []).cfg (adv (small 14 [] []).cfg 14) = true ∧
    inBounds (small 15 [] []).cfg (adv (small 15 [] []).cfg 15) = false ∧ (small 3 [] [15]).rs = 15 :: [] ∧
    inBounds (small 3 [] []).cfg 15 = true ∧ inBounds (small 3 [] []).cfg 16 = false ∧
    (small 3 [] []).rs = [] ∧ (small 3 [] []).cfg.underflow = .halt := by decide
/-- A machine at a call of address 8. -/
def atCall : State := machine 16 0 [] [] [20, 5, 16, 8, 13]
theorem witness_CallSequenceCallsAndReturns :
    atCall.cfg.wf = true ∧ atCall.Enabled ∧ atCall.ip = 0 ∧ 0 ≤ S 0 ∧ S 0 + 5 < (atCall.cfg.memWords : Int) ∧
    hasRoom atCall.cfg.dstackCap atCall.ds.length = true ∧ hasRoom atCall.cfg.rstackCap atCall.rs.length = true ∧
    inBounds atCall.cfg 8 = true ∧ (8 : Word) ≠ 0 + 4 ∧ atCall.memRead 0 = atCall.cfg.opnum.num .puship ∧
    atCall.memRead (0 + 1) = 0 + 5 ∧ atCall.memRead (0 + 2) = atCall.cfg.opnum.num .push ∧ atCall.memRead (0 + 3) = 8 ∧
    atCall.memRead (0 + 4) = atCall.cfg.opnum.num .jmp := by decide
theorem witness_UnderflowHalts :
    (small 3 [1, 2] []).cfg.underflow = .halt ∧ (small 3 [1, 2] []).ds.length < dataPops (Instr.opcode .rol3) ∧
    (small 3 [] []).rs.length < returnPops (Instr.opcode .popip) := by decide
theorem witness_UnderflowContinuesWithZero :
    (continuing (small 3 [7] [])).cfg.underflow = .continueWithZero ∧ (continuing (small 3 [7] [])).fault = none ∧
    (continuing (small 3 [7] [])).ds.length < dataPops (Instr.opcode .sub) ∧
    (continuing (small 3 [7] [])).cfg.wf = true ∧ (continuing (small 3 [7] [])).rs = [] := by decide
theorem witness_UnderflowContinuesWithZero_padded :
    ∃ t, exec .sub { continuing (small 3 [7] []) with
      ds := [7] ++ List.replicate (dataPops .sub - 1) 0,
      diags := [] ++ List.replicate (dataPops .sub - 1) (.runtime (.stackUnderflow .data .sub)) } = .next t := ⟨_, rfl⟩
theorem witness_OutOfBoundsAddressStops :
    inBounds (small 3 [] []).cfg 16 = false ∧ inBounds (small 3 [] []).cfg 0xFFFFFFFF = false ∧
    (small 3 [16] []).ds = 16 :: [] ∧ (small 3 [16, 1] []).ds = 16 :: 1 :: [] ∧ (small 3 [0, 16] []).ds = 0 :: 16 :: [] ∧
    (1 : Word) ≠ 0 ∧ (small 3 [1, 16] []).ds = 1 :: 16 :: [] ∧ (small 3 [] [16]).rs = 16 :: [] := by decide
theorem witness_FullStackOverflows :
    (capped 1 1 (small 3 [5] [6])).cfg.dstackCap = some (capped 1 1 (small 3 [5] [6])).ds.length ∧
    inBounds (small 3 [] []).cfg (adv (small 3 [] []).cfg 3) = true ∧ (capped 1 1 (small 3 [5] [6])).ds ≠ [] ∧
    (capped 1 1 (small 3 [5] [6])).input.ended = true ∧
    (reading [1] false (capped 1 1 (small 3 [5] [6]))).input.pending ≠ [] ∧
    (capped 1 1 (small 3 [5] [6])).cfg.rstackCap = some (capped 1 1 (small 3 [5] [6])).rs.length := by decide
theorem witness_FaultsArePrecise :
    ∃ t, (machine 16 0 [5] [] [1]).Enabled ∧ step (machine 16 0 [5] [] [1]) = .next t ∧ t.fault ≠ none :=
  ⟨_, by decide, rfl, by decide⟩
theorem witness_FaultsArePrecise_continuing :
    ∃ t, (continuing (machine 16 0 [99] [] [12])).Enabled ∧ step (continuing (machine 16 0 [99] [] [12])) = .next t ∧
      t.fault ≠ none ∧ t.diags.length = 2 := ⟨_, by decide, rfl, by decide, by decide⟩
theorem witness_DiagnosticsOnlyGrow :
    ∃ t, step (machine 16 0 [5] [] []) = .next t ∧ (machine 16 0 [5] [] []).cfg.underflow = .halt ∧ t.fault = none :=
  ⟨_, rfl, by decide, by decide⟩
theorem witness_InstructionPointerAfterEachInstruction :
    (small 3 [0, 9] []).fault = none ∧
    (∃ t, exec .jz (small 3 [0, 9] []) = .next t ∧ t.fault = none ∧ t.ip = 9) ∧
    (∃ t, exec .jz (small 3 [0, 16] []) = .next t ∧ t.fault ≠ none ∧ t.ip = 3) :=
  ⟨by decide, ⟨_, rfl, by decide, by decide⟩, ⟨_, rfl, by decide, by decide⟩⟩
theorem witness_AdvIsTheNextAddress :
    (small 15 [] []).cfg.wf = true ∧ inBounds (small 15 [] []).cfg 15 = true ∧
    (small 15 [] []).cfg.ipOverflow = .fault ∧ (wrapping (small 15 [] [])).cfg.ipOverflow = .wrapToZero ∧
    (wrapping (small 15 [] [])).cfg.wf = true ∧ inBounds (wrapping (small 15 [] [])).cfg 15 = true := by decide
theorem witness_StepKeepsTheInvariant : storingNext.Inv ∧ ∃ t, step storingNext = .next t := ⟨storingNext_inv, _, rfl⟩
theorem witness_ResetGivesTheResetValues :
    ((small 3 [1] [2]).takeFault (.ipOutOfBounds 16)).running = false ∧
    ((small 3 [1] [2]).takeFault (.ipOutOfBounds 16)).fault ≠ none := by decide
theorem witness_ResetGivesTheResetValues_rebound :
    ∃ t, rebindOutput 7 ((small 3 [1] [2]).takeFault (.ipOutOfBounds 16)) = .next t := ⟨_, rfl⟩
theorem witness_RunStartsAtZero :
    (fresh 16).running = false ∧ (fresh 16).fault = none ∧ (fresh 16).phase = .reset ∧
    (fresh 16).beginFill.phase = .fill ∧ (fresh 16).beginFill.asmDiag = [] ∧
    S (fresh 16).wp < ((fresh 16).cfg.memWords : Int) ∧ ((fresh 16).cfg.memWords : Int) ≤ S { fresh 16 with wp := 16 }.wp ∧
    bytesWords .little [1, 2, 3] = none ∧ bytesWords .little [16, 0, 0, 0] = some [16] ∧
    ((fresh 16).beginFill.reportAsm (.imageTooLarge 16) none).running = false ∧
    ((fresh 16).beginFill.reportAsm (.imageTooLarge 16) none).fault = none ∧
    ((fresh 16).beginFill.reportAsm (.imageTooLarge 16) none).phase = .fill ∧
    ((fresh 16).beginFill.reportAsm (.imageTooLarge 16) none).asmDiag ≠ [] := by decide
theorem witness_RunStartsAtZero_after_a_run :
    (∃ t, exec .jmp (small 3 [3] []) = .next t ∧ t.running = false ∧ t.fault = none ∧ t.phase = .run) ∧
    ((small 3 [] []).takeFault (.ipOutOfBounds 16)).running = false ∧
    ((small 3 [] []).takeFault (.ipOutOfBounds 16)).fault ≠ none ∧ (small 3 [] []).running = true :=
  ⟨⟨_, rfl, by decide, by decide, by decide⟩, by decide, by decide, by decide⟩
theorem witness_InstructionFrames :
    (∃ t, exec .add (small 3 [1, 2] []) = .next t ∧ t.fault = none) ∧ (small 3 [1, 2] []).fault = none ∧
    (Instr.add ≠ .inp ∧ Instr.add ≠ .out ∧ Instr.add ≠ .outnum ∧ Instr.add ≠ .jmp) ∧
    usesDataStack (Instr.opcode .dropip) = false ∧ usesReturnStack (Instr.opcode .add) = false :=
  ⟨⟨_, rfl, by decide⟩, by decide, by decide, by decide, by decide⟩
theorem witness_StacksAreIndependent :
    usesReturnStack (Instr.opcode .add) = false ∧ usesDataStack (Instr.opcode (.puship 3)) = false := by decide
theorem witness_NextTokenSplitsTheText :
    ascii "; a\nb" = ascii "; a" ++ 0x0A :: ascii "b" ∧ 0x0A ∉ ascii "; a" ∧ 0x0A ∉ ascii "" ∧
    ascii "\nb" = [] ++ 0x0A :: ascii "b" := by decide
theorem witness_SourceFormsExpand :
    (fresh 5).cfg.wf = true ∧ 0 ≤ S (fresh 5).wp ∧ S (fresh 5).wp + 5 ≤ ((fresh 5).cfg.memWords : Int) ∧
    S { fresh 5 with wp := 4 }.wp + 1 ≤ ((fresh 5).cfg.memWords : Int) ∧
    S { fresh 5 with wp := 3 }.wp + 2 ≤ ((fresh 5).cfg.memWords : Int) ∧
    S { fresh 5 with wp := 2 }.wp + 3 ≤ ((fresh 5).cfg.memWords : Int) ∧
    (2147483647 : Nat) ≤ 2147483647 ∧ 2147483647 < (2147483648 : Nat) ∧ upper (ascii "Here") = here ∧
    upper (ascii "a") ≠ here ∧ lookup { fresh 5 with labels := [(ascii "A", 0)] } (ascii "a") = some 0 ∧
    lookup (fresh 5) (ascii "a") = none := by decide
theorem witness_EmitRefusesPastMemory :
    ((fresh 8).cfg.memWords : Int) ≤ S { fresh 8 with wp := 8 }.wp ∧
    S { fresh 8 with wp := 7 }.wp < ((fresh 8).cfg.memWords : Int) := by decide
/-- A machine of nine Words that has run before: it has written and read bytes and holds Words in memory and on its stack. -/
def ranBefore : State :=
  { machine 9 0 [5] [] [16, 2, 13, 7] with running := false, out := [65], inPos := 2 }
/-- The state after reset and the compile phase of vector A1, in a memory the program fills exactly. -/
def compiledA1 : State := assemble (ascii "&end JMP ; skip\n65 OUT\nend:") ranBefore.toReset.beginFill
theorem compiledA1_accepted :
    hostAssemble (ascii "&end JMP ; skip\n65 OUT\nend:") ranBefore.toReset = .next compiledA1 := rfl
theorem witness_EveryImageEndsInAHalt :
    ranBefore.cfg.wf = true ∧ compiledA1.compiled = true ∧ hasRoom ranBefore.cfg.dstackCap 0 = true := by decide
theorem witness_EveryForwardReferenceIsPatched :
    ranBefore.cfg.wf = true ∧ compiledA1.compiled = true ∧ (ascii "end", 1) ∈ compiledA1.fwd := by decide
theorem witness_TablesAreInOrder :
    ranBefore.cfg.wf = true ∧ compiledA1.compiled = true ∧ (ascii "END", 6) ∈ compiledA1.labels ∧
    (assemble (ascii "p: q: 1 r: &here") ranBefore.toReset.beginFill).labels = [(ascii "P", 0), (ascii "Q", 0), (ascii "R", 2)] ∧
    (assemble (ascii "a b") (fresh 16)).fwd = [(ascii "a", 3), (ascii "b", 8)] := by decide
theorem witness_AssemblyErrorsAreReported :
    (∃ src u e v, ScanAt (ascii "&here") (fresh 9) src u ∧
      emitToken (tokenAt src) (classify (tokenAt src)) u = .error e v) ∧
    (∃ src u v, ScanAt (ascii "") (fresh 9) src u ∧ tokenAt src = [] ∧ emitToken [] .endOfStream u = .ok () v) :=
  ⟨⟨_, _, _, _, .start, rfl⟩, ⟨_, _, _, .start, rfl, rfl⟩⟩
theorem witness_AssemblyErrorsAreReported_unresolved :
    ∃ src u v, ScanAt (ascii "f") (fresh 9) src u ∧ tokenAt src = [] ∧ emitToken [] .endOfStream u = .ok () v ∧
      v.fwd = [(ascii "f", 3)] ∧ lookup v (ascii "f") = none :=
  ⟨_, _, _, .token .start (by decide) rfl, rfl, rfl, by decide, by decide⟩
theorem witness_TokenClasses :
    (ascii "add").head? ≠ some 0x3B ∧ upper (ascii "pUsH") = ascii (mnemonicOf .push) ∧
    upper (ascii "halt") = ascii "HALT" ∧ ascii "007" ≠ [] ∧ (ascii "007").all isDigit = true ∧
    (ascii "x").getLast? ≠ some 0x3A ∧ (0x41 : Byte) ≠ 0x5C ∧ (ascii "q'").getLast? ≠ some 0x3A ∧
    ascii "q'" ∉ [[0x74, 0x27], [0x72, 0x27], [0x6E, 0x27], [(0x30 : Byte), 0x27]] := by decide
theorem witness_TokenClasses_bareWord :
    ascii "f1" ≠ [] ∧ upper (ascii "f1") ≠ ascii "HALT" ∧ (ascii "f1").head? ≠ some 0x3B ∧
    (ascii "f1").getLast? ≠ some 0x3A ∧ opcodeOf (ascii "f1") = none ∧ (ascii "f1").head? ≠ some 0x26 ∧
    (ascii "f1").all isDigit = false ∧ (∀ c : Byte, c ≠ 0x5C → ascii "f1" ≠ [0x27, c, 0x27]) ∧
    (∀ rest : Token, ascii "f1" ≠ 0x27 :: 0x5C :: rest) :=
  ⟨by decide, by decide, by decide, by decide, by decide, by decide, by decide, by simp [ascii], by simp [ascii]⟩
theorem witness_EarliestLabelWins :
    let s := { fresh 9 with labels := [(ascii "X", 0)] ++ (upper (ascii "y"), 1) :: [(ascii "Y", 2)] }
    upper (ascii "y") ≠ here ∧ s.labels = [(ascii "X", 0)] ++ (upper (ascii "y"), 1) :: [(ascii "Y", 2)] ∧
    (∀ e ∈ [(ascii "X", (0 : Word))], e.1 ≠ upper (ascii "y")) ∧ (∀ e ∈ s.labels, e.1 ≠ upper (ascii "z")) ∧
    upper (ascii "here") = here := by decide
theorem witness_CompiledMachineIsReadyToRun :
    ranBefore.cfg.wf = true ∧ compiledA1.compiled = true := by decide
theorem witness_ProgramEndIsPastTheLastWord :
    Memory.wf [(0, 16), (1, 5)] = true ∧ 0 < Memory.programEnd [(0, 16), (1, 5)] ∧ Memory.wf [] = true := by decide
theorem witness_ProgramEndIsPastTheLastWord_empty : ∀ n : Nat, Memory.read [] n = 0 := fun _ => rfl
/-- A machine that has halted after storing a Word. -/
def halted : State := { machine 9 0 [] [] [16, 2, 13, 7] with running := false }
theorem witness_SavedImageLoadsBack :
    halted.mem.wf = true ∧ memWithin halted.cfg halted.mem = true ∧ halted.running = false ∧ halted.phase = .run ∧
    halted.cfg.memWords ≤ (fresh 9).cfg.memWords ∧ (fresh 9).cfg.imageByteOrder = halted.cfg.imageByteOrder ∧
    (fresh 9).running = false ∧ (fresh 9).fault = none ∧ (fresh 9).phase ≠ .run ∧ (fresh 9).mem = [] := by decide
theorem fresh9_inv : (fresh 9).Inv :=
  ⟨by decide, by decide, by decide, by decide, by decide, by decide, by decide, by decide, by decide, by decide⟩
/-- A machine whose first Word was filled by the load port. -/
def filled9 : State := { (fresh 9).beginFill with mem := [(0, 16)], wp := 1 }
theorem filled9_inv : filled9.Inv :=
  ⟨by decide, by decide, by decide, by decide, by decide, by decide, by decide, by decide, by decide, by decide⟩
theorem witness_HostMovesKeepTheInvariant :
    (fresh 9).Inv ∧ (∃ t, hostEmit 16 (fresh 9) = .next t) ∧ filled9.Inv ∧ ∃ t, hostRun filled9 = .next t :=
  ⟨fresh9_inv, ⟨_, rfl⟩, filled9_inv, ⟨_, rfl⟩⟩
theorem witness_ResetMeetsTheInvariant : Config.default.wf = true ∧ (fresh 1).cfg.wf = true ∧ halted.cfg.wf = true := by
  decide

end Sys2Proof.Tests
end

section
/-! SUPPORT. What a one-operand and a two-operand instruction do (00_scope.md rule R11): the whole next state where the data
stack holds the Words they pop, and the underflow stop.  An instruction is brought to its shape once, by its `exec_` equation. -/

namespace Sys2Proof.Machine

/-! ### A rule that begins with a pop -/

theorem dpop_bind_cons {op : Opcode} {s : State} {v : Word} {t : List Word} (h : s.ds = v :: t) {β : Type}
    (f : Word → Exec β) : (dpop op >>= f) s = f v { s with ds := t } := bind_of_ok (dpop_cons h) f

theorem dpop_bind_nil_halt {op : Opcode} {s : State} (h : s.ds = []) (hp : s.cfg.underflow = .halt) {β : Type}
    (f : Word → Exec β) : (dpop op >>= f) s = .error (.raise (.stackUnderflow .data op)) s :=
  bind_of_error (dpop_nil_halt h hp) f

theorem dpush_bind_room {op : Opcode} {v : Word} {s : State} (h : hasRoom s.cfg.dstackCap s.ds.length = true) {β : Type}
    (f : Unit → Exec β) : (dpush op v >>= f) s = f () { s with ds := v :: s.ds } := bind_of_ok (dpush_room h) f

/-- A data stack within its cap has room for one Word again once a Word was popped from it. -/
theorem State.StacksWithin.room_of_lt {s : State} (hw : s.StacksWithin) {k : Nat} (hk : k < s.ds.length) :
    hasRoom s.cfg.dstackCap k = true := hasRoom_of_within hw.1 hk

/-! ### The two shapes -/

theorem unary_ok {op : Opcode} {f : Word → Word} {s : State} {a : Word} {t : List Word} (hw : s.StacksWithin)
    (hd : s.ds = a :: t) : unary op f s = .ok () { s with ds := f a :: t, ip := adv s.cfg s.ip } := by
  have room : hasRoom s.cfg.dstackCap t.length = true := hw.room_of_lt (by simp [hd])
  rw [unary, dpop_bind_cons hd, dpush_bind_room room, advance_apply]

theorem binary_ok {op : Opcode} {f : Word → Word → Word} {s : State} {a b : Word} {t : List Word} (hw : s.StacksWithin)
    (hd : s.ds = a :: b :: t) : binary op f s = .ok () { s with ds := f a b :: t, ip := adv s.cfg s.ip } := by
  have room : hasRoom s.cfg.dstackCap t.length = true := hw.room_of_lt (by simp [hd])
  rw [binary, dpop_bind_cons hd, dpop_bind_cons rfl, dpush_bind_room room, advance_apply]

theorem unary_underflow {op : Opcode} {f : Word → Word} {s : State} (hp : s.cfg.underflow = .halt) (hd : s.ds = []) :
    unary op f s = .error (.raise (.stackUnderflow .data op)) s := dpop_bind_nil_halt hd hp _

/-- Where the stack holds one Word, the first pop has taken it when the second raises. -/
theorem binary_underflow {op : Opcode} {f : Word → Word → Word} {s : State} (hp : s.cfg.underflow = .halt)
    (hl : s.ds.length < 2) : binary op f s = .error (.raise (.stackUnderflow .data op)) { s with ds := [] } := by
  match hd : s.ds with
  | [] =>
    have hs : { s with ds := [] } = s := by rw [← hd]
    rw [binary, dpop_bind_nil_halt hd hp, hs]
  | [a] => exact (dpop_bind_cons hd _).trans (dpop_bind_nil_halt (s := { s with ds := [] }) rfl hp _)
  | a :: b :: t => simp [hd] at hl

/-! ### An instruction of one of the two shapes -/

section
variable {i : Instr} {s : State}

theorem exec_of_unary {f : Word → Word} (hi : exec i s = complete (unary i.opcode f) s) (hw : s.StacksWithin) {a : Word}
    {t : List Word} (hd : s.ds = a :: t) : exec i s = .next { s with ds := f a :: t, ip := adv s.cfg s.ip } :=
  hi.trans (complete_of_ok (unary_ok hw hd))

theorem exec_of_binary {f : Word → Word → Word} (hi : exec i s = complete (binary i.opcode f) s) (hw : s.StacksWithin)
    {a b : Word} {t : List Word} (hd : s.ds = a :: b :: t) :
    exec i s = .next { s with ds := f a b :: t, ip := adv s.cfg s.ip } :=
  hi.trans (complete_of_ok (binary_ok hw hd))

theorem stopsOnUnderflow_of_unary {f : Word → Word} (hi : exec i s = complete (unary i.opcode f) s)
    (hn : dataPops i.opcode = 1) : StopsOnUnderflow i s := by
  intro hp hl
  have hd : s.ds = [] := List.length_eq_zero_iff.1 (by omega)
  exact hi.trans (complete_of_raise (unary_underflow hp hd))

theorem stopsOnUnderflow_of_binary {f : Word → Word → Word} (hi : exec i s = complete (binary i.opcode f) s)
    (hn : dataPops i.opcode = 2) : StopsOnUnderflow i s := by
  intro hp hl
  rw [hi, complete_of_raise (binary_underflow hp (hn ▸ hl))]

end

/-! ### The arithmetic and logic instructions (40_arith_logic.md) -/

section
variable (s : State)

theorem exec_nop : exec .nop s = .next { s with ip := adv s.cfg s.ip } := complete_of_ok (advance_apply s)

theorem exec_add : exec .add s = complete (binary .add fun a b => w32 (S a + S b)) s := rfl

theorem exec_sub : exec .sub s = complete (binary .sub fun a b => w32 (S b - S a)) s := rfl

theorem exec_and : exec .and s = complete (binary .and fun a b => a &&& b) s := rfl

theorem exec_or : exec .or s = complete (binary .or fun a b => a ||| b) s := rfl

theorem exec_xor : exec .xor s = complete (binary .xor fun a b => a ^^^ b) s := rfl

theorem exec_not : exec .not s = complete (unary .not logicalNot) s := rfl

theorem exec_compl : exec .compl s = complete (unary .compl fun a => a ^^^ 0xFFFFFFFF) s := rfl

end

@[simp] theorem isZero_iff (a : Word) : isZero a = true ↔ a = 0 := beq_iff_eq

theorem logicalNot_eq (a : Word) : logicalNot a = if a = 0 then 1 else 0 := by simp only [logicalNot, isZero_iff]

/-- Inverting every bit of a Word, read as a signed value (rule R97). -/
theorem S_xor_ones (a : Word) : S (a ^^^ 0xFFFFFFFF) = - S a - 1 := by
  have hnot : a ^^^ 0xFFFFFFFF = ~~~a := BitVec.xor_allOnes
  rw [hnot, S, S, BitVec.toInt_eq_toNat_cond, BitVec.toInt_eq_toNat_cond, BitVec.toNat_not]
  split <;> split <;> omega

/-! ### The statements of the family -/

/-- Settles O9: the rule of `NOP` is one `advance`. -/
theorem nopOnlyAdvances : Obligations.NopOnlyAdvances := ⟨rfl, exec_nop⟩

/-- Settles O10: `ADD` and `SUB` have the two-operand shape. -/
theorem addAndSubResults : Obligations.AddAndSubResults := by
  refine ⟨rfl, rfl, fun s hw => ⟨fun a b t hd => ⟨?add, ?sub⟩, ?addStops, ?subStops⟩⟩
  case add => exact exec_of_binary (exec_add s) hw hd
  case sub => exact exec_of_binary (exec_sub s) hw hd
  case addStops => exact stopsOnUnderflow_of_binary (exec_add s) rfl
  case subStops => exact stopsOnUnderflow_of_binary (exec_sub s) rfl

/-- Settles O12: `AND`, `OR` and `XOR` have the two-operand shape, and the library says what each bit of their result is. -/
theorem bitwiseResults : Obligations.BitwiseResults := by
  refine ⟨rfl, rfl, rfl, fun s hw => ⟨fun a b t hd => ⟨?and, ?or, ?xor, fun k _ => ⟨?andBit, ?orBit, ?xorBit⟩⟩,
    ?andStops, ?orStops, ?xorStops⟩⟩
  case and => exact exec_of_binary (exec_and s) hw hd
  case or => exact exec_of_binary (exec_or s) hw hd
  case xor => exact exec_of_binary (exec_xor s) hw hd
  case andBit => exact BitVec.getLsbD_and
  case orBit => exact BitVec.getLsbD_or
  case xorBit => exact BitVec.getLsbD_xor
  case andStops => exact stopsOnUnderflow_of_binary (exec_and s) rfl
  case orStops => exact stopsOnUnderflow_of_binary (exec_or s) rfl
  case xorStops => exact stopsOnUnderflow_of_binary (exec_xor s) rfl

/-- Settles O13: `NOT` and `COMPL` have the one-operand shape, with `logicalNot` and the inversion of every bit. -/
theorem notAndComplResults : Obligations.NotAndComplResults := by
  refine ⟨rfl, rfl, fun s hw => ⟨fun a t hd => ⟨?not, ?compl, S_xor_ones a⟩, ?notStops, ?complStops⟩⟩
  case not => rw [exec_of_unary (exec_not s) hw hd, logicalNot_eq]
  case compl => exact exec_of_unary (exec_compl s) hw hd
  case notStops => exact stopsOnUnderflow_of_unary (exec_not s) rfl
  case complStops => exact stopsOnUnderflow_of_unary (exec_compl s) rfl

end Sys2Proof.Machine
end

section
/-! SUPPORT. What `OUT` and `OUTNUM` do (41_io.md rules R113, R114): the whole next state for every Word on top, the underflow
stop, and the zero popped from an empty stack.  Both have one shape and differ in the bytes they make of the popped Word. -/

namespace Sys2Proof.Machine

/-! ### A rule that begins with its only pop -/

theorem dpop_bind_nil_continue {op : Opcode} {s : State} (h : s.ds = []) (hp : s.cfg.underflow = .continueWithZero) {β : Type}
    (f : Word → Exec β) : (dpop op >>= f) s = f 0 (s.deliver (.stackUnderflow .data op)) :=
  bind_of_ok (dpop_nil_continue h hp) f

/-- Whatever an instruction does with the only Word it pops, on an empty stack it stops before doing it. -/
theorem stopsOnUnderflow_of_dpop {i : Instr} {s : State} {f : Word → Exec Unit}
    (hi : exec i s = complete (dpop i.opcode >>= f) s) (hn : dataPops i.opcode = 1) : StopsOnUnderflow i s := by
  intro hp hl
  have hd : s.ds = [] := List.length_eq_zero_iff.1 (by omega)
  exact hi.trans (complete_of_raise (dpop_bind_nil_halt hd hp f))

/-! ### The shape of an output instruction -/

/-- Pop `a`, write the bytes made of it, advance. -/
def popAndWrite (op : Opcode) (bytes : Word → List Byte) : Exec Unit := do
  let a ← dpop op
  putBytes (bytes a)
  advance

section
variable {i : Instr} {s : State} {bytes : Word → List Byte}

theorem exec_of_popAndWrite (hi : exec i s = complete (popAndWrite i.opcode bytes) s) {a : Word} {t : List Word}
    (hd : s.ds = a :: t) : exec i s = .next { s with ds := t, out := s.out ++ bytes a, ip := adv s.cfg s.ip } :=
  hi.trans (complete_of_ok (dpop_bind_cons hd _))

theorem exec_of_popAndWrite_continue (hi : exec i s = complete (popAndWrite i.opcode bytes) s)
    (hp : s.cfg.underflow = .continueWithZero) (hd : s.ds = []) :
    exec i s = .next { s with out := s.out ++ bytes 0, ip := adv s.cfg s.ip,
                              diags := s.diags ++ [.runtime (.stackUnderflow .data i.opcode)] } :=
  hi.trans (complete_of_ok (dpop_bind_nil_continue hd hp _))

end

/-! ### The two output instructions -/

theorem exec_out (s : State) : exec .out s = complete (popAndWrite .out fun a => [lowByte a]) s := rfl

theorem exec_outnum (s : State) : exec .outnum s = complete (popAndWrite .outnum fun a => dec (S a)) s := rfl

/-- `bits[7:0]` of a Word is its unsigned value modulo 256. -/
theorem lowByte_eq (a : Word) : lowByte a = BitVec.ofNat 8 (U a % 256) :=
  BitVec.eq_of_toNat_eq (by simp [lowByte, U])

/-- `dec(0)` is the one digit `0` (rule R115). -/
theorem dec_zero : dec (S 0) = [0x30] := by decide

/-! ### The statements of the family -/

/-- Settles O16: `OUT` has the output shape, with the low byte as its only byte. -/
theorem outWritesTheLowByte : Obligations.OutWritesTheLowByte := by
  refine ⟨rfl, fun s => ⟨fun a t hd => ?writes, ?stops, fun hp hd => ?continues⟩⟩
  case writes => rw [exec_of_popAndWrite (exec_out s) hd, lowByte_eq]
  case stops => exact stopsOnUnderflow_of_dpop (exec_out s) rfl
  case continues => exact exec_of_popAndWrite_continue (exec_out s) hp hd

/-- Settles O17: `OUTNUM` has the output shape, with the numeral of the signed value as its bytes. -/
theorem outnumWritesTheNumeral : Obligations.OutnumWritesTheNumeral := by
  refine ⟨rfl, fun s => ⟨fun a t hd => ?writes, ?stops, fun hp hd => ?continues⟩⟩
  case writes => exact exec_of_popAndWrite (exec_outnum s) hd
  case stops => exact stopsOnUnderflow_of_dpop (exec_outnum s) rfl
  case continues => rw [exec_of_popAndWrite_continue (exec_outnum s) hp hd, dec_zero]; rfl

end Sys2Proof.Machine
end

section
/-! SUPPORT. What `LOAD` does (42_load_store.md rule R120): the whole next state for an address in bounds, the bounds fault for
one out of bounds, and the underflow stop, which comes first. -/

namespace Sys2Proof.Machine

/-! ### A rule that begins with a bounds check -/

theorem inBounds_eq_false_iff {cfg : Config} {a : Word} :
    inBounds cfg a = false ↔ S a < 0 ∨ (cfg.memWords : Int) ≤ S a := by
  rw [← Bool.not_eq_true, inBounds_iff]
  omega

theorem boundsCheck_bind_in {op : Opcode} {a : Word} {s : State} (h : inBounds s.cfg a = true) {β : Type}
    (f : Unit → Exec β) : (boundsCheck op a >>= f) s = f () s := bind_of_ok (boundsCheck_in h) f

theorem boundsCheck_bind_out {op : Opcode} {a : Word} {s : State} (h : inBounds s.cfg a = false) {β : Type}
    (f : Unit → Exec β) : (boundsCheck op a >>= f) s = .error (.raise (.addressOutOfBounds op a)) s :=
  bind_of_error (boundsCheck_out h) f

/-! ### `LOAD` -/

/-- What `LOAD` does with the address `a` it has popped. -/
def loadFrom (a : Word) : Exec Unit := do
  boundsCheck .load a
  let v ← loadWord a
  dpush .load v
  advance

theorem exec_load (s : State) : exec .load s = complete (dpop .load >>= loadFrom) s := rfl

theorem loadFrom_in {a : Word} {s : State} (hb : inBounds s.cfg a = true)
    (room : hasRoom s.cfg.dstackCap s.ds.length = true) :
    loadFrom a s = .ok () { s with ds := s.memRead a :: s.ds, ip := adv s.cfg s.ip } := by
  rw [loadFrom, boundsCheck_bind_in hb, bind_of_ok (loadWord_apply a s), dpush_bind_room room, advance_apply]

theorem loadFrom_out {a : Word} {s : State} (hb : inBounds s.cfg a = false) :
    loadFrom a s = .error (.raise (.addressOutOfBounds .load a)) s := boundsCheck_bind_out hb _

section
variable {s : State} {a : Word} {t : List Word}

theorem exec_load_in (hw : s.StacksWithin) (hd : s.ds = a :: t) (hb : inBounds s.cfg a = true) :
    exec .load s = .next { s with ds := s.memRead a :: t, ip := adv s.cfg s.ip } := by
  have room : hasRoom s.cfg.dstackCap t.length = true := hw.room_of_lt (by simp [hd])
  exact (exec_load s).trans (complete_of_ok ((dpop_bind_cons hd _).trans (loadFrom_in hb room)))

/-- The check raises after the pop, and completing the rule gives the popped Word back. -/
theorem exec_load_out (hd : s.ds = a :: t) (hb : inBounds s.cfg a = false) :
    exec .load s = .next (s.takeFault (.addressOutOfBounds .load a)) := by
  have raises : (dpop .load >>= loadFrom) s = .error (.raise (.addressOutOfBounds .load a)) { s with ds := t } :=
    (dpop_bind_cons hd _).trans (loadFrom_out hb)
  rw [exec_load, complete_of_raise raises]

end

/-! ### The statement of the family -/

/-- Settles O19: the pop decides on the underflow, and the bounds check of the popped address on the rest. -/
theorem loadReadsTheWord : Obligations.LoadReadsTheWord := by
  refine ⟨rfl, fun s hw => ⟨fun a t hd => ⟨fun hb => ?reads, fun hb => ?faults⟩, ?stops⟩⟩
  case reads => exact exec_load_in hw hd (inBounds_iff.2 hb)
  case faults => exact exec_load_out hd (inBounds_eq_false_iff.2 hb)
  case stops => exact stopsOnUnderflow_of_dpop (exec_load s) rfl

end Sys2Proof.Machine
end

section
/-! SUPPORT. What `JMP` does (43_jumps.md rules R130, R131): the whole next state for a target in bounds that is another address
and for the address of the `JMP` itself, the bounds fault for a target out of bounds, and the underflow stop, which comes first. -/

namespace Sys2Proof.Machine

/-- What `JMP` does with the target `a` it has popped. -/
def jumpOrHalt (a : Word) : Exec Unit := do
  boundsCheck .jmp a
  let ip ← currentIp
  if a = ip then stopRunning else setIp a

theorem exec_jmp (s : State) : exec .jmp s = complete (dpop .jmp >>= jumpOrHalt) s := rfl

theorem jumpOrHalt_in {a : Word} {s : State} (hb : inBounds s.cfg a = true) :
    jumpOrHalt a s = (if a = s.ip then stopRunning else setIp a) s := by
  rw [jumpOrHalt, boundsCheck_bind_in hb, bind_of_ok (currentIp_apply s)]

theorem jumpOrHalt_other {a : Word} {s : State} (hb : inBounds s.cfg a = true) (hne : a ≠ s.ip) :
    jumpOrHalt a s = .ok () { s with ip := a } := by rw [jumpOrHalt_in hb, if_neg hne, setIp_apply]

theorem jumpOrHalt_self {a : Word} {s : State} (hb : inBounds s.cfg a = true) (heq : a = s.ip) :
    jumpOrHalt a s = .ok () { s with running := false } := by rw [jumpOrHalt_in hb, if_pos heq, stopRunning_apply]

theorem jumpOrHalt_out {a : Word} {s : State} (hb : inBounds s.cfg a = false) :
    jumpOrHalt a s = .error (.raise (.addressOutOfBounds .jmp a)) s := boundsCheck_bind_out hb _

section
variable {s : State} {a : Word} {t : List Word}

theorem exec_jmp_transfers (hd : s.ds = a :: t) (hb : inBounds s.cfg a = true) (hne : a ≠ s.ip) :
    exec .jmp s = .next { s with ds := t, ip := a } :=
  (exec_jmp s).trans (complete_of_ok ((dpop_bind_cons hd _).trans (jumpOrHalt_other hb hne)))

theorem exec_jmp_halts (hd : s.ds = a :: t) (hb : inBounds s.cfg a = true) (heq : a = s.ip) :
    exec .jmp s = .next { s with ds := t, running := false } :=
  (exec_jmp s).trans (complete_of_ok ((dpop_bind_cons hd _).trans (jumpOrHalt_self hb heq)))

/-- The check raises after the pop, and completing the rule gives the popped target back. -/
theorem exec_jmp_out (hd : s.ds = a :: t) (hb : inBounds s.cfg a = false) :
    exec .jmp s = .next (s.takeFault (.addressOutOfBounds .jmp a)) := by
  have raises : (dpop .jmp >>= jumpOrHalt) s = .error (.raise (.addressOutOfBounds .jmp a)) { s with ds := t } :=
    (dpop_bind_cons hd _).trans (jumpOrHalt_out hb)
  rw [exec_jmp, complete_of_raise raises]

end

/-! ### The statement of the family -/

/-- Settles O24: the pop decides on the underflow, the bounds check of the popped target on the fault, and the comparison with
the address of the `JMP` on transfer or halt. -/
theorem jmpTransfersOrHalts : Obligations.JmpTransfersOrHalts := by
  refine ⟨rfl, fun s => ⟨fun a t hd => ⟨fun hb hne => ?transfers, fun hb heq => ?halts, fun hb => ?faults⟩, ?stops⟩⟩
  case transfers => exact exec_jmp_transfers hd hb hne
  case halts => exact exec_jmp_halts hd hb heq
  case faults => exact exec_jmp_out hd hb
  case stops => exact stopsOnUnderflow_of_dpop (exec_jmp s) rfl

end Sys2Proof.Machine
end

section
/-! SUPPORT. What `PUSH`, `DUP`, `SWAP`, `ROL3` and `DROP` do (44_stack_ops.md): the whole next state where the stack and the
operand allow it, the operand's bounds fault, and the underflow stop, for any number of leading pops. -/

namespace Sys2Proof.Machine

/-! ### A rule that begins with several pops -/

/-- Under `UNDERFLOW_POLICY = halt`, the rule raises `StackUnderflow(data, op)` where the data stack holds fewer than `k` Words,
and has by then done nothing but pop. -/
def RaisesBelow (op : Opcode) (k : Nat) (body : Exec Unit) : Prop :=
  ∀ s : State, s.cfg.underflow = .halt → s.ds.length < k →
    ∃ left, body s = .error (.raise (.stackUnderflow .data op)) { s with ds := left }

theorem raisesBelow_zero (op : Opcode) (body : Exec Unit) : RaisesBelow op 0 body :=
  fun _ _ hl => absurd hl (Nat.not_lt_zero _)

/-- One more pop in front asks for one more Word. -/
theorem RaisesBelow.dpop_bind {op : Opcode} {k : Nat} {f : Word → Exec Unit} (h : ∀ a, RaisesBelow op k (f a)) :
    RaisesBelow op (k + 1) (dpop op >>= f) := by
  intro s hp hl
  cases hd : s.ds with
  | nil => exact ⟨s.ds, dpop_bind_nil_halt hd hp f⟩
  | cons a t =>
    rw [dpop_bind_cons hd]
    exact h a { s with ds := t } hp (by simpa [hd] using hl)

/-- Completing the rule gives back what it has popped. -/
theorem stopsOnUnderflow_of_raisesBelow {i : Instr} {s : State} {body : Exec Unit} (hi : exec i s = complete body s)
    (h : RaisesBelow i.opcode (dataPops i.opcode) body) : StopsOnUnderflow i s := by
  intro hp hl
  obtain ⟨left, raises⟩ := h s hp hl
  rw [hi, complete_of_raise raises]

/-! ### A rule that begins with its operand's address -/

theorem operandAddress_bind_in {s : State} (h : inBounds s.cfg (adv s.cfg s.ip) = true) {β : Type} (f : Word → Exec β) :
    (operandAddress >>= f) s = f (adv s.cfg s.ip) s := bind_of_ok (operandAddress_in h) f

theorem operandAddress_bind_out {s : State} (h : inBounds s.cfg (adv s.cfg s.ip) = false) {β : Type} (f : Word → Exec β) :
    (operandAddress >>= f) s = .error (.raise (.ipOutOfBounds (adv s.cfg s.ip))) s := bind_of_error (operandAddress_out h) f

/-- The decoder's operand Word is memory's, where its address is in bounds (30_encoding.md rule R73). -/
theorem operandWord_in {s : State} (h : inBounds s.cfg (adv s.cfg s.ip) = true) :
    operandWord s = s.memRead (adv s.cfg s.ip) := if_pos h

/-- A step at an opcode's number executes that opcode with the operand Word (30_encoding.md rule R78). -/
theorem step_of_num {s : State} {op : Opcode} (hinj : s.cfg.opnum.injective = true) (he : s.Enabled)
    (hip : inBounds s.cfg s.ip = true) (hw : s.memRead s.ip = s.cfg.opnum.num op) :
    step s = exec (op.instr (operandWord s)) s := by
  have decoded : decodeOpcode s.cfg.opnum (s.memRead s.ip) = some op := hw ▸ decodeOpcode_num hinj op
  rw [step_enabled he, fetch_ok hip decoded]

/-! ### `PUSH` -/

/-- What `PUSH` does once it has the address `oa` of its operand. -/
def pushAndPass (imm oa : Word) : Exec Unit := do
  dpush .push imm
  advancePast oa

theorem exec_push (imm : Word) (s : State) : exec (.push imm) s = complete (operandAddress >>= pushAndPass imm) s := rfl

section
variable {s : State}

theorem exec_push_in (imm : Word) (room : hasRoom s.cfg.dstackCap s.ds.length = true)
    (hb : inBounds s.cfg (adv s.cfg s.ip) = true) :
    exec (.push imm) s = .next { s with ds := imm :: s.ds, ip := adv s.cfg (adv s.cfg s.ip) } :=
  (exec_push imm s).trans (complete_of_ok ((operandAddress_bind_in hb _).trans (dpush_bind_room room _)))

theorem exec_push_out (imm : Word) (hb : inBounds s.cfg (adv s.cfg s.ip) = false) :
    exec (.push imm) s = .next (s.takeFault (.ipOutOfBounds (adv s.cfg s.ip))) :=
  (exec_push imm s).trans (complete_of_raise (operandAddress_bind_out hb _))

end

/-! ### `DUP`, `SWAP`, `ROL3`, `DROP` -/

/-- What `DUP` does with the Word it has popped. -/
def pushTwice (a : Word) : Exec Unit := do
  dpush .dup a
  dpush .dup a
  advance

/-- What `SWAP` does with the two Words it has popped. -/
def pushSwapped (a b : Word) : Exec Unit := do
  dpush .swap a
  dpush .swap b
  advance

/-- What `ROL3` does with the three Words it has popped. -/
def pushRolled (a b c : Word) : Exec Unit := do
  dpush .rol3 b
  dpush .rol3 a
  dpush .rol3 c
  advance

section
variable (s : State)

theorem exec_dup : exec .dup s = complete (dpop .dup >>= pushTwice) s := rfl

theorem exec_swap : exec .swap s = complete (dpop .swap >>= fun a => dpop .swap >>= pushSwapped a) s := rfl

theorem exec_rol3 :
    exec .rol3 s = complete (dpop .rol3 >>= fun a => dpop .rol3 >>= fun b => dpop .rol3 >>= pushRolled a b) s := rfl

theorem exec_drop : exec .drop s = complete (dpop .drop >>= fun _ => advance) s := rfl

end

section
variable {s : State} {a b c : Word} {t : List Word}

/-- The pop frees the place of the first copy; the second needs the room there was before it. -/
theorem exec_dup_room (hw : s.StacksWithin) (hd : s.ds = a :: t) (room : hasRoom s.cfg.dstackCap s.ds.length = true) :
    exec .dup s = .next { s with ds := a :: a :: t, ip := adv s.cfg s.ip } := by
  have room₀ : hasRoom s.cfg.dstackCap t.length = true := hw.room_of_lt (by simp [hd])
  have room₁ : hasRoom s.cfg.dstackCap (a :: t).length = true := hd ▸ room
  refine (exec_dup s).trans (complete_of_ok ?_)
  rw [dpop_bind_cons hd, pushTwice, dpush_bind_room room₀, dpush_bind_room room₁, advance_apply]

theorem exec_swap_two (hw : s.StacksWithin) (hd : s.ds = a :: b :: t) :
    exec .swap s = .next { s with ds := b :: a :: t, ip := adv s.cfg s.ip } := by
  have room₀ : hasRoom s.cfg.dstackCap t.length = true := hw.room_of_lt (by simp [hd])
  have room₁ : hasRoom s.cfg.dstackCap (a :: t).length = true := hw.room_of_lt (by simp [hd])
  refine (exec_swap s).trans (complete_of_ok ?_)
  rw [dpop_bind_cons hd, dpop_bind_cons rfl, pushSwapped, dpush_bind_room room₀, dpush_bind_room room₁, advance_apply]

theorem exec_rol3_three (hw : s.StacksWithin) (hd : s.ds = a :: b :: c :: t) :
    exec .rol3 s = .next { s with ds := c :: a :: b :: t, ip := adv s.cfg s.ip } := by
  have room₀ : hasRoom s.cfg.dstackCap t.length = true := hw.room_of_lt (by simp only [hd, List.length_cons]; omega)
  have room₁ : hasRoom s.cfg.dstackCap (b :: t).length = true := hw.room_of_lt (by simp [hd])
  have room₂ : hasRoom s.cfg.dstackCap (a :: b :: t).length = true := hw.room_of_lt (by simp [hd])
  refine (exec_rol3 s).trans (complete_of_ok ?_)
  rw [dpop_bind_cons hd, dpop_bind_cons rfl, dpop_bind_cons rfl, pushRolled, dpush_bind_room room₀, dpush_bind_room room₁,
    dpush_bind_room room₂, advance_apply]

theorem exec_drop_one (hd : s.ds = a :: t) : exec .drop s = .next { s with ds := t, ip := adv s.cfg s.ip } :=
  (exec_drop s).trans (complete_of_ok (dpop_bind_cons hd _))

end

theorem swap_stopsOnUnderflow (s : State) : StopsOnUnderflow .swap s :=
  stopsOnUnderflow_of_raisesBelow (exec_swap s) (.dpop_bind fun _ => .dpop_bind fun _ => raisesBelow_zero _ _)

theorem rol3_stopsOnUnderflow (s : State) : StopsOnUnderflow .rol3 s :=
  stopsOnUnderflow_of_raisesBelow (exec_rol3 s)
    (.dpop_bind fun _ => .dpop_bind fun _ => .dpop_bind fun _ => raisesBelow_zero _ _)

/-! ### The statements of the family -/

/-- Settles O28: the check of the operand's address comes before the push, and a whole step is that `PUSH` with the operand the
fetch has read from memory. -/
theorem pushPushesItsOperand : Obligations.PushPushesItsOperand := by
  refine ⟨fun _ => rfl, fun s => ⟨fun imm room hb => ?pushes, fun imm hb => ?faults, fun room hinj he hip hb hw => ?steps⟩⟩
  case pushes => exact exec_push_in imm room hb
  case faults => exact exec_push_out imm hb
  case steps =>
    rw [step_of_num hinj he hip hw, operandWord_in hb]
    exact exec_push_in _ room hb

/-- Settles O29: each instruction pops its Words and pushes them back in its order, into the room the pops have made. -/
theorem stackShapes : Obligations.StackShapes := by
  refine ⟨rfl, rfl, rfl, rfl, fun s hw => ⟨fun a t hd => ⟨fun room => ?dup, ?drop⟩, fun a b t hd => ?swap,
    fun a b c t hd => ?rol3, ?dupStops, swap_stopsOnUnderflow s, rol3_stopsOnUnderflow s, ?dropStops⟩⟩
  case dup => exact exec_dup_room hw hd room
  case drop => exact exec_drop_one hd
  case swap => exact exec_swap_two hw hd
  case rol3 => exact exec_rol3_three hw hd
  case dupStops => exact stopsOnUnderflow_of_dpop (exec_dup s) rfl
  case dropStops => exact stopsOnUnderflow_of_dpop (exec_drop s) rfl

end Sys2Proof.Machine
end

section
/-! SUPPORT. What `PUSHIP`, `POPIP` and `DROPIP` do (45_ip_stack.md rules R160 to R162): the whole next state where `rs`, the
operand and the popped target allow it, the two bounds faults, and the underflow stop of the two that pop. -/

namespace Sys2Proof.Machine

/-! ### A rule that works on the return-address stack -/

theorem rpop_bind_cons {op : Opcode} {s : State} {v : Word} {t : List Word} (h : s.rs = v :: t) {β : Type}
    (f : Word → Exec β) : (rpop op >>= f) s = f v { s with rs := t } := bind_of_ok (rpop_cons h) f

theorem rpop_bind_nil_halt {op : Opcode} {s : State} (h : s.rs = []) (hp : s.cfg.underflow = .halt) {β : Type}
    (f : Word → Exec β) : (rpop op >>= f) s = .error (.raise (.stackUnderflow .ret op)) s :=
  bind_of_error (rpop_nil_halt h hp) f

theorem rpush_bind_room {op : Opcode} {v : Word} {s : State} (h : hasRoom s.cfg.rstackCap s.rs.length = true) {β : Type}
    (f : Unit → Exec β) : (rpush op v >>= f) s = f () { s with rs := v :: s.rs } := bind_of_ok (rpush_room h) f

/-- Whatever an instruction does with the Word it pops, on an empty `rs` it stops before doing it. -/
theorem exec_of_rpop_underflow {i : Instr} {s : State} {f : Word → Exec Unit}
    (hi : exec i s = complete (rpop i.opcode >>= f) s) (hr : s.rs = []) (hp : s.cfg.underflow = .halt) :
    exec i s = .next (s.takeFault (.stackUnderflow .ret i.opcode)) :=
  hi.trans (complete_of_raise (rpop_bind_nil_halt hr hp f))

/-! ### The three instructions -/

/-- What `PUSHIP` does once it has the address `oa` of its operand. -/
def pushReturnAndPass (imm oa : Word) : Exec Unit := do
  rpush .puship imm
  advancePast oa

/-- What `POPIP` does with the target `a` it has popped. -/
def returnTo (a : Word) : Exec Unit := do
  boundsCheck .popip a
  setIp a

section
variable (s : State)

theorem exec_puship (imm : Word) : exec (.puship imm) s = complete (operandAddress >>= pushReturnAndPass imm) s := rfl

theorem exec_popip : exec .popip s = complete (rpop .popip >>= returnTo) s := rfl

theorem exec_dropip : exec .dropip s = complete (rpop .dropip >>= fun _ => advance) s := rfl

end

theorem returnTo_in {a : Word} {s : State} (hb : inBounds s.cfg a = true) : returnTo a s = .ok () { s with ip := a } :=
  boundsCheck_bind_in hb _

theorem returnTo_out {a : Word} {s : State} (hb : inBounds s.cfg a = false) :
    returnTo a s = .error (.raise (.addressOutOfBounds .popip a)) s := boundsCheck_bind_out hb _

section
variable {s : State} {a : Word} {t : List Word}

theorem exec_puship_in (imm : Word) (room : hasRoom s.cfg.rstackCap s.rs.length = true)
    (hb : inBounds s.cfg (adv s.cfg s.ip) = true) :
    exec (.puship imm) s = .next { s with rs := imm :: s.rs, ip := adv s.cfg (adv s.cfg s.ip) } :=
  (exec_puship s imm).trans (complete_of_ok ((operandAddress_bind_in hb _).trans (rpush_bind_room room _)))

theorem exec_puship_out (imm : Word) (hb : inBounds s.cfg (adv s.cfg s.ip) = false) :
    exec (.puship imm) s = .next (s.takeFault (.ipOutOfBounds (adv s.cfg s.ip))) :=
  (exec_puship s imm).trans (complete_of_raise (operandAddress_bind_out hb _))

theorem exec_popip_in (hr : s.rs = a :: t) (hb : inBounds s.cfg a = true) :
    exec .popip s = .next { s with rs := t, ip := a } :=
  (exec_popip s).trans (complete_of_ok ((rpop_bind_cons hr _).trans (returnTo_in hb)))

/-- The check raises after the pop, and completing the rule gives the popped target back. -/
theorem exec_popip_out (hr : s.rs = a :: t) (hb : inBounds s.cfg a = false) :
    exec .popip s = .next (s.takeFault (.addressOutOfBounds .popip a)) := by
  have raises : (rpop .popip >>= returnTo) s = .error (.raise (.addressOutOfBounds .popip a)) { s with rs := t } :=
    (rpop_bind_cons hr _).trans (returnTo_out hb)
  rw [exec_popip, complete_of_raise raises]

theorem exec_dropip_one (hr : s.rs = a :: t) : exec .dropip s = .next { s with rs := t, ip := adv s.cfg s.ip } :=
  (exec_dropip s).trans (complete_of_ok (rpop_bind_cons hr _))

end

/-! ### The statement of the family -/

/-- Settles O30: the check of the operand's address comes before the push, and the pop before the check of the target, which
`DROPIP` does not make. -/
theorem returnStackInstructions : Obligations.ReturnStackInstructions := by
  refine ⟨fun _ => rfl, rfl, rfl, fun s => ⟨fun imm room hb => ?pushes, fun imm hb => ?pushFaults,
    fun a t hr => ⟨fun hb => ?returns, fun hb => ?returnFaults, ?drops⟩, fun hr hp => ⟨?popipStops, ?dropipStops⟩⟩⟩
  case pushes => exact exec_puship_in imm room hb
  case pushFaults => exact exec_puship_out imm hb
  case returns => exact exec_popip_in hr hb
  case returnFaults => exact exec_popip_out hr hb
  case drops => exact exec_dropip_one hr
  case popipStops => exact exec_of_rpop_underflow (exec_popip s) hr hp
  case dropipStops => exact exec_of_rpop_underflow (exec_dropip s) hr hp

end Sys2Proof.Machine
end

section
/-! SUPPORT. Resetting a stopped engine, and what keeps a latched fault (70_reset_and_hazards.md rule R250): the step and the
operations of the fill and of `run` answer no next state, rebinding and the moves of the input stream leave the fault as it is. -/

namespace Sys2Proof.Machine

/-! ### The host operations allowed whenever the engine is not stepping -/

theorem whenStopped_of_stopped {s : State} (h : s.running = false) (k : State → Answer) : whenStopped s k = k s := by
  simp [whenStopped, h]

theorem hostReset_of_stopped {s : State} (h : s.running = false) : hostReset s = .next s.toReset :=
  whenStopped_of_stopped h _

theorem rebindInput_next {s t : State} {input : InputStream} (h : rebindInput input s = .next t) :
    t = { s with input := input } := by
  obtain ⟨-, h⟩ := whenStopped_next h
  cases h
  rfl

theorem rebindOutput_next {s t : State} {n : Nat} (h : rebindOutput n s = .next t) : t = { s with outBinding := n } := by
  obtain ⟨-, h⟩ := whenStopped_next h
  cases h
  rfl

/-! ### The moves of the input stream (41_io.md rule R110) -/

@[simp] theorem supplyByte_fault (b : Byte) (s : State) : (supplyByte b s).fault = s.fault := by
  unfold supplyByte
  split <;> rfl

@[simp] theorem endInput_fault (s : State) : (endInput s).fault = s.fault := rfl

/-! ### What a latched fault stops -/

section
variable {s t : State}

theorem step_next_fault (h : step s = .next t) : s.fault = none :=
  (step_next_cases h).1.2

theorem hostRun_next_fault (h : hostRun s = .next t) : s.fault = none := by
  obtain ⟨-, hf, -⟩ := hostRun_next h
  exact hf

/-- For the load port, the compile phase and the image load alike. -/
theorem whenFilling_next_fault {k : State → Answer} (h : whenFilling s k = .next t) : s.fault = none := by
  obtain ⟨-, hf, -⟩ := whenFilling_next h
  exact hf

end

/-! ### The statement of the family -/

/-- Settles O42: with a fault latched, the step and the operations that come before the run have no next state, and every other
move but reset leaves `fault` as it is. -/
theorem resetGivesTheResetValues : Obligations.ResetGivesTheResetValues := by
  refine ⟨fun s hr => ⟨s.toReset, hostReset_of_stopped hr, ?values⟩, fun s t latched move => ?latched⟩
  case values => simp
  case latched =>
    obtain h | h | ⟨w, h⟩ | ⟨text, h⟩ | ⟨bytes, h⟩ | ⟨input, h⟩ | ⟨n, h⟩ | ⟨b, rfl⟩ | rfl := move
    · exact absurd (step_next_fault h) latched
    · exact absurd (hostRun_next_fault h) latched
    · exact absurd (whenFilling_next_fault h) latched
    · exact absurd (whenFilling_next_fault h) latched
    · exact absurd (whenFilling_next_fault h) latched
    · rw [rebindInput_next h]; exact latched
    · rw [rebindOutput_next h]; exact latched
    · rwa [supplyByte_fault]
    · rwa [endInput_fault]

end Sys2Proof.Machine
end

section
/-! SUPPORT. The decoder and the encoder against each other (30_encoding.md): what each answers by the format of the opcode, the
instruction table, and what the step does with what it has decoded. -/

namespace Sys2Proof

/-! ### Instructions by their opcode (rules R70, R71) -/

theorem Instr.exists_instr (i : Instr) : ∃ w, i = i.opcode.instr w := by
  cases i with
  | push imm => exact ⟨imm, rfl⟩
  | puship imm => exact ⟨imm, rfl⟩
  | _ => exact ⟨0, rfl⟩

/-- A format S opcode makes one instruction, whatever the Word. -/
theorem Opcode.instr_of_no_operand {op : Opcode} (h : op.hasOperand = false) (w : Word) : op.instr w = op.instr 0 := by
  cases op with
  | push => cases h
  | puship => cases h
  | _ => rfl

section
variable {t : OpNum} {op : Opcode} {w imm : Word} {rest : List Word}

theorem encode_instr_short (h : op.hasOperand = false) : encode t (op.instr w) = [t.num op] := by
  cases op with
  | push => cases h
  | puship => cases h
  | _ => rfl

theorem encode_instr_long (h : op.hasOperand = true) : encode t (op.instr w) = [t.num op, w] := by
  cases op with
  | push => rfl
  | puship => rfl
  | _ => cases h

theorem decode_short (hd : decodeOpcode t w = some op) (ho : op.hasOperand = false) :
    decode t (w :: rest) = .ok (op.instr 0, rest) := by simp only [decode, hd, ho]

theorem decode_long (hd : decodeOpcode t w = some op) (ho : op.hasOperand = true) :
    decode t (w :: imm :: rest) = .ok (op.instr imm, rest) := by simp only [decode, hd, ho]

end

/-- Everything the decoder accepts: one Word of format S, or two of format I. -/
theorem decode_ok_cases {t : OpNum} {ws rest : List Word} {i : Instr} (h : decode t ws = .ok (i, rest)) :
    ∃ w op, decodeOpcode t w = some op ∧
      ((op.hasOperand = false ∧ i = op.instr 0 ∧ ws = w :: rest) ∨
       (op.hasOperand = true ∧ ∃ imm, i = op.instr imm ∧ ws = w :: imm :: rest)) := by
  match ws with
  | [] => cases h
  | w :: ws =>
    cases hd : decodeOpcode t w with
    | none => simp [decode, hd] at h
    | some op =>
      refine ⟨w, op, hd, ?_⟩
      cases ho : op.hasOperand with
      | false =>
        rw [decode_short hd ho] at h
        cases h
        exact .inl ⟨rfl, rfl, rfl⟩
      | true =>
        match ws with
        | [] => simp [decode, hd, ho] at h
        | imm :: ws =>
          rw [decode_long hd ho] at h
          cases h
          exact .inr ⟨rfl, imm, rfl, rfl⟩

/-! ### Which Word is which opcode (rules R72, R76, R77) -/

theorem decodeOpcode_eq_none {t : OpNum} {w : Word} : decodeOpcode t w = none ↔ ∀ op, t.num op ≠ w := by
  simp [decodeOpcode, List.find?_eq_none, Opcode.mem_all]

/-- The opcodes listed under one number are the one that has it, under an injective map. -/
theorem Instr.wf_of_injective {t : OpNum} (h : t.injective = true) (i : Instr) : i.wf t = true := by
  have same : (fun op => t.num op == t.num i.opcode) = (fun op => op == i.opcode) := by
    funext op
    rw [Bool.eq_iff_iff, beq_iff_eq, beq_iff_eq]
    exact ⟨OpNum.num_inj h, congrArg _⟩
  have one : ∀ op : Opcode, Opcode.all.filter (· == op) = [op] := by
    intro op
    cases op <;> decide
  rw [Instr.wf, same, one, beq_self_eq_true]

theorem OpNum.default_num (op : Opcode) : OpNum.default.num op = BitVec.ofNat 32 op.index.val := by
  cases op <;> rfl

theorem Opcode.exists_index (k : Fin 24) : ∃ op : Opcode, op.index = k := by
  have listed : ∀ k : Fin 24, ∃ op ∈ Opcode.all, op.index = k := by decide
  obtain ⟨op, -, h⟩ := listed k
  exact ⟨op, h⟩

/-- Under the default map the illegal Words are those from 24 up (decision D1). -/
theorem decodeOpcode_default_eq_none {w : Word} : decodeOpcode OpNum.default w = none ↔ 24 ≤ U w := by
  rw [decodeOpcode_eq_none]
  constructor
  · intro h
    by_contra hlt
    obtain ⟨op, hop⟩ := Opcode.exists_index ⟨U w, by omega⟩
    refine h op ?_
    rw [OpNum.default_num, hop]
    exact BitVec.ofNat_toNat 32 w
  · rintro h op rfl
    have hlt := op.index.isLt
    rw [OpNum.default_num, U, BitVec.toNat_ofNat] at h
    omega

/-! ### The statements about the decoder -/

/-- Settles O1: the map is injective, so the opcode's number is read back, and its format says which Words follow. -/
theorem decodeGivesBackEncode : Obligations.DecodeGivesBackEncode := by
  intro t ht i
  refine ⟨Instr.wf_of_injective ht i, fun rest => ?_⟩
  obtain ⟨w, hi⟩ := i.exists_instr
  have hd := decodeOpcode_num ht i.opcode
  generalize i.opcode = op at hi hd
  subst hi
  cases ho : op.hasOperand with
  | false =>
    rw [encode_instr_short ho, Opcode.instr_of_no_operand ho w]
    exact decode_short hd ho
  | true =>
    rw [encode_instr_long ho]
    exact decode_long hd ho

/-- Settles O2: an accepted opcode Word is the opcode's number, and each format keeps the Words it has read. -/
theorem encodeGivesBackDecode : Obligations.EncodeGivesBackDecode := by
  intro t ws rest i h
  obtain ⟨w, op, hd, ⟨ho, rfl, rfl⟩ | ⟨ho, imm, rfl, rfl⟩⟩ := decode_ok_cases h
  · rw [encode_instr_short ho, num_of_decodeOpcode hd]
    rfl
  · rw [encode_instr_long ho, num_of_decodeOpcode hd]
    rfl

/-- Settles O3: `decode` finds the one opcode with the number, and the default numbers are those below 24. -/
theorem opcodeDecodingIsExact : Obligations.OpcodeDecodingIsExact := by
  refine ⟨fun t w => decodeOpcode_eq_none, fun t ht w op => ⟨fun h => ?isNum, fun h => ?isRead⟩,
    fun w => decodeOpcode_default_eq_none, ?placeholder⟩
  case isNum => exact (num_of_decodeOpcode h).symm
  case isRead => rw [h, decodeOpcode_num ht]
  case placeholder => exact decodeOpcode_default_eq_none.2 (by decide)

/-- Settles O4: each row is one or two fixed Words, which the decoder computes on. -/
theorem tableWordsDecode : Obligations.TableWordsDecode := by
  refine ⟨?_, ?_, ?_, ?_, ?_, ?_, ?_, ?_⟩ <;> rfl

namespace Machine

/-! ### The mnemonics (30_encoding.md rules R79 to R82) -/

theorem ascii_mnemonicOf_inj {a b : Opcode} (h : ascii (mnemonicOf a) = ascii (mnemonicOf b)) : a = b := by
  have nodup : (Opcode.all.map (fun op => ascii (mnemonicOf op))).Nodup := by decide
  exact List.inj_on_of_nodup_map nodup (Opcode.mem_all a) (Opcode.mem_all b) h

theorem opcodeOf_eq_some {t : Token} {op : Opcode} : opcodeOf t = some op ↔ upper t = ascii (mnemonicOf op) := by
  constructor
  · intro h
    have found := List.find?_some h
    exact (beq_iff_eq.1 found).symm
  · intro h
    cases hf : opcodeOf t with
    | none =>
      have absent := List.find?_eq_none.1 hf op (Opcode.mem_all op)
      simp [h] at absent
    | some op' =>
      have found := List.find?_some hf
      rw [ascii_mnemonicOf_inj ((beq_iff_eq.1 found).trans h)]

theorem upper_mnemonicOf (op : Opcode) : upper (ascii (mnemonicOf op)) = ascii (mnemonicOf op) := by
  cases op <;> decide

@[simp] theorem upper_length (t : Token) : (upper t).length = t.length := List.length_map _

theorem upper_getElem? {t : Token} {k : Nat} {b : Byte} (h : t[k]? = some b) : (upper t)[k]? = some (upperByte b) := by
  simp [upper, h]

theorem upperByte_letter {b : Byte} (h : 0x61 ≤ b.toNat ∧ b.toNat ≤ 0x7A) :
    upperByte b = BitVec.ofNat 8 (b.toNat - 0x20) := by
  rw [upperByte, if_pos h]
  apply BitVec.eq_of_toNat_eq
  rw [BitVec.toNat_sub, BitVec.toNat_ofNat, show (0x20 : Byte).toNat = 0x20 from rfl]
  omega

theorem upperByte_other {b : Byte} (h : b.toNat < 0x61 ∨ 0x7A < b.toNat) : upperByte b = b := if_neg (by omega)

/-- Settles O5: the mnemonics are distinct upper-case strings, and the folding is byte by byte. -/
theorem mnemonicTableIsExact : Obligations.MnemonicTableIsExact := by
  refine ⟨rfl, fun t op => opcodeOf_eq_some, fun op => ?canonical, fun t u h => ?folded, by decide,
    fun t => ⟨upper_length t, fun k b hb => ⟨fun letter => ?letter, fun other => ?other⟩⟩⟩
  case canonical => exact opcodeOf_eq_some.2 (upper_mnemonicOf op)
  case folded => rw [opcodeOf, opcodeOf, h]
  case letter => rw [upper_getElem? hb, upperByte_letter letter]
  case other => rw [upper_getElem? hb, upperByte_other other]

/-! ### The step and what it has decoded (30_encoding.md rule R78) -/

theorem step_stopped {s : State} {c : Cause} (h : s.fault = some c) : step s = .fault (.stopped c) := by
  simp [step, h]

theorem step_notRunning {s : State} (hf : s.fault = none) (hr : s.running = false) : step s = .fault .notRunning := by
  simp [step, hf, hr]

section
variable {s : State}

theorem step_out (he : s.Enabled) (h : inBounds s.cfg s.ip = false) :
    step s = .next (s.takeFault (.ipOutOfBounds s.ip)) := by rw [step_enabled he, fetch_out h]

theorem step_illegal (he : s.Enabled) (h : inBounds s.cfg s.ip = true)
    (hd : decodeOpcode s.cfg.opnum (s.memRead s.ip) = none) :
    step s = .next (s.takeFault (.illegalOpcode (s.memRead s.ip) s.ip)) := by rw [step_enabled he, fetch_illegal h hd]

theorem step_ok {op : Opcode} (he : s.Enabled) (h : inBounds s.cfg s.ip = true)
    (hd : decodeOpcode s.cfg.opnum (s.memRead s.ip) = some op) :
    step s = exec (op.instr (operandWord s)) s := by rw [step_enabled he, fetch_ok h hd]

end

/-- Settles O6: the latch and `running` decide whether the step is enabled, and the fetch what it does. -/
theorem stepRunsTheDecodedInstruction : Obligations.StepRunsTheDecodedInstruction :=
  fun _ => ⟨fun _ => step_stopped, step_notRunning, step_out, step_illegal, fun _ => step_ok⟩

/-- Settles O7: the first Word is the number of the opcode, and a second Word stands where the fetch takes its operand. -/
theorem stepRunsTheEncodedInstruction : Obligations.StepRunsTheEncodedInstruction := by
  intro s i hinj he hip words
  obtain ⟨w, hi⟩ := i.exists_instr
  generalize i.opcode = op at hi
  subst hi
  cases ho : op.hasOperand with
  | false =>
    rw [encode_instr_short ho] at words
    obtain h | ⟨-, h⟩ := words
    · rw [step_of_num hinj he hip (List.cons.inj h).1.symm, Opcode.instr_of_no_operand ho, Opcode.instr_of_no_operand ho w]
    · exact absurd (congrArg List.length h) (by simp)
  | true =>
    rw [encode_instr_long ho] at words
    obtain h | ⟨hb, h⟩ := words
    · exact absurd (congrArg List.length h) (by simp)
    · obtain ⟨hnum, hrest⟩ := List.cons.inj h
      rw [step_of_num hinj he hip hnum.symm, operandWord_in hb, (List.cons.inj hrest).1]

end Machine

end Sys2Proof
end

section
/-! SUPPORT. What `STOR`, `JZ` and `JNZ` do (42_load_store.md rule R121, 43_jumps.md rules R132 to R134): the whole next state for
two Words on the stack, the bounds faults, and the underflow stop; and the bounds fault of all six addressing instructions. -/

namespace Sys2Proof.Machine

/-! ### A rule that begins with two pops -/

theorem dpop_dpop_cons {op : Opcode} {s : State} {a b : Word} {t : List Word} (h : s.ds = a :: b :: t) {β : Type}
    (f : Word → Word → Exec β) : (dpop op >>= fun a => dpop op >>= f a) s = f a b { s with ds := t } := by
  rw [dpop_bind_cons h, dpop_bind_cons rfl]

theorem stopsOnUnderflow_of_dpop_dpop {i : Instr} {s : State} {f : Word → Word → Exec Unit}
    (hi : exec i s = complete (dpop i.opcode >>= fun a => dpop i.opcode >>= f a) s) (hn : dataPops i.opcode = 2) :
    StopsOnUnderflow i s :=
  stopsOnUnderflow_of_raisesBelow hi (hn ▸ .dpop_bind fun _ => .dpop_bind fun _ => raisesBelow_zero _ _)

section
variable {i : Instr} {s : State} {f : Word → Word → Exec Unit} {a b : Word} {t : List Word}

theorem exec_of_dpop_dpop_ok (hi : exec i s = complete (dpop i.opcode >>= fun a => dpop i.opcode >>= f a) s)
    (hd : s.ds = a :: b :: t) {u : State} (h : f a b { s with ds := t } = .ok () u) : exec i s = .next u :=
  hi.trans (complete_of_ok ((dpop_dpop_cons hd f).trans h))

/-- What the rule raises after its pops leaves the popped Words on the stack. -/
theorem exec_of_dpop_dpop_raise (hi : exec i s = complete (dpop i.opcode >>= fun a => dpop i.opcode >>= f a) s)
    (hd : s.ds = a :: b :: t) {c : Cause} (h : f a b { s with ds := t } = .error (.raise c) { s with ds := t }) :
    exec i s = .next (s.takeFault c) := by
  rw [hi, complete_of_raise ((dpop_dpop_cons hd f).trans h)]

end

/-! ### `STOR` -/

/-- What `STOR` does with the address `a` and the value `b` it has popped. -/
def storeAt (a b : Word) : Exec Unit := do
  boundsCheck .stor a
  storeWord a b
  advance

theorem exec_stor (s : State) : exec .stor s = complete (dpop .stor >>= fun a => dpop .stor >>= storeAt a) s := rfl

theorem storeAt_in {a b : Word} {s : State} (h : inBounds s.cfg a = true) :
    storeAt a b s = .ok () { s.memWrite a b with ip := adv s.cfg s.ip } := by
  rw [storeAt, boundsCheck_bind_in h, bind_of_ok (storeWord_apply a b s), advance_apply]
  rfl

theorem storeAt_out {a b : Word} {s : State} (h : inBounds s.cfg a = false) :
    storeAt a b s = .error (.raise (.addressOutOfBounds .stor a)) s := boundsCheck_bind_out h _

section
variable {s : State} {a b : Word} {t : List Word}

theorem exec_stor_in (hd : s.ds = a :: b :: t) (hb : inBounds s.cfg a = true) :
    exec .stor s = .next { s with mem := s.mem.write (addrIndex a) b, ds := t, ip := adv s.cfg s.ip } :=
  exec_of_dpop_dpop_ok (exec_stor s) hd (storeAt_in hb)

theorem exec_stor_out (hd : s.ds = a :: b :: t) (hb : inBounds s.cfg a = false) :
    exec .stor s = .next (s.takeFault (.addressOutOfBounds .stor a)) :=
  exec_of_dpop_dpop_raise (exec_stor s) hd (storeAt_out hb)

end

/-! ### `JZ` and `JNZ` -/

/-- Jump to `b` where `taken`, else go on. -/
def branch (op : Opcode) (taken : Bool) (b : Word) : Exec Unit := if taken then jumpTo op b else advance

theorem exec_jz (s : State) :
    exec .jz s = complete (dpop .jz >>= fun a => dpop .jz >>= branch .jz (isZero a)) s := rfl

theorem exec_jnz (s : State) :
    exec .jnz s = complete (dpop .jnz >>= fun a => dpop .jnz >>= branch .jnz (!isZero a)) s := by
  have inverted : ∀ a b, (if isZero a then advance else jumpTo .jnz b) = branch .jnz (!isZero a) b := by
    intro a b
    cases h : isZero a <;> simp [branch]
  show complete (dpop .jnz >>= fun a => dpop .jnz >>= fun b => if isZero a then advance else jumpTo .jnz b) s = _
  simp only [inverted]

theorem branch_untaken (op : Opcode) (b : Word) (s : State) :
    branch op false b s = .ok () { s with ip := adv s.cfg s.ip } := rfl

theorem branch_in {op : Opcode} {b : Word} {s : State} (h : inBounds s.cfg b = true) :
    branch op true b s = .ok () { s with ip := b } := boundsCheck_bind_in h _

theorem branch_out {op : Opcode} {b : Word} {s : State} (h : inBounds s.cfg b = false) :
    branch op true b s = .error (.raise (.addressOutOfBounds op b)) s := boundsCheck_bind_out h _

theorem isZero_eq_false {a : Word} (h : a ≠ 0) : isZero a = false := by
  rwa [← Bool.not_eq_true, isZero_iff]

section
variable {i : Instr} {s : State} {test : Word → Bool} {a b : Word} {t : List Word}

theorem exec_branch_untaken (hi : exec i s = complete (dpop i.opcode >>= fun a => dpop i.opcode >>= branch i.opcode (test a)) s)
    (hd : s.ds = a :: b :: t) (ht : test a = false) : exec i s = .next { s with ds := t, ip := adv s.cfg s.ip } :=
  exec_of_dpop_dpop_ok hi hd (ht ▸ branch_untaken i.opcode b _)

theorem exec_branch_in (hi : exec i s = complete (dpop i.opcode >>= fun a => dpop i.opcode >>= branch i.opcode (test a)) s)
    (hd : s.ds = a :: b :: t) (ht : test a = true) (hb : inBounds s.cfg b = true) :
    exec i s = .next { s with ds := t, ip := b } :=
  exec_of_dpop_dpop_ok hi hd (ht ▸ branch_in hb)

theorem exec_branch_out (hi : exec i s = complete (dpop i.opcode >>= fun a => dpop i.opcode >>= branch i.opcode (test a)) s)
    (hd : s.ds = a :: b :: t) (ht : test a = true) (hb : inBounds s.cfg b = false) :
    exec i s = .next (s.takeFault (.addressOutOfBounds i.opcode b)) :=
  exec_of_dpop_dpop_raise hi hd (ht ▸ branch_out hb)

end

/-! ### The statements of the family -/

/-- Settles O20: the pops decide on the underflow, and the bounds check of the address on the rest. -/
theorem storWritesTheWord : Obligations.StorWritesTheWord := by
  refine ⟨rfl, fun s => ⟨fun a b t hd => ⟨fun hb => ?writes, fun hb => ?faults⟩, ?stops⟩⟩
  case writes => exact exec_stor_in hd (inBounds_iff.2 hb)
  case faults => exact exec_stor_out hd (inBounds_eq_false_iff.2 hb)
  case stops => exact stopsOnUnderflow_of_dpop_dpop (exec_stor s) rfl

/-- Settles O25: both are one branch, on the zero test and on its inverse. -/
theorem conditionalJumps : Obligations.ConditionalJumps := by
  refine ⟨rfl, rfl, fun s => ⟨fun a b t hd => ⟨fun ha => ?jzGoesOn, fun ha hb => ?jzJumps, fun ha hb => ?jzFaults,
    fun ha => ?jnzGoesOn, fun ha hb => ?jnzJumps, fun ha hb => ?jnzFaults⟩, ?jzStops, ?jnzStops⟩⟩
  case jzGoesOn => exact exec_branch_untaken (exec_jz s) hd (isZero_eq_false ha)
  case jzJumps => exact exec_branch_in (exec_jz s) hd ((isZero_iff a).2 ha) hb
  case jzFaults => exact exec_branch_out (exec_jz s) hd ((isZero_iff a).2 ha) hb
  case jnzGoesOn => exact exec_branch_untaken (test := fun a => !isZero a) (exec_jnz s) hd (by simp [ha])
  case jnzJumps => exact exec_branch_in (test := fun a => !isZero a) (exec_jnz s) hd (by simp [isZero_eq_false ha]) hb
  case jnzFaults => exact exec_branch_out (test := fun a => !isZero a) (exec_jnz s) hd (by simp [isZero_eq_false ha]) hb
  case jzStops => exact stopsOnUnderflow_of_dpop_dpop (exec_jz s) rfl
  case jnzStops => exact stopsOnUnderflow_of_dpop_dpop (exec_jnz s) rfl

/-- Settles O34: each of the six instructions raises at the check of the popped address. -/
theorem outOfBoundsAddressStops : Obligations.OutOfBoundsAddressStops := by
  refine ⟨fun cfg a => inBounds_iff, fun s a hb => ⟨fun t hd => ⟨?load, ?jmp⟩, fun b t hd => ?stor, fun t hd => ?jz,
    fun b t hne hd => ?jnz, fun t hr => ?popip⟩⟩
  case load => exact exec_load_out hd hb
  case jmp => exact exec_jmp_out hd hb
  case stor => exact exec_stor_out hd hb
  case jz => exact exec_branch_out (exec_jz s) hd ((isZero_iff 0).2 rfl) hb
  case jnz => exact exec_branch_out (test := fun a => !isZero a) (exec_jnz s) hd (by simp [isZero_eq_false hne]) hb
  case popip => exact exec_popip_out hr hb

end Sys2Proof.Machine
end

section
/-! SUPPORT. Every instruction is one rule, completed (60_exceptions.md rule R222).  What a rule keeps, answers or does not see
follows from its primitives by one walk over the instructions, `rule_closed`; where `exec_body` of Laws/Moves.lean gives some rule
for one relation, this names the rule, so that several facts can speak of the same one. -/

namespace Sys2Proof.Machine

/-! ### The rule of each instruction -/

/-- `IN` (41_io.md rule R112), for the parameters `cfg`. -/
def readInput (cfg : Config) : Exec Unit := do
  let r ← takeInput
  dpush .inp (inputWord cfg r)
  advance

/-- The rule of an instruction, before it is completed. -/
def rule (cfg : Config) : Instr → Exec Unit
  | .nop => advance
  | .add => binary .add fun a b => w32 (S a + S b)
  | .sub => binary .sub fun a b => w32 (S b - S a)
  | .and => binary .and fun a b => a &&& b
  | .or => binary .or fun a b => a ||| b
  | .xor => binary .xor fun a b => a ^^^ b
  | .not => unary .not logicalNot
  | .compl => unary .compl fun a => a ^^^ 0xFFFFFFFF
  | .inp => readInput cfg
  | .out => popAndWrite .out fun a => [lowByte a]
  | .outnum => popAndWrite .outnum fun a => dec (S a)
  | .load => dpop .load >>= loadFrom
  | .stor => dpop .stor >>= fun a => dpop .stor >>= storeAt a
  | .jmp => dpop .jmp >>= jumpOrHalt
  | .jz => dpop .jz >>= fun a => dpop .jz >>= branch .jz (isZero a)
  | .jnz => dpop .jnz >>= fun a => dpop .jnz >>= branch .jnz (!isZero a)
  | .push imm => operandAddress >>= pushAndPass imm
  | .dup => dpop .dup >>= pushTwice
  | .swap => dpop .swap >>= fun a => dpop .swap >>= pushSwapped a
  | .rol3 => dpop .rol3 >>= fun a => dpop .rol3 >>= fun b => dpop .rol3 >>= pushRolled a b
  | .puship imm => operandAddress >>= pushReturnAndPass imm
  | .popip => rpop .popip >>= returnTo
  | .dropip => rpop .dropip >>= fun _ => advance
  | .drop => dpop .drop >>= fun _ => advance

theorem exec_eq_complete (i : Instr) (s : State) : exec i s = complete (rule s.cfg i) s := by
  cases i with
  | jnz => exact exec_jnz s
  | _ => rfl

/-! ### What holds of every rule -/

/-- A property of rules that sequencing keeps and that holds of the primitives every instruction may use. -/
structure Closed (P : ∀ α : Type, Exec α → Prop) : Prop where
  bind : ∀ {α β : Type} {x : Exec α} {f : α → Exec β}, P α x → (∀ a, P β (f a)) → P β (x >>= f)
  advance : P Unit advance
  setIp : ∀ w, P Unit (setIp w)
  advancePast : ∀ w, P Unit (advancePast w)
  boundsCheck : ∀ op w, P Unit (boundsCheck op w)
  operandAddress : P Word operandAddress
  currentIp : P Word currentIp
  loadWord : ∀ w, P Word (loadWord w)

/-- A closed property holds of an instruction's rule when it holds of the other primitives the instruction uses. -/
theorem rule_closed {P : ∀ α : Type, Exec α → Prop} (h : Closed P) (cfg : Config) (i : Instr)
    (hdpop : usesDataStack i.opcode = true → ∀ op, P Word (dpop op))
    (hdpush : usesDataStack i.opcode = true → ∀ op v, P Unit (dpush op v))
    (hrpop : usesReturnStack i.opcode = true → ∀ op, P Word (rpop op))
    (hrpush : usesReturnStack i.opcode = true → ∀ op v, P Unit (rpush op v))
    (htake : i = .inp → P InAnswer takeInput)
    (hput : i = .out ∨ i = .outnum → ∀ bs, P Unit (putBytes bs))
    (hstore : i = .stor → ∀ a v, P Unit (storeWord a v))
    (hstop : i = .jmp → P Unit stopRunning) : P Unit (rule cfg i) := by
  have binary : usesDataStack i.opcode = true → ∀ op f, P Unit (binary op f) := fun u op f =>
    h.bind (hdpop u op) fun _ => h.bind (hdpop u op) fun _ => h.bind (hdpush u op _) fun _ => h.advance
  have unary : usesDataStack i.opcode = true → ∀ op f, P Unit (unary op f) := fun u op f =>
    h.bind (hdpop u op) fun _ => h.bind (hdpush u op _) fun _ => h.advance
  have branch : ∀ op taken b, P Unit (branch op taken b) := by
    intro op taken b
    cases taken with
    | false => exact h.advance
    | true => exact h.bind (h.boundsCheck op b) fun _ => h.setIp b
  cases i with
  | nop => exact h.advance
  | add => exact binary rfl _ _
  | sub => exact binary rfl _ _
  | and => exact binary rfl _ _
  | or => exact binary rfl _ _
  | xor => exact binary rfl _ _
  | not => exact unary rfl _ _
  | compl => exact unary rfl _ _
  | inp => exact h.bind (htake rfl) fun _ => h.bind (hdpush rfl _ _) fun _ => h.advance
  | out => exact h.bind (hdpop rfl _) fun _ => h.bind (hput (.inl rfl) _) fun _ => h.advance
  | outnum => exact h.bind (hdpop rfl _) fun _ => h.bind (hput (.inr rfl) _) fun _ => h.advance
  | load =>
    exact h.bind (hdpop rfl _) fun a => h.bind (h.boundsCheck _ a) fun _ => h.bind (h.loadWord a) fun _ =>
      h.bind (hdpush rfl _ _) fun _ => h.advance
  | stor =>
    exact h.bind (hdpop rfl _) fun a => h.bind (hdpop rfl _) fun b => h.bind (h.boundsCheck _ a) fun _ =>
      h.bind (hstore rfl a b) fun _ => h.advance
  | jmp =>
    refine h.bind (hdpop rfl _) fun a => h.bind (h.boundsCheck _ a) fun _ => h.bind h.currentIp fun ip => ?_
    split
    · exact hstop rfl
    · exact h.setIp a
  | jz => exact h.bind (hdpop rfl _) fun _ => h.bind (hdpop rfl _) fun _ => branch _ _ _
  | jnz => exact h.bind (hdpop rfl _) fun _ => h.bind (hdpop rfl _) fun _ => branch _ _ _
  | push imm => exact h.bind h.operandAddress fun _ => h.bind (hdpush rfl _ _) fun _ => h.advancePast _
  | dup => exact h.bind (hdpop rfl _) fun _ => h.bind (hdpush rfl _ _) fun _ => h.bind (hdpush rfl _ _) fun _ => h.advance
  | swap =>
    exact h.bind (hdpop rfl _) fun _ => h.bind (hdpop rfl _) fun _ => h.bind (hdpush rfl _ _) fun _ =>
      h.bind (hdpush rfl _ _) fun _ => h.advance
  | rol3 =>
    exact h.bind (hdpop rfl _) fun _ => h.bind (hdpop rfl _) fun _ => h.bind (hdpop rfl _) fun _ =>
      h.bind (hdpush rfl _ _) fun _ => h.bind (hdpush rfl _ _) fun _ => h.bind (hdpush rfl _ _) fun _ => h.advance
  | puship imm => exact h.bind h.operandAddress fun _ => h.bind (hrpush rfl _ _) fun _ => h.advancePast _
  | popip => exact h.bind (hrpop rfl _) fun a => h.bind (h.boundsCheck _ a) fun _ => h.setIp a
  | dropip => exact h.bind (hrpop rfl _) fun _ => h.advance
  | drop => exact h.bind (hdpop rfl _) fun _ => h.advance

/-- A relation that holds along every move of `ip` is a closed property. -/
theorem Moves.closed {R : State → State → Prop} (refl : ∀ s, R s s) (trans : ∀ s t u, R s t → R t u → R s u)
    (ip : ∀ s w, R s { s with ip := w }) : Closed (fun _ => Moves R) where
  bind := Moves.bind trans
  advance := Moves.of_eq_ok advance_apply fun s => ip s _
  setIp w := Moves.of_eq_ok (setIp_apply w) fun s => ip s _
  advancePast w := Moves.of_eq_ok (advancePast_apply w) fun s => ip s _
  boundsCheck := Moves.boundsCheck refl
  operandAddress := Moves.operandAddress refl
  currentIp := Moves.of_eq_ok currentIp_apply refl
  loadWord w := Moves.of_eq_ok (loadWord_apply w) refl

/-! ### What an instruction that answers a next state has done -/

/-- The two ends of a completed rule that answers a next state. -/
theorem complete_next {body : Exec Unit} {s t : State} (h : complete body s = .next t) :
    body s = .ok () t ∨ ∃ c u, body s = .error (.raise c) u ∧ t = ({ s with diags := u.diags } : State).takeFault c := by
  obtain ⟨u, hb, hc⟩ | ⟨c, u, hb, hc⟩ | ⟨u, hb, hc⟩ := complete_cases body s <;> rw [hc] at h <;> cases h
  · exact .inl hb
  · exact .inr ⟨c, u, hb, rfl⟩

theorem exec_next {i : Instr} {s t : State} (h : exec i s = .next t) :
    rule s.cfg i s = .ok () t ∨
      ∃ c u, rule s.cfg i s = .error (.raise c) u ∧ t = ({ s with diags := u.diags } : State).takeFault c :=
  complete_next (exec_eq_complete i s ▸ h)

end Sys2Proof.Machine
end

section
/-! SUPPORT. What a rule keeps of the state: the frame of every instruction, wherever its rule ends or stops (10_state.md rules
R25, R32, R33, R36; 60_exceptions.md rules R221 to R223). -/

namespace Sys2Proof.Machine

/-- What the rule of `i` keeps between its start and any later point of it. -/
structure RuleMoves (i : Instr) (s t : State) : Prop where
  cfg : t.cfg = s.cfg
  outBinding : t.outBinding = s.outBinding
  phase : t.phase = s.phase
  wp : t.wp = s.wp
  labels : t.labels = s.labels
  fwd : t.fwd = s.fwd
  asmDiag : t.asmDiag = s.asmDiag
  fault : t.fault = s.fault
  running : i ≠ .jmp → t.running = s.running
  mem : i ≠ .stor → t.mem = s.mem
  input : i ≠ .inp → t.inPos = s.inPos ∧ t.input = s.input
  out : i ≠ .out → i ≠ .outnum → t.out = s.out
  written : s.out <+: t.out
  ds : usesDataStack i.opcode = false → t.ds = s.ds
  rs : usesReturnStack i.opcode = false → t.rs = s.rs
  depths : s.StacksWithin → t.StacksWithin
  /-- Only underflows are delivered before a rule ends, and under the halt policy not those either. -/
  diags : ∃ e, t.diags = s.diags ++ e ∧ (∀ d ∈ e, ∃ st op, d = .runtime (.stackUnderflow st op)) ∧
    (s.cfg.underflow = .halt → e = [])

namespace RuleMoves
variable {i : Instr} {s t u : State}

theorem refl (i : Instr) (s : State) : RuleMoves i s s where
  cfg := rfl
  outBinding := rfl
  phase := rfl
  wp := rfl
  labels := rfl
  fwd := rfl
  asmDiag := rfl
  fault := rfl
  running _ := rfl
  mem _ := rfl
  input _ := ⟨rfl, rfl⟩
  out _ _ := rfl
  written := List.prefix_refl _
  ds _ := rfl
  rs _ := rfl
  depths h := h
  diags := ⟨[], by simp⟩

theorem trans (h : RuleMoves i s t) (h' : RuleMoves i t u) : RuleMoves i s u where
  cfg := h'.cfg.trans h.cfg
  outBinding := h'.outBinding.trans h.outBinding
  phase := h'.phase.trans h.phase
  wp := h'.wp.trans h.wp
  labels := h'.labels.trans h.labels
  fwd := h'.fwd.trans h.fwd
  asmDiag := h'.asmDiag.trans h.asmDiag
  fault := h'.fault.trans h.fault
  running n := (h'.running n).trans (h.running n)
  mem n := (h'.mem n).trans (h.mem n)
  input n := ⟨(h'.input n).1.trans (h.input n).1, (h'.input n).2.trans (h.input n).2⟩
  out n m := (h'.out n m).trans (h.out n m)
  written := h.written.trans h'.written
  ds n := (h'.ds n).trans (h.ds n)
  rs n := (h'.rs n).trans (h.rs n)
  depths w := h'.depths (h.depths w)
  diags := by
    obtain ⟨e, he, hu, hh⟩ := h.diags
    obtain ⟨e', he', hu', hh'⟩ := h'.diags
    refine ⟨e ++ e', by rw [he', he, List.append_assoc], fun d hd => ?_, fun hp => ?_⟩
    · exact (List.mem_append.1 hd).elim (hu d) (hu' d)
    · rw [hh hp, hh' (h.cfg ▸ hp), List.append_nil]

theorem setIp (s : State) (w : Word) : RuleMoves i s { s with ip := w } := { refl i s with }

theorem deliver (hp : s.cfg.underflow = .continueWithZero) (st : StackId) (op : Opcode) :
    RuleMoves i s (s.deliver (.stackUnderflow st op)) :=
  { refl i s with diags := ⟨[_], rfl, fun d hd => ⟨st, op, List.mem_singleton.1 hd⟩, fun hh => by simp [hp] at hh⟩ }

theorem dpop (hi : usesDataStack i.opcode = true) {v : Word} {r : List Word} (hd : s.ds = v :: r) :
    RuleMoves i s { s with ds := r } :=
  { refl i s with
    ds := fun h => absurd (hi.symm.trans h) (by decide)
    depths := fun w => ⟨within_mono w.1 (by simp [hd]), w.2⟩ }

theorem dpush (hi : usesDataStack i.opcode = true) {v : Word} (room : hasRoom s.cfg.dstackCap s.ds.length = true) :
    RuleMoves i s { s with ds := v :: s.ds } :=
  { refl i s with
    ds := fun h => absurd (hi.symm.trans h) (by decide)
    depths := fun w => ⟨within_of_hasRoom room, w.2⟩ }

theorem rpop (hi : usesReturnStack i.opcode = true) {v : Word} {r : List Word} (hr : s.rs = v :: r) :
    RuleMoves i s { s with rs := r } :=
  { refl i s with
    rs := fun h => absurd (hi.symm.trans h) (by decide)
    depths := fun w => ⟨w.1, within_mono w.2 (by simp [hr])⟩ }

theorem rpush (hi : usesReturnStack i.opcode = true) {v : Word} (room : hasRoom s.cfg.rstackCap s.rs.length = true) :
    RuleMoves i s { s with rs := v :: s.rs } :=
  { refl i s with
    rs := fun h => absurd (hi.symm.trans h) (by decide)
    depths := fun w => ⟨w.1, within_of_hasRoom room⟩ }

theorem takeByte (hi : i = .inp) (s : State) (rest : List Byte) :
    RuleMoves i s { s with input := { s.input with pending := rest }, inPos := s.inPos + 1 } :=
  { refl i s with input := fun h => absurd hi h }

theorem putBytes (hi : i = .out ∨ i = .outnum) (s : State) (bs : List Byte) :
    RuleMoves i s { s with out := s.out ++ bs } :=
  { refl i s with
    out := fun h h' => (hi.elim h h').elim
    written := List.prefix_append _ _ }

theorem memWrite (hi : i = .stor) (s : State) (a v : Word) : RuleMoves i s (s.memWrite a v) :=
  { refl i s with mem := fun h => absurd hi h }

theorem stop (hi : i = .jmp) (s : State) : RuleMoves i s { s with running := false } :=
  { refl i s with running := fun h => absurd hi h }

end RuleMoves

/-- Along its rule an instruction keeps what `RuleMoves` says. -/
theorem rule_moves (cfg : Config) (i : Instr) : Moves (RuleMoves i) (rule cfg i) := by
  have refl := RuleMoves.refl i
  refine rule_closed (Moves.closed refl (fun _ _ _ => .trans) .setIp) cfg i ?dpop ?dpush ?rpop ?rpush ?take ?put ?store ?stop
  case dpop => exact fun hi => Moves.dpop refl (fun s v t => .dpop hi) fun s hp => .deliver hp _
  case dpush => exact fun hi => Moves.dpush refl fun s v => .dpush hi
  case rpop => exact fun hi => Moves.rpop refl (fun s v t => .rpop hi) fun s hp => .deliver hp _
  case rpush => exact fun hi => Moves.rpush refl fun s v => .rpush hi
  case take => exact fun hi => Moves.takeInput refl fun s b rest _ => .takeByte hi s rest
  case put => exact fun hi bs => Moves.of_eq_ok (putBytes_apply bs) fun s => .putBytes hi s bs
  case store => exact fun hi a v => Moves.of_eq_ok (storeWord_apply a v) fun s => .memWrite hi s a v
  case stop => exact fun hi => Moves.of_eq_ok stopRunning_apply (.stop hi)

/-- A next state keeps the instruction's frame, or is a fault taken after the diagnostics of its rule. -/
theorem exec_moved {i : Instr} {s t : State} (h : exec i s = .next t) :
    RuleMoves i s t ∨ ∃ c u, RuleMoves i s u ∧ t = ({ s with diags := u.diags } : State).takeFault c := by
  obtain ends | ⟨c, u, raises, rfl⟩ := exec_next h
  · exact .inl ((rule_moves _ i).of_ok ends)
  · exact .inr ⟨c, u, (rule_moves _ i).of_error raises, rfl⟩

/-- An instruction that leaves no fault latched has come to its end. -/
theorem exec_moved_of_no_fault {i : Instr} {s t : State} (h : exec i s = .next t) (hf : t.fault = none) :
    rule s.cfg i s = .ok () t ∧ RuleMoves i s t := by
  obtain ends | ⟨c, u, -, rfl⟩ := exec_next h
  · exact ⟨ends, (rule_moves _ i).of_ok ends⟩
  · cases hf

/-- An instruction that leaves a fault latched has raised it. -/
theorem exec_moved_of_fault {i : Instr} {s t : State} (h : exec i s = .next t) (hs : s.fault = none) (hf : t.fault ≠ none) :
    ∃ c u, RuleMoves i s u ∧ t = ({ s with diags := u.diags } : State).takeFault c := by
  obtain moved | raised := exec_moved h
  · exact absurd (moved.fault.trans hs) hf
  · exact raised

/-- Every step keeps the diagnostics it has found, and its fault, where it takes one, is delivered last. -/
theorem step_precise {s t : State} (h : step s = .next t) :
    (∃ op, decodeOpcode s.cfg.opnum (s.memRead s.ip) = some op ∧ rule s.cfg (op.instr (operandWord s)) s = .ok () t ∧
      RuleMoves (op.instr (operandWord s)) s t) ∨
    ∃ c e, t = ({ s with diags := s.diags ++ e } : State).takeFault c ∧
      (∀ d ∈ e, ∃ st op, d = .runtime (.stackUnderflow st op)) ∧ (s.cfg.underflow = .halt → e = []) := by
  obtain ⟨he, ⟨-, rfl⟩ | ⟨-, -, rfl⟩ | ⟨op, -, hd, hx⟩⟩ := step_next_cases h
  · exact .inr ⟨.ipOutOfBounds s.ip, [], by simp⟩
  · exact .inr ⟨.illegalOpcode (s.memRead s.ip) s.ip, [], by simp⟩
  · by_cases hf : t.fault = none
    · obtain ⟨ends, moved⟩ := exec_moved_of_no_fault hx hf
      exact .inl ⟨op, hd, ends, moved⟩
    · obtain ⟨c, u, moved, rfl⟩ := exec_moved_of_fault hx he.2 hf
      obtain ⟨e, hu, under, halt⟩ := moved.diags
      exact .inr ⟨c, e, by rw [hu], under, halt⟩

/-! ### `JMP`, which alone can halt -/

theorem jumpOrHalt_ok {a : Word} {s t : State} (h : jumpOrHalt a s = .ok () t) :
    inBounds s.cfg a = true ∧
      ((a ≠ s.ip ∧ t = { s with ip := a }) ∨ (a = s.ip ∧ t = { s with running := false })) := by
  cases hb : inBounds s.cfg a with
  | false => rw [jumpOrHalt_out hb] at h; cases h
  | true =>
    refine ⟨rfl, ?_⟩
    by_cases ha : a = s.ip
    · rw [jumpOrHalt_self hb ha] at h; cases h; exact .inr ⟨ha, rfl⟩
    · rw [jumpOrHalt_other hb ha] at h; cases h; exact .inl ⟨ha, rfl⟩

/-- A pop that ends on an empty stack is one under `continue_with_zero`. -/
theorem dpop_ok_policy {op : Opcode} {s t : State} {v : Word} (h : dpop op s = .ok v t) (hd : s.ds = []) :
    s.cfg.underflow = .continueWithZero := by
  cases hp : s.cfg.underflow with
  | halt => rw [dpop_nil_halt hd hp] at h; cases h
  | continueWithZero => rfl

/-- Where `JMP` comes to its end: the popped target is in bounds, and it is what `ip` then holds. -/
theorem rule_jmp_ok {cfg : Config} {s t : State} (h : rule cfg .jmp s = .ok () t) :
    inBounds s.cfg (s.ds.headD 0) = true ∧ t.ip = s.ds.headD 0 ∧
      (t.running = s.running ∨ t.ip = s.ip) ∧ (s.ds = [] → s.cfg.underflow = .continueWithZero) := by
  obtain ⟨a, u, hpop, hjump⟩ := bind_ok_iff.1 h
  obtain ⟨rfl, e, rfl, -⟩ := dpop_ok hpop
  obtain ⟨hb, ⟨-, rfl⟩ | ⟨ha, rfl⟩⟩ := jumpOrHalt_ok hjump
  · exact ⟨hb, rfl, .inl rfl, dpop_ok_policy hpop⟩
  · exact ⟨hb, ha.symm, .inr rfl, dpop_ok_policy hpop⟩

/-! ### The statements of the family -/

/-- Settles O27: a rule that comes to its end keeps `running`, but for a `JMP` to its own address. -/
theorem engineStopsInTwoWays : Obligations.EngineStopsInTwoWays := by
  intro s t he h stopped
  obtain ⟨op, hd, ends, moved⟩ | ⟨c, e, rfl, -⟩ := step_precise h
  · refine .inl ?_
    have kept : t.running ≠ s.running := by rw [stopped, he.1]; decide
    have jmp : op.instr (operandWord s) = .jmp := by
      by_contra hne
      exact kept (moved.running hne)
    have opJmp : op = .jmp := by rw [← Opcode.instr_opcode op (operandWord s), jmp]; rfl
    subst opJmp
    obtain ⟨-, hip, hrun, policy⟩ := rule_jmp_ok ends
    have self : t.ip = s.ip := hrun.resolve_left kept
    refine ⟨moved.fault.trans he.2, self, hd, ?_⟩
    cases hds : s.ds with
    | nil => exact .inr ⟨rfl, by rw [← self, hip, hds]; rfl, policy hds⟩
    | cons a r => exact .inl (by rw [← self, hip, hds]; rfl)
  · exact .inr ⟨c, rfl⟩

/-- Settles O36: what a raise leaves is the state before the instruction, with the fault taken and delivered last. -/
theorem faultsArePrecise : Obligations.FaultsArePrecise := by
  intro s t he h faulted
  obtain ⟨op, -, -, moved⟩ | ⟨c, e, rfl, under, halt⟩ := step_precise h
  · exact absurd (moved.fault.trans he.2) faulted
  · exact ⟨c, e, rfl, under, halt⟩

/-- Settles O37: a rule only appends diagnostics, and under the halt policy appends none before it raises. -/
theorem diagnosticsOnlyGrow : Obligations.DiagnosticsOnlyGrow := by
  intro s t h
  obtain ⟨op, -, -, moved⟩ | ⟨c, e, rfl, -, halt⟩ := step_precise h
  · obtain ⟨e, hds, -, halt⟩ := moved.diags
    exact ⟨⟨e, hds.symm⟩, fun hp _ => by rw [hds, halt hp, List.append_nil]⟩
  · exact ⟨⟨e ++ [.runtime c], by simp⟩, fun _ hf => nomatch hf⟩

end Sys2Proof.Machine
end

section
/-! SUPPORT. Where each instruction leaves `ip` and what `STOR` leaves of memory (10_state.md rules R21, R22, R28), and from these
and the frame of every instruction the invariant of the machine (rule R35). -/

namespace Sys2Proof.Machine

/-! ### Addresses -/

theorem inBounds_zero {cfg : Config} (h : cfg.wf = true) : inBounds cfg 0 = true := by
  have hm := memWords_bounds h
  have h0 : S 0 = 0 := BitVec.toInt_zero
  rw [inBounds_iff, h0]
  omega

/-- The signed value of the address after one in bounds. -/
theorem S_succ_of_inBounds {cfg : Config} {a : Word} (hc : cfg.wf = true) (ha : inBounds cfg a = true) :
    S (a + 1) = S a + 1 := by
  have hm := memWords_bounds hc
  have hb := inBounds_iff.1 ha
  exact S_add (k := 1) hb.1 (by omega)

/-- Settles O39: under `fault` the next address is the sum, and under `wrap_to_zero` the sum or, past the last address, 0. -/
theorem advIsTheNextAddress : Obligations.AdvIsTheNextAddress := by
  intro cfg a hc ha
  have hs := S_succ_of_inBounds hc ha
  have hb := inBounds_iff.1 ha
  refine ⟨fun hp => ?fault, fun hp => ?wrap⟩
  case fault =>
    simp only [adv, hp]
    rw [w32_succ, hs]
  case wrap =>
    by_cases last : S a + 1 < (cfg.memWords : Int)
    · rw [adv_of_lt last, inBounds_iff, hs, Int.emod_eq_of_lt (by omega) last]
      exact ⟨rfl, by omega, last⟩
    · have zero : adv cfg a = 0 := by
        simp only [adv, hp]
        exact if_pos (by omega)
      have full : S a + 1 = (cfg.memWords : Int) := by omega
      rw [zero, full, Int.emod_self]
      exact ⟨rfl, inBounds_zero hc⟩

/-! ### A rule up to its last primitive, which moves `ip` -/

/-- The parameters and `ip` are as they were. -/
def SameIp (s t : State) : Prop := t.cfg = s.cfg ∧ t.ip = s.ip

theorem SameIp.refl (s : State) : SameIp s s := ⟨rfl, rfl⟩

/-- Where the rule comes to its end, `ip` is one past where it was. -/
def Advances (x : Exec Unit) : Prop := ∀ s t, x s = .ok () t → t.ip = adv s.cfg s.ip

theorem advances_advance : Advances advance := by
  intro s t h
  cases h
  rfl

theorem Advances.bind {α : Type} {x : Exec α} {f : α → Exec Unit} (hx : Moves SameIp x) (hf : ∀ a, Advances (f a)) :
    Advances (x >>= f) := by
  intro s t h
  obtain ⟨a, u, h1, h2⟩ := bind_ok_iff.1 h
  obtain ⟨hcfg, hip⟩ := hx.of_ok h1
  rw [hf a u t h2, hcfg, hip]

section
variable (op : Opcode) (v : Word)

theorem sameIp_dpop : Moves SameIp (dpop op) :=
  Moves.dpop .refl (fun _ _ _ _ => ⟨rfl, rfl⟩) (fun _ _ _ => ⟨rfl, rfl⟩) op

theorem sameIp_dpush : Moves SameIp (dpush op v) := Moves.dpush .refl (fun _ _ _ => ⟨rfl, rfl⟩) op v

theorem sameIp_rpop : Moves SameIp (rpop op) :=
  Moves.rpop .refl (fun _ _ _ _ => ⟨rfl, rfl⟩) (fun _ _ _ => ⟨rfl, rfl⟩) op

theorem sameIp_boundsCheck : Moves SameIp (boundsCheck op v) := Moves.boundsCheck .refl op v

theorem advances_push : Advances (dpush op v >>= fun _ => advance) := .bind (sameIp_dpush op v) fun _ => advances_advance

end

theorem sameIp_takeInput : Moves SameIp takeInput := Moves.takeInput .refl fun _ _ _ _ => ⟨rfl, rfl⟩

theorem sameIp_putBytes (bs : List Byte) : Moves SameIp (putBytes bs) :=
  Moves.of_eq_ok (putBytes_apply bs) fun _ => ⟨rfl, rfl⟩

theorem sameIp_loadWord (a : Word) : Moves SameIp (loadWord a) := Moves.of_eq_ok (loadWord_apply a) .refl

theorem sameIp_storeWord (a v : Word) : Moves SameIp (storeWord a v) :=
  Moves.of_eq_ok (storeWord_apply a v) fun _ => ⟨rfl, rfl⟩

theorem advances_unary (op : Opcode) (f : Word → Word) : Advances (unary op f) :=
  .bind (sameIp_dpop op) fun _ => advances_push op _

theorem advances_binary (op : Opcode) (f : Word → Word → Word) : Advances (binary op f) :=
  .bind (sameIp_dpop op) fun _ => .bind (sameIp_dpop op) fun _ => advances_push op _

theorem advances_popAndWrite (op : Opcode) (bytes : Word → List Byte) : Advances (popAndWrite op bytes) :=
  .bind (sameIp_dpop op) fun _ => .bind (sameIp_putBytes _) fun _ => advances_advance

/-! ### The ends of the rules that do not just advance -/

/-- Two pops that end: their Words, and what they leave. -/
theorem dpop_dpop_ok {op : Opcode} {f : Word → Word → Exec Unit} {s t : State}
    (h : (dpop op >>= fun a => dpop op >>= f a) s = .ok () t) :
    ∃ e, f (s.ds.headD 0) (s.ds.tail.headD 0) { s with ds := s.ds.tail.tail, diags := s.diags ++ e } = .ok () t := by
  obtain ⟨a, u, h1, h⟩ := bind_ok_iff.1 h
  obtain ⟨b, v, h2, h⟩ := bind_ok_iff.1 h
  obtain ⟨rfl, e, rfl, -⟩ := dpop_ok h1
  obtain ⟨rfl, e', rfl, -⟩ := dpop_ok h2
  exact ⟨e ++ e', by rw [← List.append_assoc]; exact h⟩

/-- Control goes to `a`, an address in bounds. -/
def Lands (s : State) (a w : Word) : Prop := inBounds s.cfg a = true ∧ w = a

theorem branch_ok {op : Opcode} {taken : Bool} {b : Word} {s t : State} (h : branch op taken b s = .ok () t) :
    (taken = true → Lands s b t.ip) ∧ (taken = false → t.ip = adv s.cfg s.ip) := by
  cases taken with
  | false =>
    cases h
    exact ⟨nofun, fun _ => rfl⟩
  | true =>
    refine ⟨fun _ => ?_, nofun⟩
    cases hb : inBounds s.cfg b with
    | false => rw [branch_out hb] at h; cases h
    | true => rw [branch_in hb] at h; cases h; exact ⟨hb, rfl⟩

theorem storeAt_ok {a b : Word} {s t : State} (h : storeAt a b s = .ok () t) :
    inBounds s.cfg a = true ∧ t.mem = s.mem.write (addrIndex a) b := by
  cases hb : inBounds s.cfg a with
  | false => rw [storeAt_out hb] at h; cases h
  | true => rw [storeAt_in hb] at h; cases h; exact ⟨rfl, rfl⟩

/-- A rule that goes past its operand, whatever it pushes before that. -/
theorem operand_ok {x : Exec Unit} {s t : State} (hx : Moves SameIp x)
    (h : (operandAddress >>= fun oa => x >>= fun _ => advancePast oa) s = .ok () t) :
    inBounds s.cfg (adv s.cfg s.ip) = true ∧ t.ip = adv s.cfg (adv s.cfg s.ip) := by
  obtain ⟨oa, u, h1, h⟩ := bind_ok_iff.1 h
  obtain ⟨_, v, h2, h⟩ := bind_ok_iff.1 h
  obtain ⟨rfl, rfl, hb⟩ := operandAddress_ok h1
  obtain ⟨hcfg, -⟩ := hx.of_ok h2
  cases h
  exact ⟨hb, by rw [hcfg]⟩

theorem rule_popip_ok {cfg : Config} {s t : State} (h : rule cfg .popip s = .ok () t) : Lands s (s.rs.headD 0) t.ip := by
  obtain ⟨a, u, h1, h⟩ := bind_ok_iff.1 h
  obtain ⟨rfl, e, rfl, -⟩ := rpop_ok h1
  obtain ⟨_, v, h2, h⟩ := bind_ok_iff.1 h
  obtain ⟨rfl, hb⟩ := boundsCheck_ok h2
  cases h
  exact ⟨hb, rfl⟩

/-- Where `STOR` comes to its end: the Word its first pop yields is in bounds, and it is the address written. -/
theorem rule_stor_ok {cfg : Config} {s t : State} (h : rule cfg .stor s = .ok () t) :
    ∃ a b, storAddress s = some a ∧ inBounds s.cfg a = true ∧ t.mem = s.mem.write (addrIndex a) b := by
  have pops : storAddress s = some (s.ds.headD 0) := by
    obtain ⟨a, u, h1, -⟩ := bind_ok_iff.1 h
    rw [storAddress, h1, (dpop_ok h1).1]
  obtain ⟨e, h⟩ := dpop_dpop_ok h
  obtain ⟨hb, hm⟩ := storeAt_ok h
  exact ⟨_, _, pops, hb, hm⟩

/-! ### How each instruction leaves `ip` -/

/-- `w` is what `ip` can hold where the rule of `i`, started in `s`, has come to its end (rule R21). -/
def IpAfter (s : State) (w : Word) : Instr → Prop
  | .push _ => inBounds s.cfg (adv s.cfg s.ip) = true ∧ w = adv s.cfg (adv s.cfg s.ip)
  | .puship _ => inBounds s.cfg (adv s.cfg s.ip) = true ∧ w = adv s.cfg (adv s.cfg s.ip)
  | .jmp => Lands s (s.ds.headD 0) w
  | .jz => (s.ds.headD 0 = 0 → Lands s (s.ds.tail.headD 0) w) ∧ (s.ds.headD 0 ≠ 0 → w = adv s.cfg s.ip)
  | .jnz => (s.ds.headD 0 = 0 → w = adv s.cfg s.ip) ∧ (s.ds.headD 0 ≠ 0 → Lands s (s.ds.tail.headD 0) w)
  | .popip => Lands s (s.rs.headD 0) w
  | _ => w = adv s.cfg s.ip

theorem rule_ip {cfg : Config} {i : Instr} {s t : State} (h : rule cfg i s = .ok () t) : IpAfter s t.ip i := by
  cases i with
  | nop => exact advances_advance s t h
  | add => exact advances_binary _ _ s t h
  | sub => exact advances_binary _ _ s t h
  | and => exact advances_binary _ _ s t h
  | or => exact advances_binary _ _ s t h
  | xor => exact advances_binary _ _ s t h
  | not => exact advances_unary _ _ s t h
  | compl => exact advances_unary _ _ s t h
  | inp => exact Advances.bind sameIp_takeInput (fun _ => advances_push _ _) s t h
  | out => exact advances_popAndWrite _ _ s t h
  | outnum => exact advances_popAndWrite _ _ s t h
  | load =>
    exact Advances.bind (sameIp_dpop _) (fun a => .bind (sameIp_boundsCheck _ a) fun _ => .bind (sameIp_loadWord a) fun _ =>
      advances_push _ _) s t h
  | stor =>
    exact Advances.bind (sameIp_dpop _) (fun a => .bind (sameIp_dpop _) fun b => .bind (sameIp_boundsCheck _ a) fun _ =>
      .bind (sameIp_storeWord a b) fun _ => advances_advance) s t h
  | jmp =>
    obtain ⟨hb, hip, -⟩ := rule_jmp_ok h
    exact ⟨hb, hip⟩
  | jz =>
    obtain ⟨e, h⟩ := dpop_dpop_ok h
    exact ⟨fun hz => (branch_ok h).1 ((isZero_iff _).2 hz), fun hz => (branch_ok h).2 (isZero_eq_false hz)⟩
  | jnz =>
    obtain ⟨e, h⟩ := dpop_dpop_ok h
    exact ⟨fun hz => (branch_ok h).2 (by rw [(isZero_iff _).2 hz]; rfl),
      fun hz => (branch_ok h).1 (by rw [isZero_eq_false hz]; rfl)⟩
  | push imm => exact operand_ok (sameIp_dpush _ _) h
  | dup => exact Advances.bind (sameIp_dpop _) (fun _ => .bind (sameIp_dpush _ _) fun _ => advances_push _ _) s t h
  | swap =>
    exact Advances.bind (sameIp_dpop _) (fun _ => .bind (sameIp_dpop _) fun _ => .bind (sameIp_dpush _ _) fun _ =>
      advances_push _ _) s t h
  | rol3 =>
    exact Advances.bind (sameIp_dpop _) (fun _ => .bind (sameIp_dpop _) fun _ => .bind (sameIp_dpop _) fun _ =>
      .bind (sameIp_dpush _ _) fun _ => .bind (sameIp_dpush _ _) fun _ => advances_push _ _) s t h
  | puship imm => exact operand_ok (Moves.rpush .refl (fun _ _ _ => ⟨rfl, rfl⟩) _ _) h
  | popip => exact rule_popip_ok h
  | dropip => exact Advances.bind (sameIp_rpop _) (fun _ => advances_advance) s t h
  | drop => exact Advances.bind (sameIp_dpop _) (fun _ => advances_advance) s t h

/-- From an address in bounds every instruction leaves `ip` in its range. -/
theorem IpAfter.within {s : State} {w : Word} {i : Instr} (hc : s.cfg.wf = true) (hip : inBounds s.cfg s.ip = true)
    (h : IpAfter s w i) : ipWithin s.cfg w = true := by
  have lands : ∀ {a}, Lands s a w → ipWithin s.cfg w = true := by
    rintro a ⟨hb, rfl⟩
    exact ipWithin_of_inBounds hb
  have advances : w = adv s.cfg s.ip → ipWithin s.cfg w = true := by
    rintro rfl
    exact ipWithin_adv hc hip
  have passes : inBounds s.cfg (adv s.cfg s.ip) = true ∧ w = adv s.cfg (adv s.cfg s.ip) → ipWithin s.cfg w = true := by
    rintro ⟨hb, rfl⟩
    exact ipWithin_adv hc hb
  cases i with
  | push imm => exact passes h
  | puship imm => exact passes h
  | jmp => exact lands h
  | popip => exact lands h
  | jz =>
    by_cases hz : s.ds.headD 0 = 0
    · exact lands (h.1 hz)
    · exact advances (h.2 hz)
  | jnz =>
    by_cases hz : s.ds.headD 0 = 0
    · exact advances (h.1 hz)
    · exact lands (h.2 hz)
  | _ => exact advances h

/-- Settles O38: a raise gives back `ip` as it was, and every rule that comes to its end leaves it as the table says. -/
theorem instructionPointerAfterEachInstruction : Obligations.InstructionPointerAfterEachInstruction := by
  intro i s t hs h
  refine ⟨fun hf => ?raised, fun hf => ?ended⟩
  case raised =>
    obtain ⟨c, u, -, rfl⟩ := exec_moved_of_fault h hs hf
    rfl
  case ended =>
    have after := rule_ip (exec_moved_of_no_fault h hf).1
    cases i with
    | push imm => exact after.2
    | puship imm => exact after.2
    | jmp => exact after.2
    | popip => exact after.2
    | jz =>
      show t.ip = if s.ds.headD 0 = 0 then s.ds.tail.headD 0 else adv s.cfg s.ip
      split
      · next hz => exact (after.1 hz).2
      · next hz => exact after.2 hz
    | jnz =>
      show t.ip = if s.ds.headD 0 = 0 then adv s.cfg s.ip else s.ds.tail.headD 0
      split
      · next hz => exact after.1 hz
      · next hz => exact (after.2 hz).2
    | _ => exact after

/-! ### Memory -/

theorem mem_of_not_stor {i : Instr} {s t : State} (h : exec i s = .next t) (hi : i ≠ .stor) : t.mem = s.mem := by
  obtain moved | ⟨c, u, -, rfl⟩ := exec_moved h
  · exact moved.mem hi
  · rfl

theorem mem_of_stor {s t : State} (h : exec .stor s = .next t) :
    (∃ a b, storAddress s = some a ∧ inBounds s.cfg a = true ∧ t.mem = s.mem.write (addrIndex a) b) ∨ t.mem = s.mem := by
  obtain ends | ⟨c, u, -, rfl⟩ := exec_next h
  · exact .inl (rule_stor_ok ends)
  · exact .inr rfl

/-- Settles O22: only the rule of `STOR` writes, at the address its first pop yields. -/
theorem onlyStorWritesMemory : Obligations.OnlyStorWritesMemory := by
  intro i s t hw h
  refine ⟨fun hi n => by rw [mem_of_not_stor h hi], ?_⟩
  rintro rfl
  obtain ⟨a, b, ha, -, hm⟩ | hm := mem_of_stor h
  · refine ⟨fun a' ha' n hn => ?_, fun none => ?_⟩
    · obtain rfl : a = a' := Option.some.inj (ha.symm.trans ha')
      rw [hm, Memory.read_write hw, if_neg hn]
    · rw [none] at ha
      cases ha
  · exact ⟨fun _ _ n _ => by rw [hm], fun _ n => by rw [hm]⟩

/-! ### The invariant -/

/-- A machine that steps has been started by `run`. -/
theorem State.Inv.phase_of_enabled {s : State} (h : s.Inv) (he : s.Enabled) : s.phase = .run := by
  by_contra hp
  have stopped := (h.filling hp).2.2.2.1
  rw [he.1] at stopped
  cases stopped

/-- Taking a fault, after any diagnostics, keeps the invariant of a machine that steps. -/
theorem State.Inv.takeFault {s : State} (h : s.Inv) (he : s.Enabled) (ds : List Diagnostic) (c : Cause) :
    (({ s with diags := ds } : State).takeFault c).Inv where
  cfgWf := h.cfgWf
  memWf := h.memWf
  memIn := h.memIn
  ipIn := h.ipIn
  depths := h.depths
  stopped _ := rfl
  blank := h.blank
  filling hp := absurd (h.phase_of_enabled he) hp
  wpIn := h.wpIn
  fwdIn := h.fwdIn

/-- An instruction keeps memory canonical and within its bounds. -/
theorem exec_keeps_mem {i : Instr} {s t : State} (h : exec i s = .next t) (hw : s.mem.wf = true)
    (hb : memWithin s.cfg s.mem = true) : t.mem.wf = true ∧ memWithin s.cfg t.mem = true := by
  by_cases hi : i = .stor
  · subst hi
    obtain ⟨a, b, -, ha, hm⟩ | hm := mem_of_stor h <;> rw [hm]
    · exact ⟨Memory.write_wf hw _ _, Memory.write_within hb (addrIndex_lt ha) _⟩
    · exact ⟨hw, hb⟩
  · rw [mem_of_not_stor h hi]
    exact ⟨hw, hb⟩

/-- Settles O40: a fault changes nothing the invariant speaks of but the latch and `running`, and a rule that comes to its end
keeps its frame, leaves `ip` in its range and writes memory only in bounds. -/
theorem stepKeepsTheInvariant : Obligations.StepKeepsTheInvariant := by
  intro s t hs h
  obtain ⟨he, ⟨-, rfl⟩ | ⟨-, -, rfl⟩ | ⟨op, hip, -, hx⟩⟩ := step_next_cases h
  · exact hs.takeFault he s.diags _
  · exact hs.takeFault he s.diags _
  · by_cases hf : t.fault = none
    · obtain ⟨ends, moved⟩ := exec_moved_of_no_fault hx hf
      obtain ⟨memWf, memIn⟩ := exec_keeps_mem hx hs.memWf hs.memIn
      have phase : t.phase = .run := moved.phase.trans (hs.phase_of_enabled he)
      refine ⟨moved.cfg ▸ hs.cfgWf, memWf, moved.cfg ▸ memIn, moved.cfg ▸ (rule_ip ends).within hs.cfgWf hip,
        moved.depths hs.depths, absurd hf, fun hp => ?_, absurd phase, ?_, ?_⟩
      · rw [phase] at hp
        cases hp
      · rw [moved.wp, moved.cfg]
        exact hs.wpIn
      · rw [moved.fwd, moved.wp]
        exact hs.fwdIn
    · obtain ⟨c, u, -, rfl⟩ := exec_moved_of_fault hx he.2 hf
      exact hs.takeFault he u.diags c

theorem withinCap_zero (cap : Option Nat) : withinCap cap 0 = true := by
  cases cap with
  | none => rfl
  | some c => exact decide_eq_true (Nat.zero_le c)

theorem State.toReset_inv {s : State} (hc : s.cfg.wf = true) : s.toReset.Inv where
  cfgWf := hc
  memWf := Memory.wf_nil
  memIn := rfl
  ipIn := ipWithin_of_inBounds (inBounds_zero hc)
  depths := ⟨withinCap_zero _, withinCap_zero _⟩
  stopped _ := rfl
  blank _ := ⟨rfl, rfl, rfl, rfl, rfl⟩
  filling _ := ⟨rfl, rfl, rfl, rfl, rfl⟩
  wpIn := by simp [S]
  fwdIn _ he := absurd he List.not_mem_nil

/-- Settles O41: the reset values meet the invariant under any legal parameters, and a created machine is its own reset. -/
theorem resetMeetsTheInvariant : Obligations.ResetMeetsTheInvariant := by
  have created : ∀ cfg input ob, cfg.wf = true → (State.create cfg input ob).Inv := fun cfg input ob hc =>
    State.toReset_inv (s := State.create cfg input ob) hc
  exact ⟨created, fun s hc => State.toReset_inv hc, created _ _ _ (by decide)⟩

end Sys2Proof.Machine
end

section
/-! SUPPORT. `IN` and its stream (41_io.md rules R110, R112), which instructions answer a next state, the push on a full stack
(60_exceptions.md rules R225, R226), and the frame of every instruction with the stream in it. -/

namespace Sys2Proof.Machine

/-! ### `IN` -/

/-- What `IN` does with the answer of its stream. -/
def pushInput (cfg : Config) (r : InAnswer) : Exec Unit := do
  dpush .inp (inputWord cfg r)
  advance

theorem exec_inp (s : State) : exec .inp s = complete (takeInput >>= pushInput s.cfg) s := rfl

theorem zext8_eq (b : Byte) : zext8 b = BitVec.ofNat 32 b.toNat := BitVec.eq_of_toNat_eq (by simp [zext8])

theorem pushInput_room {cfg : Config} {r : InAnswer} {s : State} (room : hasRoom s.cfg.dstackCap s.ds.length = true) :
    pushInput cfg r s = .ok () { s with ds := inputWord cfg r :: s.ds, ip := adv s.cfg s.ip } := by
  rw [pushInput, dpush_bind_room room, advance_apply]

theorem dpush_bind_full {op : Opcode} {v : Word} {s : State} (h : hasRoom s.cfg.dstackCap s.ds.length = false) {β : Type}
    (f : Unit → Exec β) : (dpush op v >>= f) s = .error (.raise (.stackOverflow .data op)) s := bind_of_error (dpush_full h) f

theorem pushInput_full {cfg : Config} {r : InAnswer} {s : State} (full : hasRoom s.cfg.dstackCap s.ds.length = false) :
    pushInput cfg r s = .error (.raise (.stackOverflow .data .inp)) s := dpush_bind_full full _

section
variable {s : State}

theorem exec_inp_byte {b : Byte} {rest : List Byte} (hp : s.input.pending = b :: rest)
    (room : hasRoom s.cfg.dstackCap s.ds.length = true) :
    exec .inp s = .next { s with input := { s.input with pending := rest }, inPos := s.inPos + 1,
                                 ds := BitVec.ofNat 32 b.toNat :: s.ds, ip := adv s.cfg s.ip } := by
  rw [exec_inp, complete_of_ok ((bind_of_ok (takeInput_byte hp) _).trans (pushInput_room room)), ← zext8_eq]
  rfl

theorem exec_inp_eof (hp : s.input.pending = []) (he : s.input.ended = true)
    (room : hasRoom s.cfg.dstackCap s.ds.length = true) :
    exec .inp s = .next { s with ds := s.cfg.inEofWord :: s.ds, ip := adv s.cfg s.ip } :=
  (exec_inp s).trans (complete_of_ok ((bind_of_ok (takeInput_eof hp he) _).trans (pushInput_room room)))

theorem exec_inp_held (hp : s.input.pending = []) (he : s.input.ended = false) : exec .inp s = .fault .waitingForInput :=
  (exec_inp s).trans (complete_of_held (bind_of_error (takeInput_held hp he) _))

/-- The push raises after the byte was taken, and completing the rule gives it back (log 29). -/
theorem exec_inp_full (answers : s.input.pending ≠ [] ∨ s.input.ended = true)
    (full : hasRoom s.cfg.dstackCap s.ds.length = false) : exec .inp s = .next (s.takeFault (.stackOverflow .data .inp)) := by
  rw [exec_inp]
  obtain ⟨b, rest, -, h⟩ | ⟨-, -, h⟩ | ⟨hp, he, -⟩ := takeInput_cases s
  · rw [complete_of_raise ((bind_of_ok h _).trans (pushInput_full full))]
  · rw [complete_of_raise ((bind_of_ok h _).trans (pushInput_full full))]
  · simp [hp, he] at answers

end

/-- Settles O14: the stream's answer decides, and the push has room. -/
theorem inReadsOrIsHeld : Obligations.InReadsOrIsHeld :=
  ⟨rfl, fun _ => ⟨fun _ _ => exec_inp_byte, exec_inp_eof, exec_inp_held⟩⟩

theorem supplyByte_open {s : State} (he : s.input.ended = false) (b : Byte) :
    supplyByte b s = { s with input := { s.input with pending := s.input.pending ++ [b] } } := by
  simp [supplyByte, he]

/-- Settles O15: after either move the stream has an answer, and `IN` takes it. -/
theorem inputLiftsTheHold : Obligations.InputLiftsTheHold := by
  intro s hp he room
  refine ⟨exec_inp_held hp he, fun b => ?supplied, ?ended⟩
  case supplied =>
    rw [supplyByte_open he, hp]
    refine ⟨_, exec_inp_byte (s := { s with input := { s.input with pending := [b] } }) rfl room, rfl, rfl, ?_, rfl⟩
    rw [← hp]
  case ended => exact ⟨_, exec_inp_eof (s := endInput s) hp rfl room, rfl, rfl, rfl⟩

/-! ### Which instructions answer a next state -/

/-- The rule never holds the engine. -/
def NeverHeld {α : Type} (x : Exec α) : Prop := ∀ s t, x s ≠ .error .held t

theorem neverHeld_of_ok {α : Type} {x : Exec α} {g : State → α} {f : State → State} (h : ∀ s, x s = .ok (g s) (f s)) :
    NeverHeld x := by
  intro s t
  rw [h s]
  nofun

theorem neverHeld_dpop (op : Opcode) : NeverHeld (dpop op) := by
  intro s t
  obtain ⟨_, _, -, h⟩ | ⟨-, -, h⟩ | ⟨-, -, h⟩ := dpop_cases op s <;> rw [h] <;> nofun

theorem neverHeld_rpop (op : Opcode) : NeverHeld (rpop op) := by
  intro s t
  obtain ⟨_, _, -, h⟩ | ⟨-, -, h⟩ | ⟨-, -, h⟩ := rpop_cases op s <;> rw [h] <;> nofun

theorem neverHeld_dpush (op : Opcode) (v : Word) : NeverHeld (dpush op v) := by
  intro s t
  obtain ⟨-, h⟩ | ⟨-, h⟩ := dpush_cases op v s <;> rw [h] <;> nofun

theorem neverHeld_rpush (op : Opcode) (v : Word) : NeverHeld (rpush op v) := by
  intro s t
  obtain ⟨-, h⟩ | ⟨-, h⟩ := rpush_cases op v s <;> rw [h] <;> nofun

theorem neverHeld_closed : Closed (fun _ => NeverHeld) where
  bind hx hf s t h := by
    obtain h | ⟨a, u, -, h⟩ := bind_error_iff.1 h
    · exact hx s t h
    · exact hf a u t h
  advance := neverHeld_of_ok advance_apply
  setIp w := neverHeld_of_ok (setIp_apply w)
  advancePast w := neverHeld_of_ok (advancePast_apply w)
  boundsCheck op w s t := by
    cases hb : inBounds s.cfg w with
    | true => rw [boundsCheck_in hb]; nofun
    | false => rw [boundsCheck_out hb]; nofun
  operandAddress s t := by
    cases hb : inBounds s.cfg (adv s.cfg s.ip) with
    | true => rw [operandAddress_in hb]; nofun
    | false => rw [operandAddress_out hb]; nofun
  currentIp := neverHeld_of_ok currentIp_apply
  loadWord w := neverHeld_of_ok (loadWord_apply w)

/-- Only `takeInput` holds the engine, and only `IN` uses it. -/
theorem rule_neverHeld (cfg : Config) {i : Instr} (hi : i ≠ .inp) : NeverHeld (rule cfg i) :=
  rule_closed neverHeld_closed cfg i (fun _ => neverHeld_dpop) (fun _ => neverHeld_dpush) (fun _ => neverHeld_rpop)
    (fun _ => neverHeld_rpush) (fun h => absurd h hi) (fun _ bs => neverHeld_of_ok (putBytes_apply bs))
    (fun _ a v => neverHeld_of_ok (storeWord_apply a v)) (fun _ => neverHeld_of_ok stopRunning_apply)

/-- Settles O8: a rule that does not hold the engine completes to a next state. -/
theorem everyInstructionAnswersNext : Obligations.EveryInstructionAnswersNext := by
  refine ⟨fun i s hi => ?others, fun s answers => ?input, fun s => exec_inp_held⟩
  case others =>
    rw [exec_eq_complete]
    obtain ⟨t, -, h⟩ | ⟨c, t, -, h⟩ | ⟨t, held, -⟩ := complete_cases (rule s.cfg i) s
    · exact ⟨t, h⟩
    · exact ⟨_, h⟩
    · exact absurd held (rule_neverHeld s.cfg hi s t)
  case input =>
    cases room : hasRoom s.cfg.dstackCap s.ds.length with
    | false => exact ⟨_, exec_inp_full answers room⟩
    | true =>
      match hp : s.input.pending with
      | b :: rest => exact ⟨_, exec_inp_byte hp room⟩
      | [] => exact ⟨_, exec_inp_eof hp (answers.resolve_left (fun h => h hp)) room⟩

/-! ### A push on a full stack -/

theorem hasRoom_full (n : Nat) : hasRoom (some n) n = false := by simp [hasRoom]

theorem rpush_bind_full {op : Opcode} {v : Word} {s : State} (h : hasRoom s.cfg.rstackCap s.rs.length = false) {β : Type}
    (f : Unit → Exec β) : (rpush op v >>= f) s = .error (.raise (.stackOverflow .ret op)) s := bind_of_error (rpush_full h) f

section
variable {s : State}

theorem exec_push_full (imm : Word) (hb : inBounds s.cfg (adv s.cfg s.ip) = true)
    (full : hasRoom s.cfg.dstackCap s.ds.length = false) :
    exec (.push imm) s = .next (s.takeFault (.stackOverflow .data .push)) :=
  (exec_push imm s).trans (complete_of_raise ((operandAddress_bind_in hb _).trans (dpush_bind_full full _)))

theorem exec_puship_full (imm : Word) (hb : inBounds s.cfg (adv s.cfg s.ip) = true)
    (full : hasRoom s.cfg.rstackCap s.rs.length = false) :
    exec (.puship imm) s = .next (s.takeFault (.stackOverflow .ret .puship)) :=
  (exec_puship s imm).trans (complete_of_raise ((operandAddress_bind_in hb _).trans (rpush_bind_full full _)))

/-- The pop makes room for the first copy only. -/
theorem exec_dup_full (hcap : s.cfg.dstackCap = some s.ds.length) (hd : s.ds ≠ []) :
    exec .dup s = .next (s.takeFault (.stackOverflow .data .dup)) := by
  obtain ⟨a, t, hat⟩ := List.exists_cons_of_ne_nil hd
  have room : hasRoom s.cfg.dstackCap t.length = true := by simp [hcap, hat, hasRoom]
  have full : hasRoom s.cfg.dstackCap (a :: t).length = false := by rw [hcap, hat, hasRoom_full]
  have raises : (dpop .dup >>= pushTwice) s = .error (.raise (.stackOverflow .data .dup)) { s with ds := a :: t } := by
    rw [dpop_bind_cons hat, pushTwice, dpush_bind_room room, dpush_bind_full full]
  rw [exec_dup, complete_of_raise raises]

end

/-- Settles O35: the push is the last check of each rule, and what it raises gives back what was popped or taken. -/
theorem fullStackOverflows : Obligations.FullStackOverflows := by
  intro s
  refine ⟨fun hcap => ?data, fun hcap imm hb => ?ret⟩
  case data =>
    have full : hasRoom s.cfg.dstackCap s.ds.length = false := by rw [hcap, hasRoom_full]
    exact ⟨fun imm hb => exec_push_full imm hb full, exec_dup_full hcap, fun answers => exec_inp_full answers full⟩
  case ret => exact exec_puship_full imm hb (by rw [hcap, hasRoom_full])

/-! ### The frames, with the input stream -/

theorem rule_inp_ok {s t : State} (h : rule s.cfg .inp s = .ok () t) :
    ∃ taken : List Byte, s.input.pending = taken ++ t.input.pending ∧ taken.length ≤ 1 ∧
      t.inPos = s.inPos + taken.length ∧ t.input.ended = s.input.ended := by
  obtain ⟨r, u, h1, h⟩ := bind_ok_iff.1 h
  obtain ⟨_, v, h2, h⟩ := bind_ok_iff.1 h
  obtain ⟨rfl, -⟩ := dpush_ok h2
  cases h
  obtain ⟨b, rest, hp, hc⟩ | ⟨hp, -, hc⟩ | ⟨-, -, hc⟩ := takeInput_cases s <;> rw [hc] at h1 <;> cases h1
  · exact ⟨[b], hp, Nat.le_refl _, rfl, rfl⟩
  · exact ⟨[], rfl, Nat.zero_le _, rfl, rfl⟩

/-- `IN` takes at most one byte, the first pending; every other instruction, and a raise, takes none. -/
theorem exec_takes {i : Instr} {s t : State} (h : exec i s = .next t) :
    ∃ taken : List Byte, s.input.pending = taken ++ t.input.pending ∧ taken.length ≤ 1 ∧
      t.inPos = s.inPos + taken.length ∧ t.input.ended = s.input.ended := by
  obtain ends | ⟨c, u, -, rfl⟩ := exec_next h
  · by_cases hi : i = .inp
    · subst hi
      exact rule_inp_ok ends
    · obtain ⟨hpos, hinput⟩ := ((rule_moves _ i).of_ok ends).input hi
      exact ⟨[], by rw [hinput]; rfl, Nat.zero_le _, hpos, by rw [hinput]⟩
  · exact ⟨[], rfl, Nat.zero_le _, rfl, rfl⟩

/-- Settles O44: along its rule an instruction keeps its frame, and a raise gives back everything the statement speaks of. -/
theorem instructionFrames : Obligations.InstructionFrames := by
  intro i s t h
  have takes := exec_takes h
  obtain moved | ⟨c, u, -, rfl⟩ := exec_moved h
  · exact ⟨moved.cfg, moved.outBinding, moved.phase, moved.wp, moved.labels, moved.fwd, moved.asmDiag, moved.input, takes,
      moved.out, moved.written, moved.ds, moved.rs, fun _ _ => moved.running⟩
  · exact ⟨rfl, rfl, rfl, rfl, rfl, rfl, rfl, fun _ => ⟨rfl, rfl⟩, takes, fun _ _ => rfl, List.prefix_refl _, fun _ => rfl,
      fun _ => rfl, fun _ hf => nomatch hf⟩

end Sys2Proof.Machine
end

section
/-! SUPPORT. The numbers of the instructions: arithmetic modulo 2^32 (40_arith_logic.md rule R98) and the decimal numeral
(41_io.md rule R115). -/

namespace Sys2Proof.Machine

/-! ### `ADD` and `SUB` modulo 2^32 -/

/-- `w32` changes a number by a multiple of 2^32. -/
theorem dvd_S_w32_sub (n : Int) : (2 ^ 32 : Int) ∣ S (w32 n) - n := by
  rw [S, w32, BitVec.toInt_ofInt]
  exact Int.dvd_bmod_sub_self

theorem S_w32_of_range {n : Int} (h0 : -(2 ^ 31) ≤ n) (h1 : n < 2 ^ 31) : S (w32 n) = n := by
  rw [S, w32, BitVec.toInt_ofInt]
  exact Int.bmod_eq_of_le (by omega) (by omega)

theorem w32_S_add (a b : Word) : w32 (S a + S b) = a + b := by
  rw [w32, S, S, BitVec.ofInt_add, BitVec.ofInt_toInt, BitVec.ofInt_toInt]

theorem w32_S_sub (a b : Word) : w32 (S b - S a) = b - a := by
  rw [w32, S, S, Int.sub_eq_add_neg, BitVec.ofInt_add, BitVec.ofInt_neg, BitVec.ofInt_toInt, BitVec.ofInt_toInt,
    BitVec.sub_eq_add_neg]

theorem U_sub (a b : Word) : (U (b - a) : Int) = ((U b : Int) - U a) % 2 ^ 32 := by
  have ha := a.isLt
  simp only [U, BitVec.toNat_sub]
  omega

/-- Settles O11: each pushes `w32` of the exact result, which is the Word sum or difference. -/
theorem arithmeticWraps : Obligations.ArithmeticWraps := by
  intro s a b t hw hd
  refine ⟨w32 (S a + S b), w32 (S b - S a), exec_of_binary (exec_add s) hw hd, exec_of_binary (exec_sub s) hw hd,
    w32_S_add a b, ?sum, dvd_S_w32_sub _, S_w32_of_range, w32_S_sub a b, ?diff, dvd_S_w32_sub _, S_w32_of_range⟩
  case sum => rw [w32_S_add, U, BitVec.toNat_add]
  case diff => rw [w32_S_sub, U_sub]

/-! ### The decimal numeral -/

theorem digitByte_toNat {d : Nat} (h : d < 10) : (digitByte d).toNat = 0x30 + d := by
  rw [digitByte, BitVec.toNat_ofNat]
  omega

theorem isDigit_digitByte {d : Nat} (h : d < 10) : isDigit (digitByte d) = true := by
  rw [isDigit, digitByte_toNat h, decide_eq_true_eq]
  omega

theorem digitsValue_concat (t : Token) (b : Byte) : digitsValue (t ++ [b]) = digitsValue t * 10 + (b.toNat - 0x30) := by
  simp [digitsValue]

section
variable (fuel n : Nat)

theorem decDigits_small (h : n < 10) : decDigits (fuel + 1) n = [digitByte n] := if_pos h

theorem decDigits_large (h : ¬ n < 10) : decDigits (fuel + 1) n = decDigits fuel (n / 10) ++ [digitByte (n % 10)] := if_neg h

theorem decDigits_ne_nil : decDigits (fuel + 1) n ≠ [] := by
  by_cases h : n < 10
  · simp [decDigits_small fuel n h]
  · simp [decDigits_large fuel n h]

end

theorem decDigits_length (fuel n : Nat) : (decDigits fuel n).length ≤ fuel := by
  induction fuel generalizing n with
  | zero => exact Nat.le_refl 0
  | succ fuel ih =>
    by_cases h : n < 10
    · simp [decDigits_small fuel n h]
    · simpa [decDigits_large fuel n h] using ih (n / 10)

theorem decDigits_digits (fuel n : Nat) : (decDigits fuel n).all isDigit = true := by
  induction fuel generalizing n with
  | zero => rfl
  | succ fuel ih =>
    by_cases h : n < 10
    · simp [decDigits_small fuel n h, isDigit_digitByte h]
    · simp [decDigits_large fuel n h, ih, isDigit_digitByte (Nat.mod_lt n (by decide : 10 > 0))]

/-- `fuel` digits are enough below `10 ^ fuel`. -/
theorem decDigits_value {fuel n : Nat} (hn : n < 10 ^ fuel) : digitsValue (decDigits fuel n) = n := by
  induction fuel generalizing n with
  | zero =>
    obtain rfl : n = 0 := by simpa using hn
    rfl
  | succ fuel ih =>
    by_cases h : n < 10
    · rw [decDigits_small fuel n h, ← List.nil_append [_], digitsValue_concat, digitByte_toNat h]
      simp [digitsValue]
    · have hdiv : n / 10 < 10 ^ fuel := by rw [pow_succ] at hn; omega
      rw [decDigits_large fuel n h, digitsValue_concat, ih hdiv, digitByte_toNat (Nat.mod_lt n (by decide))]
      omega

/-- The numeral of a number that is not 0 has no leading zero. -/
theorem decDigits_head {fuel n : Nat} (h0 : 0 < n) (hn : n < 10 ^ fuel) : (decDigits fuel n).head? ≠ some 0x30 := by
  induction fuel generalizing n with
  | zero => nofun
  | succ fuel ih =>
    by_cases h : n < 10
    · have nonzero : digitByte n ≠ 0x30 := by
        intro he
        have hv := congrArg BitVec.toNat he
        rw [digitByte_toNat h] at hv
        have : (0x30 : Byte).toNat = 0x30 := rfl
        omega
      simpa [decDigits_small fuel n h] using nonzero
    · have hdiv : n / 10 < 10 ^ fuel := by rw [pow_succ] at hn; omega
      obtain ⟨fuel, rfl⟩ : ∃ k, fuel = k + 1 := Nat.exists_eq_succ_of_ne_zero (by rintro rfl; simp at hdiv; omega)
      rw [decDigits_large _ n h, List.head?_append_of_ne_nil _ (decDigits_ne_nil fuel _)]
      exact ih (by omega) hdiv

theorem dec_of_nat (n : Nat) : dec n = decDigits 10 n := by
  rw [dec, if_neg (by omega), Int.natAbs_natCast]

theorem dec_of_neg {n : Nat} (h : 0 < n) : dec (-(n : Int)) = 0x2D :: decDigits 10 n := by
  rw [dec, if_pos (by omega), Int.natAbs_neg, Int.natAbs_natCast]

/-- Settles O18: ten digits hold every value of a Word, and only 0 begins with the digit 0. -/
theorem decimalNumeralIsExact : Obligations.DecimalNumeralIsExact := by
  refine ⟨fun n hn => ?positive, fun n h0 hn => ?negative⟩
  case positive =>
    rw [dec_of_nat]
    refine ⟨decDigits_value (by omega), decDigits_digits 10 n, decDigits_ne_nil 9 n, fun lead => ?_⟩
    obtain rfl : n = 0 := by
      by_contra h
      exact decDigits_head (Nat.pos_of_ne_zero h) (by omega) lead
    exact ⟨rfl, rfl⟩
  case negative =>
    exact ⟨_, dec_of_neg h0, decDigits_value (by omega), decDigits_digits 10 n, decDigits_head h0 (by omega),
      decDigits_length 10 n⟩

end Sys2Proof.Machine
end

section
/-! SUPPORT. Underflow, for every instruction (10_state.md rules R24, R26): its rule begins with its pops, so under the halt
policy it stops there, and under `continue_with_zero` it cannot tell a missing Word from a zero below the stack. -/

namespace Sys2Proof.Machine

/-- The rule begins with `k` pops of the data stack. -/
inductive PopsFirst (op : Opcode) : Nat → Exec Unit → Prop where
  | none (body : Exec Unit) : PopsFirst op 0 body
  | pop {k : Nat} {f : Word → Exec Unit} (rest : ∀ a, PopsFirst op k (f a)) : PopsFirst op (k + 1) (dpop op >>= f)

namespace PopsFirst
variable {op : Opcode}

theorem one (f : Word → Exec Unit) : PopsFirst op 1 (dpop op >>= f) := .pop fun _ => .none _

theorem two (f : Word → Word → Exec Unit) : PopsFirst op 2 (dpop op >>= fun a => dpop op >>= f a) := .pop fun a => .one (f a)

theorem three (f : Word → Word → Word → Exec Unit) :
    PopsFirst op 3 (dpop op >>= fun a => dpop op >>= fun b => dpop op >>= f a b) := .pop fun a => .two (f a)

end PopsFirst

/-- Every instruction pops first, as many Words as rule R220 counts. -/
theorem rule_popsFirst (cfg : Config) (i : Instr) : PopsFirst i.opcode (dataPops i.opcode) (rule cfg i) := by
  cases i with
  | nop => exact .none _
  | add => exact .two _
  | sub => exact .two _
  | and => exact .two _
  | or => exact .two _
  | xor => exact .two _
  | not => exact .one _
  | compl => exact .one _
  | inp => exact .none _
  | out => exact .one _
  | outnum => exact .one _
  | load => exact .one _
  | stor => exact .two _
  | jmp => exact .one _
  | jz => exact .two _
  | jnz => exact .two _
  | push imm => exact .none _
  | dup => exact .one _
  | swap => exact .two _
  | rol3 => exact .three _
  | puship imm => exact .none _
  | popip => exact .none _
  | dropip => exact .none _
  | drop => exact .one _

/-! ### Under the halt policy -/

theorem PopsFirst.raisesBelow {op : Opcode} {k : Nat} {body : Exec Unit} (h : PopsFirst op k body) : RaisesBelow op k body := by
  induction h with
  | none body => exact raisesBelow_zero op body
  | pop _ ih => exact .dpop_bind ih

theorem exec_stopsOnUnderflow (i : Instr) (s : State) : StopsOnUnderflow i s :=
  stopsOnUnderflow_of_raisesBelow (exec_eq_complete i s) (rule_popsFirst s.cfg i).raisesBelow

/-- Settles O32: the pops come before everything else a rule does, on either stack. -/
theorem underflowHalts : Obligations.UnderflowHalts := by
  intro i s hp
  refine ⟨exec_stopsOnUnderflow i s hp, fun hl => ?_⟩
  cases i with
  | popip => exact exec_of_rpop_underflow (exec_popip s) (List.length_eq_zero_iff.1 (Nat.lt_one_iff.1 hl)) hp
  | dropip => exact exec_of_rpop_underflow (exec_dropip s) (List.length_eq_zero_iff.1 (Nat.lt_one_iff.1 hl)) hp
  | _ => exact absurd hl (Nat.not_lt_zero _)

/-! ### Under `continue_with_zero` -/

/-- The state with `n` zeros below the data stack, and as many underflows delivered. -/
def State.padded (s : State) (op : Opcode) (n : Nat) : State :=
  { s with ds := s.ds ++ List.replicate n 0,
           diags := s.diags ++ List.replicate n (.runtime (.stackUnderflow .data op)) }

theorem State.padded_zero (s : State) (op : Opcode) : s.padded op 0 = s := by simp [State.padded]

/-- With the missing Words padded, a rule that begins with its pops does the same from both states, since after the pops they are
one state. -/
theorem PopsFirst.padded {op : Opcode} {k : Nat} {body : Exec Unit} (h : PopsFirst op k body) :
    ∀ s : State, s.cfg.underflow = .continueWithZero → body (s.padded op (k - s.ds.length)) = body s := by
  induction h with
  | none body =>
    intro s _
    rw [Nat.zero_sub, State.padded_zero]
  | @pop k f rest ih =>
    intro s hp
    cases hd : s.ds with
    | nil =>
      have top : (s.padded op (k + 1)).ds = 0 :: List.replicate k 0 := by simp [State.padded, hd, List.replicate_succ]
      have same : { s.padded op (k + 1) with ds := List.replicate k 0 } =
          (s.deliver (.stackUnderflow .data op)).padded op k := by
        simp [State.padded, State.deliver, hd, List.replicate_succ]
      have next := ih 0 (s.deliver (.stackUnderflow .data op)) hp
      rw [State.deliver_ds, hd] at next
      rw [dpop_bind_nil_continue hd hp]
      exact (dpop_bind_cons top f).trans (by rw [same]; exact next)
    | cons v t =>
      have top : (s.padded op (k + 1 - (v :: t).length)).ds = v :: (t ++ List.replicate (k - t.length) 0) := by
        simp [State.padded, hd]
      have same : { s.padded op (k + 1 - (v :: t).length) with ds := t ++ List.replicate (k - t.length) 0 } =
          ({ s with ds := t } : State).padded op (k - t.length) := by
        simp [State.padded]
      rw [dpop_bind_cons hd]
      exact (dpop_bind_cons top f).trans (by rw [same]; exact ih v { s with ds := t } hp)

theorem rpop_bind_nil_continue {op : Opcode} {s : State} (h : s.rs = []) (hp : s.cfg.underflow = .continueWithZero) {β : Type}
    (f : Word → Exec β) : (rpop op >>= f) s = f 0 (s.deliver (.stackUnderflow .ret op)) :=
  bind_of_ok (rpop_nil_continue h hp) f

/-- Settles O33: the rule does the same from the padded state, and a raise gives back the stack it was started with; the zero that
an empty `rs` yields is an address in bounds. -/
theorem underflowContinuesWithZero : Obligations.UnderflowContinuesWithZero := by
  refine ⟨fun i s t hp hs hl h => ?data, fun s hp hc hr => ⟨?popip, ?dropip⟩⟩
  case data =>
    have same : rule s.cfg i (s.padded i.opcode (dataPops i.opcode - s.ds.length)) = rule s.cfg i s :=
      (rule_popsFirst s.cfg i).padded s hp
    obtain ends | ⟨c, u, raises, rfl⟩ := exec_next (s := s.padded i.opcode (dataPops i.opcode - s.ds.length)) h
    · have kept : t.fault = none := ((rule_moves _ i).of_ok ends).fault.trans hs
      rw [if_pos kept, exec_eq_complete]
      exact complete_of_ok (same.symm.trans ends)
    · rw [if_neg nofun, exec_eq_complete]
      exact complete_of_raise (same.symm.trans raises)
  case popip =>
    exact (exec_popip s).trans (complete_of_ok ((rpop_bind_nil_continue hr hp _).trans (returnTo_in (inBounds_zero hc))))
  case dropip => exact (exec_dropip s).trans (complete_of_ok (rpop_bind_nil_continue hr hp _))

end Sys2Proof.Machine
end

section
/-! SUPPORT. What a rule does not see: a change of the state to which its primitives are blind passes through it unchanged
(10_state.md rules R25, R32).  The other stack and the compile-phase elements are such. -/

namespace Sys2Proof.Machine

/-- Change the state where a rule has ended or stopped. -/
def mapEnd (g : State → State) {α : Type} : EStateM.Result Stop State α → EStateM.Result Stop State α
  | .ok a t => .ok a (g t)
  | .error e t => .error e (g t)

/-- The rule does not see the change `g`: it does the same from the changed state, and leaves the change in place. -/
def Blind (g : State → State) {α : Type} (x : Exec α) : Prop := ∀ s, x (g s) = mapEnd g (x s)

/-- `g` leaves the elements every instruction may read as they are, and what is written elsewhere passes through it. -/
structure Unseen (g : State → State) : Prop where
  cfg : ∀ s, (g s).cfg = s.cfg
  ip : ∀ s, (g s).ip = s.ip
  mem : ∀ s, (g s).mem = s.mem
  out : ∀ s, (g s).out = s.out
  input : ∀ s, (g s).input = s.input
  inPos : ∀ s, (g s).inPos = s.inPos
  diags : ∀ s, (g s).diags = s.diags
  setIp : ∀ s w, { g s with ip := w } = g { s with ip := w }
  setMem : ∀ s m, { g s with mem := m } = g { s with mem := m }
  setOut : ∀ s bs, { g s with out := bs } = g { s with out := bs }
  setInput : ∀ s i n, { g s with input := i, inPos := n } = g { s with input := i, inPos := n }
  setDiags : ∀ s ds, { g s with diags := ds } = g { s with diags := ds }
  setRunning : ∀ s, { g s with running := false } = g { s with running := false }
  setFault : ∀ s c, { g s with fault := some c, running := false } = g { s with fault := some c, running := false }

/-- `g` leaves the data stack alone. -/
structure UnseenData (g : State → State) : Prop where
  ds : ∀ s, (g s).ds = s.ds
  setDs : ∀ s d, { g s with ds := d } = g { s with ds := d }

/-- `g` leaves the return-address stack alone. -/
structure UnseenReturn (g : State → State) : Prop where
  rs : ∀ s, (g s).rs = s.rs
  setRs : ∀ s r, { g s with rs := r } = g { s with rs := r }

section
variable {g : State → State}

theorem blind_of_ok {α : Type} {x : Exec α} {v : State → α} {f : State → State} (h : ∀ s, x s = .ok (v s) (f s))
    (hv : ∀ s, v (g s) = v s) (hf : ∀ s, f (g s) = g (f s)) : Blind g x := by
  intro s
  rw [h, h, hv, hf]
  rfl

theorem Blind.bind {α β : Type} {x : Exec α} {f : α → Exec β} (hx : Blind g x) (hf : ∀ a, Blind g (f a)) :
    Blind g (x >>= f) := by
  intro s
  rw [bind_eq, bind_eq, hx s]
  cases x s with
  | ok a t => exact hf a t
  | error e t => rfl

namespace Unseen
variable (h : Unseen g)
include h

theorem deliver (s : State) (c : Cause) : (g s).deliver c = g (s.deliver c) := by
  rw [State.deliver, State.deliver, h.setDiags, h.diags]

theorem closed : Closed (fun _ => Blind g) where
  bind := Blind.bind
  advance := blind_of_ok advance_apply (fun _ => rfl) fun s => by rw [h.setIp, h.cfg, h.ip]
  setIp w := blind_of_ok (setIp_apply w) (fun _ => rfl) fun s => by rw [h.setIp]
  advancePast w := blind_of_ok (advancePast_apply w) (fun _ => rfl) fun s => by rw [h.setIp, h.cfg]
  boundsCheck op w s := by
    cases hb : inBounds s.cfg w with
    | true => rw [boundsCheck_in hb, boundsCheck_in (by rwa [h.cfg])]; rfl
    | false => rw [boundsCheck_out hb, boundsCheck_out (by rwa [h.cfg])]; rfl
  operandAddress s := by
    cases hb : inBounds s.cfg (adv s.cfg s.ip) with
    | true => rw [operandAddress_in hb, operandAddress_in (by rwa [h.cfg, h.ip]), h.cfg, h.ip]; rfl
    | false => rw [operandAddress_out hb, operandAddress_out (by rwa [h.cfg, h.ip]), h.cfg, h.ip]; rfl
  currentIp := blind_of_ok currentIp_apply h.ip fun _ => rfl
  loadWord w := blind_of_ok (loadWord_apply w) (fun s => by rw [State.memRead, State.memRead, h.mem]) fun _ => rfl

theorem takeInput : Blind g takeInput := by
  intro s
  obtain ⟨b, rest, hp, hc⟩ | ⟨hp, he, hc⟩ | ⟨hp, he, hc⟩ := takeInput_cases s <;> rw [hc]
  · rw [takeInput_byte (by rwa [h.input]), mapEnd, h.setInput, h.input, h.inPos]
  · rw [takeInput_eof (by rwa [h.input]) (by rwa [h.input])]; rfl
  · rw [takeInput_held (by rwa [h.input]) (by rwa [h.input])]; rfl

theorem putBytes (bs : List Byte) : Blind g (putBytes bs) :=
  blind_of_ok (putBytes_apply bs) (fun _ => rfl) fun s => by rw [h.setOut, h.out]

theorem storeWord (a v : Word) : Blind g (storeWord a v) :=
  blind_of_ok (storeWord_apply a v) (fun _ => rfl) fun s => by rw [State.memWrite, State.memWrite, h.setMem, h.mem]

theorem stopRunning : Blind g stopRunning := blind_of_ok stopRunning_apply (fun _ => rfl) fun s => by rw [h.setRunning]

theorem dpop (hd : UnseenData g) (op : Opcode) : Blind g (dpop op) := by
  intro s
  obtain ⟨v, t, hs, hc⟩ | ⟨hs, hp, hc⟩ | ⟨hs, hp, hc⟩ := dpop_cases op s <;> rw [hc]
  · rw [dpop_cons (by rwa [hd.ds]), mapEnd, hd.setDs]
  · rw [dpop_nil_continue (by rwa [hd.ds]) (by rwa [h.cfg]), mapEnd, h.deliver]
  · rw [dpop_nil_halt (by rwa [hd.ds]) (by rwa [h.cfg])]; rfl

theorem dpush (hd : UnseenData g) (op : Opcode) (v : Word) : Blind g (dpush op v) := by
  intro s
  obtain ⟨hs, hc⟩ | ⟨hs, hc⟩ := dpush_cases op v s <;> rw [hc]
  · rw [dpush_room (by rwa [h.cfg, hd.ds]), mapEnd, hd.setDs, hd.ds]
  · rw [dpush_full (by rwa [h.cfg, hd.ds])]; rfl

theorem rpop (hr : UnseenReturn g) (op : Opcode) : Blind g (rpop op) := by
  intro s
  obtain ⟨v, t, hs, hc⟩ | ⟨hs, hp, hc⟩ | ⟨hs, hp, hc⟩ := rpop_cases op s <;> rw [hc]
  · rw [rpop_cons (by rwa [hr.rs]), mapEnd, hr.setRs]
  · rw [rpop_nil_continue (by rwa [hr.rs]) (by rwa [h.cfg]), mapEnd, h.deliver]
  · rw [rpop_nil_halt (by rwa [hr.rs]) (by rwa [h.cfg])]; rfl

theorem rpush (hr : UnseenReturn g) (op : Opcode) (v : Word) : Blind g (rpush op v) := by
  intro s
  obtain ⟨hs, hc⟩ | ⟨hs, hc⟩ := rpush_cases op v s <;> rw [hc]
  · rw [rpush_room (by rwa [h.cfg, hr.rs]), mapEnd, hr.setRs, hr.rs]
  · rw [rpush_full (by rwa [h.cfg, hr.rs])]; rfl

theorem takeFault (s : State) (c : Cause) : (g s).takeFault c = g (s.takeFault c) := by
  rw [State.takeFault, State.takeFault, h.deliver, h.setFault]

/-- Completing a blind rule keeps the change in place too. -/
theorem complete {body : Exec Unit} (hb : Blind g body) (s : State) : complete body (g s) = onNext g (complete body s) := by
  have same := hb s
  obtain ⟨t, hs, hc⟩ | ⟨c, t, hs, hc⟩ | ⟨t, hs, hc⟩ := complete_cases body s <;> rw [hc] <;> rw [hs] at same
  · exact complete_of_ok same
  · rw [complete_of_raise same, onNext, h.setDiags, h.takeFault, h.diags]
  · exact complete_of_held same

/-- An instruction is blind to a change that leaves the stack it uses alone. -/
theorem exec (i : Instr) (hd : usesDataStack i.opcode = true → UnseenData g)
    (hr : usesReturnStack i.opcode = true → UnseenReturn g) (s : State) :
    Machine.exec i (g s) = onNext g (Machine.exec i s) := by
  have blind : ∀ cfg, Blind g (rule cfg i) := fun cfg =>
    rule_closed h.closed cfg i (fun u => h.dpop (hd u)) (fun u => h.dpush (hd u)) (fun u => h.rpop (hr u))
      (fun u => h.rpush (hr u)) (fun _ => h.takeInput) (fun _ => h.putBytes) (fun _ => h.storeWord) (fun _ => h.stopRunning)
  rw [exec_eq_complete, exec_eq_complete, h.cfg]
  exact h.complete (blind s.cfg) s

end Unseen

end

/-! ### The changes the statements speak of -/

theorem unseen_rs (st : List Word) : Unseen (fun t => { t with rs := st }) := by constructor <;> intros <;> rfl

theorem unseen_ds (st : List Word) : Unseen (fun t => { t with ds := st }) := by constructor <;> intros <;> rfl

section
variable (wp : Word) (labels fwd : List (Token × Word)) (asmDiag : List AsmReport)

theorem unseen_compilePhase : Unseen (fun t => t.withCompilePhase wp labels fwd asmDiag) := by constructor <;> intros <;> rfl

theorem fetch_withCompilePhase (s : State) : fetch (s.withCompilePhase wp labels fwd asmDiag) = fetch s := rfl

end

/-- Settles O45: the fetch reads none of the four elements, and every instruction is blind to them. -/
theorem compilePhaseStateIsNotUsed : Obligations.CompilePhaseStateIsNotUsed := by
  intro s wp labels fwd asmDiag
  have unseen := unseen_compilePhase wp labels fwd asmDiag
  cases hf : s.fault with
  | some c => rw [step_stopped hf, step_stopped (s := s.withCompilePhase wp labels fwd asmDiag) hf]; rfl
  | none =>
    cases hr : s.running with
    | false => rw [step_notRunning hf hr, step_notRunning (s := s.withCompilePhase wp labels fwd asmDiag) hf hr]; rfl
    | true =>
      rw [step_enabled ⟨hr, hf⟩, step_enabled (s := s.withCompilePhase wp labels fwd asmDiag) ⟨hr, hf⟩,
        fetch_withCompilePhase]
      cases fetch s with
      | error c => exact congrArg Host.Outcome.next (unseen.takeFault s c)
      | ok i => exact unseen.exec i (fun _ => ⟨fun _ => rfl, fun _ _ => rfl⟩) (fun _ => ⟨fun _ => rfl, fun _ _ => rfl⟩) s

/-- Settles O46: an instruction that does not use a stack is blind to its contents. -/
theorem stacksAreIndependent : Obligations.StacksAreIndependent := by
  intro i s st
  refine ⟨fun unused => ?ret, fun unused => ?data⟩
  case ret =>
    exact (unseen_rs st).exec i (fun _ => ⟨fun _ => rfl, fun _ _ => rfl⟩) (fun used => absurd (used.symm.trans unused) nofun) s
  case data =>
    exact (unseen_ds st).exec i (fun used => absurd (used.symm.trans unused) nofun) (fun _ => ⟨fun _ => rfl, fun _ _ => rfl⟩) s

end Sys2Proof.Machine
end

section
/-! SUPPORT. Memory under a write and the fetch after it (20_memory.md rules R53, R61), and the two idioms that the assembler
emits: the halt (43_jumps.md rule R131) and the call (45_ip_stack.md rule R163). -/

namespace Sys2Proof.Machine

/-! ### Read after write -/

theorem memRead_memWrite_same {s : State} (hw : s.mem.wf = true) (a v : Word) : (s.memWrite a v).memRead a = v := by
  rw [State.memRead, State.memWrite_mem, Memory.read_write hw, if_pos rfl]

theorem memRead_memWrite_other {s : State} (hw : s.mem.wf = true) {a b : Word} (ha : 0 ≤ S a) (hb : 0 ≤ S b) (hne : b ≠ a)
    (v : Word) : (s.memWrite a v).memRead b = s.memRead b := by
  rw [State.memRead, State.memWrite_mem, Memory.read_write hw, if_neg fun h => hne (addrIndex_inj hb ha h)]
  rfl

/-- Settles O21: the Word at the index is the one written, and addresses in bounds have distinct indices. -/
theorem memWriteSetsOneWord : Obligations.MemWriteSetsOneWord := by
  intro s a v hw ha
  refine ⟨memRead_memWrite_same hw a v, fun b hb hne => ?other, fun n hn => ?elsewhere, Memory.write_wf hw _ _, rfl⟩
  case other => exact memRead_memWrite_other hw (inBounds_iff.1 ha).1 (inBounds_iff.1 hb).1 hne v
  case elsewhere => rw [State.memWrite_mem, Memory.read_write hw]; exact if_neg hn

/-- What a step does with the Word `b` it finds at `ip`. -/
theorem step_of_memRead {t : State} {a b : Word} (he : t.Enabled) (hip : t.ip = a) (ha : inBounds t.cfg a = true)
    (hb : t.memRead a = b) :
    (∀ op, decodeOpcode t.cfg.opnum b = some op → step t = exec (op.instr (operandWord t)) t) ∧
    (decodeOpcode t.cfg.opnum b = none → step t = .next (t.takeFault (.illegalOpcode b a))) := by
  subst hip hb
  exact ⟨fun _ => step_ok he ha, step_illegal he ha⟩

/-- Settles O23: the step after the `STOR` fetches at the address written, and reads the Word written. -/
theorem storeIsSeenByTheNextFetch : Obligations.StoreIsSeenByTheNextFetch := by
  intro s t a b rest hs he h hd hb ha
  rw [exec_stor_in hd hb] at h
  cases h
  exact step_of_memRead (t := { s with mem := s.mem.write (addrIndex a) b, ds := rest, ip := adv s.cfg s.ip }) he ha.symm hb
    (memRead_memWrite_same hs.memWf a b)

/-! ### Steps at a Word that is the number of an opcode -/

section
variable {cfg : Config} {a : Word} {k : Nat}

theorem inBounds_add (hc : cfg.wf = true) (h0 : 0 ≤ S a) (hk : S a + k < (cfg.memWords : Int)) :
    inBounds cfg (a + BitVec.ofNat 32 k) = true := by
  have hm := memWords_bounds hc
  rw [inBounds_iff, S_add h0 (by omega)]
  omega

/-- Away from the end of memory `adv` counts on. -/
theorem adv_add (hc : cfg.wf = true) (h0 : 0 ≤ S a) (hk : S a + k + 1 < (cfg.memWords : Int)) :
    adv cfg (a + BitVec.ofNat 32 k) = a + BitVec.ofNat 32 (k + 1) := by
  have hm := memWords_bounds hc
  rw [adv_of_lt (by rw [S_add h0 (by omega)]; omega), BitVec.add_assoc, BitVec.ofNat_add]
  rfl

end

section
variable {s : State}

/-- The operand of a format I instruction in the interior of memory, and the address past it. -/
theorem operand_interior (hc : s.cfg.wf = true) (h0 : 0 ≤ S s.ip) (hM : S s.ip + 2 < (s.cfg.memWords : Int)) :
    inBounds s.cfg s.ip = true ∧ inBounds s.cfg (adv s.cfg s.ip) = true ∧ adv s.cfg s.ip = s.ip + 1 ∧
      adv s.cfg (adv s.cfg s.ip) = s.ip + 2 := by
  have next : adv s.cfg s.ip = s.ip + 1 := adv_of_lt (by omega)
  rw [next]
  exact ⟨inBounds_iff.2 ⟨h0, by omega⟩, inBounds_add (k := 1) hc h0 (by omega), rfl, adv_add (k := 1) hc h0 (by omega)⟩

/-- A step at a `PUSH` with its operand in memory. -/
theorem step_push_interior (hc : s.cfg.wf = true) (he : s.Enabled) (h0 : 0 ≤ S s.ip) (hM : S s.ip + 2 < (s.cfg.memWords : Int))
    (room : hasRoom s.cfg.dstackCap s.ds.length = true) (hw : s.memRead s.ip = s.cfg.opnum.num .push) :
    step s = .next { s with ds := s.memRead (s.ip + 1) :: s.ds, ip := s.ip + 2 } := by
  obtain ⟨hip, hoa, next, past⟩ := operand_interior hc h0 hM
  rw [step_of_num (Config.injective_of_wf hc) he hip hw, operandWord_in hoa]
  refine (exec_push_in _ room hoa).trans ?_
  rw [past, next]

/-- A step at a `PUSHIP` with its operand in memory. -/
theorem step_puship_interior (hc : s.cfg.wf = true) (he : s.Enabled) (h0 : 0 ≤ S s.ip)
    (hM : S s.ip + 2 < (s.cfg.memWords : Int)) (room : hasRoom s.cfg.rstackCap s.rs.length = true)
    (hw : s.memRead s.ip = s.cfg.opnum.num .puship) :
    step s = .next { s with rs := s.memRead (s.ip + 1) :: s.rs, ip := s.ip + 2 } := by
  obtain ⟨hip, hoa, next, past⟩ := operand_interior hc h0 hM
  rw [step_of_num (Config.injective_of_wf hc) he hip hw, operandWord_in hoa]
  refine (exec_puship_in _ room hoa).trans ?_
  rw [past, next]

theorem step_jmp_halts (hc : s.cfg.wf = true) (he : s.Enabled) (hip : inBounds s.cfg s.ip = true)
    (hw : s.memRead s.ip = s.cfg.opnum.num .jmp) {t : List Word} (hd : s.ds = s.ip :: t) :
    step s = .next { s with ds := t, running := false } :=
  (step_of_num (Config.injective_of_wf hc) he hip hw).trans (exec_jmp_halts hd hip rfl)

theorem step_jmp_transfers (hc : s.cfg.wf = true) (he : s.Enabled) (hip : inBounds s.cfg s.ip = true)
    (hw : s.memRead s.ip = s.cfg.opnum.num .jmp) {a : Word} {t : List Word} (hd : s.ds = a :: t)
    (ha : inBounds s.cfg a = true) (hne : a ≠ s.ip) : step s = .next { s with ds := t, ip := a } :=
  (step_of_num (Config.injective_of_wf hc) he hip hw).trans (exec_jmp_transfers hd ha hne)

theorem core_run_succ {k : Nat} {t : State} (h : step s = .next t) : core.run (k + 1) s = core.run k t := by
  have first : core.step s = .next t := h
  simp only [Host.Core.run, first]

end

/-! ### The halt idiom -/

/-- Settles O26: the `PUSH` puts the address of the `JMP` on the stack, and the `JMP` pops its own address. -/
theorem haltIdiomHalts : Obligations.HaltIdiomHalts := by
  rintro s p hc he rfl h0 hM room hpush hoperand hjmp
  have first : step s = .next { s with ds := (s.ip + 2) :: s.ds, ip := s.ip + 2 } := by
    rw [step_push_interior hc he h0 hM room hpush, hoperand]
  have hip : inBounds s.cfg (s.ip + 2) = true := inBounds_add (k := 2) hc h0 hM
  have second : step { s with ds := (s.ip + 2) :: s.ds, ip := s.ip + 2 } = .next { s with ip := s.ip + 2, running := false } :=
    step_jmp_halts (s := { s with ds := (s.ip + 2) :: s.ds, ip := s.ip + 2 }) hc he hip hjmp rfl
  exact ⟨first, second, he, .step first (.step second (.refl _)), ⟨rfl, he.2⟩, rfl⟩

/-! ### The call sequence -/

/-- Settles O31: `PUSHIP` saves the return address, `PUSH` and `JMP` go to `f`, and `POPIP` takes the return address back. -/
theorem callSequenceCallsAndReturns : Obligations.CallSequenceCallsAndReturns := by
  rintro s p f hc he rfl h0 hM droom rroom hf hself hpuship hret hpush hop hjmp
  have hm := memWords_bounds hc
  have sum : ∀ m n k : Nat, m + n = k → s.ip + BitVec.ofNat 32 m + BitVec.ofNat 32 n = s.ip + BitVec.ofNat 32 k := by
    rintro m n k rfl
    rw [BitVec.add_assoc, BitVec.ofNat_add]
  have at3 : s.ip + 2 + 1 = s.ip + 3 := sum 2 1 3 rfl
  have at4 : s.ip + 2 + 2 = s.ip + 4 := sum 2 2 4 rfl
  have first : step s = .next { s with rs := (s.ip + 5) :: s.rs, ip := s.ip + 2 } := by
    rw [step_puship_interior hc he h0 (by omega) rroom hpuship, hret]
  have second : step { s with rs := (s.ip + 5) :: s.rs, ip := s.ip + 2 } =
      .next { s with rs := (s.ip + 5) :: s.rs, ds := f :: s.ds, ip := s.ip + 4 } := by
    have two : S (s.ip + 2) = S s.ip + 2 := S_add (k := 2) h0 (by omega)
    have low : 0 ≤ S (s.ip + 2) := by omega
    have high : S (s.ip + 2) + 2 < (s.cfg.memWords : Int) := by omega
    have operand : s.memRead (s.ip + 2 + 1) = f := at3 ▸ hop
    rw [← at4, ← operand]
    exact step_push_interior (s := { s with rs := (s.ip + 5) :: s.rs, ip := s.ip + 2 }) hc he low high droom hpush
  have hip : inBounds s.cfg (s.ip + 4) = true := inBounds_add (k := 4) hc h0 (by omega)
  have third : step { s with rs := (s.ip + 5) :: s.rs, ds := f :: s.ds, ip := s.ip + 4 } =
      .next { s with rs := (s.ip + 5) :: s.rs, ip := f } :=
    step_jmp_transfers (s := { s with rs := (s.ip + 5) :: s.rs, ds := f :: s.ds, ip := s.ip + 4 }) hc he hip hjmp rfl hf
      hself
  refine ⟨?calls, ?returns⟩
  case calls => rw [core_run_succ first, core_run_succ second, core_run_succ third]; rfl
  case returns =>
    exact exec_popip_in (s := { s with rs := (s.ip + 5) :: s.rs, ip := f }) rfl (inBounds_add (k := 5) hc h0 (by omega))

end Sys2Proof.Machine
end

section
/-! SUPPORT. The tokenizer and the class of a token (46_assembler_patch_table.md rules R171 to R173, R178, R183), and the lookup
of a name (rule R177). -/

namespace Sys2Proof.Machine

/-! ### The tokenizer -/

@[simp] theorem isWhitespace_iff (b : Byte) : isWhitespace b = true ↔ b = 0x20 ∨ b = 0x09 ∨ b = 0x0D ∨ b = 0x0A := by
  simp only [isWhitespace, Bool.or_eq_true, beq_iff_eq, or_assoc]

theorem lineFeeds_eq_count (bs : List Byte) : lineFeeds bs = bs.count 0x0A := List.count_eq_length_filter.symm

theorem lineFeeds_eq_zero {bs : List Byte} (h : 0x0A ∉ bs) : lineFeeds bs = 0 := by
  rw [lineFeeds_eq_count, List.count_eq_zero_of_not_mem h]

/-- What is left after skipping whitespace begins a token, unless nothing is left. -/
theorem takeWhile_dropWhile_eq_nil {α : Type} {p : α → Bool} {l : List α}
    (h : (l.dropWhile p).takeWhile (fun a => !p a) = []) : l.dropWhile p = [] := by
  cases hl : l.dropWhile p with
  | nil => rfl
  | cons a r =>
    have first := List.head?_dropWhile_not p l
    rw [hl] at first h
    simp only [List.head?_cons] at first
    simp [first] at h

/-- A token holds no line feed. -/
theorem lineFeeds_token {t : Token} (h : t.all (fun b => !isWhitespace b) = true) : lineFeeds t = 0 := by
  refine lineFeeds_eq_zero fun hmem => ?_
  have := List.all_eq_true.1 h _ hmem
  simp [isWhitespace] at this

section
variable {src : Source}

/-- Skipping to a line feed consumes it and counts it. -/
theorem skipLine_to_lineFeed {comment rest : List Byte} (h : src.rest = comment ++ 0x0A :: rest) (hc : 0x0A ∉ comment) :
    skipLine src = { rest := rest, line := src.line + 1 } := by
  have before : ∀ b ∈ comment, (b != 0x0A) = true := fun b hb => bne_iff_ne.2 (by rintro rfl; exact hc hb)
  have line : src.rest.takeWhile (fun b => b != 0x0A) = comment := by
    rw [h, List.takeWhile_append_of_pos before, List.takeWhile_cons_of_neg (by simp), List.append_nil]
  have split : comment ++ 0x0A :: rest = (comment ++ [0x0A]) ++ rest := by simp
  have len : comment.length + 1 = (comment ++ [(0x0A : Byte)]).length := by simp
  have one : lineFeeds (comment ++ [0x0A]) = 1 := by
    rw [lineFeeds_eq_count, List.count_append, List.count_eq_zero_of_not_mem hc]
    rfl
  rw [skipLine, line, Source.consume, h, split, len, List.drop_left, List.take_left, one]

/-- In the last line there is no line feed, and all that is left is skipped. -/
theorem skipLine_last (h : 0x0A ∉ src.rest) : skipLine src = { rest := [], line := src.line } := by
  have line : src.rest.takeWhile (fun b => b != 0x0A) = src.rest :=
    List.takeWhile_eq_self_iff.2 fun b hb => bne_iff_ne.2 fun e => h (e ▸ hb)
  rw [skipLine, line, Source.consume, List.drop_of_length_le (Nat.le_succ _), List.take_of_length_le (Nat.le_succ _),
    lineFeeds_eq_zero h]
  rfl

end

/-- Settles O47: the text is the skipped whitespace, the token, and what is left, and only whitespace holds line feeds. -/
theorem nextTokenSplitsTheText : Obligations.NextTokenSplitsTheText := by
  refine ⟨isWhitespace_iff, fun src => ?_, fun src comment rest => skipLine_to_lineFeed, fun src => skipLine_last,
    fun text => rfl⟩
  obtain ⟨token, left, line⟩ := nextToken_eq src
  have inToken : (nextToken src).1.all (fun b => !isWhitespace b) = true := token ▸ List.all_takeWhile
  refine ⟨src.rest.takeWhile isWhitespace, ?text, List.all_takeWhile, inToken, fun empty => ?ends, fun b hb => ?stops, ?line⟩
  case text => rw [token, left, List.append_assoc, List.takeWhile_append_dropWhile, List.takeWhile_append_dropWhile]
  case ends =>
    have none : src.rest.dropWhile isWhitespace = [] := takeWhile_dropWhile_eq_nil (token.symm.trans empty)
    rw [left, none]
    rfl
  case stops =>
    have first := List.head?_dropWhile_not (fun b => !isWhitespace b) (src.rest.dropWhile isWhitespace)
    rw [← left, hb] at first
    simpa using first
  case line => rw [line, ← token, lineFeeds_token inToken, lineFeeds_eq_count, Nat.add_zero]

/-! ### The class of a token -/

theorem upper_getLast? (t : Token) : (upper t).getLast? = t.getLast?.map upperByte := List.getLast?_map

/-- How every keyword begins and ends: with a letter or above, and with no colon. -/
def KeywordLike (k : Token) : Prop := 0x41 ≤ (k.headD 0).toNat ∧ k.getLast? ≠ some 0x3A

theorem keywordLike_mnemonic (op : Opcode) : KeywordLike (ascii (mnemonicOf op)) := by
  cases op <;> exact ⟨by decide, by decide⟩

theorem keywordLike_halt : KeywordLike (ascii "HALT") := ⟨by decide, by decide⟩

theorem mnemonic_ne_halt (op : Opcode) : ascii (mnemonicOf op) ≠ ascii "HALT" := by
  cases op <;> decide

/-- A token that begins below the letters is no keyword, in any letter case. -/
theorem upper_ne_of_head {b : Byte} {t k : Token} (hb : b.toNat < 0x41) (hk : KeywordLike k) : upper (b :: t) ≠ k := by
  rintro rfl
  have head := hk.1
  have same : upperByte b = b := upperByte_other (by omega)
  rw [show upper (b :: t) = upperByte b :: upper t from rfl, List.headD_cons, same] at head
  omega

/-- A token that ends in a colon is no keyword. -/
theorem upper_ne_of_last {t k : Token} (ht : t.getLast? = some 0x3A) (hk : KeywordLike k) : upper t ≠ k := by
  rintro rfl
  refine hk.2 ?_
  rw [upper_getLast?, ht]
  rfl

section
variable {t : Token} (h0 : t ≠ []) (hh : upper t ≠ ascii "HALT") (hc : t.head? ≠ some 0x3B) (hl : t.getLast? ≠ some 0x3A)
include h0 hh hc hl

/-- Without the two marks of rule R178 a mnemonic is its opcode, -/
theorem classify_plain_opcode {op : Opcode} (ho : opcodeOf t = some op) : classify t = .opcode op := by
  rw [classify, if_neg h0, if_neg hh, if_neg hc, if_neg hl, ho]

/-- and every other token a literal. -/
theorem classify_plain_literal (ho : opcodeOf t = none) : classify t = .literal (classifyLiteral t) := by
  rw [classify, if_neg h0, if_neg hh, if_neg hc, if_neg hl, ho]

end

theorem opcodeOf_eq_none {t : Token} (h : ∀ op, upper t ≠ ascii (mnemonicOf op)) : opcodeOf t = none := by
  cases ho : opcodeOf t with
  | none => rfl
  | some op => exact absurd (opcodeOf_eq_some.1 ho) (h op)

/-- A token that begins below the letters, with neither mark, is a literal. -/
theorem classify_of_head {b : Byte} {t : Token} (hb : b.toNat < 0x41) (hc : b ≠ 0x3B) (hl : (b :: t).getLast? ≠ some 0x3A) :
    classify (b :: t) = .literal (classifyLiteral (b :: t)) :=
  classify_plain_literal (List.cons_ne_nil _ _) (upper_ne_of_head hb keywordLike_halt) (by simpa using hc) hl
    (opcodeOf_eq_none fun op => upper_ne_of_head hb (keywordLike_mnemonic op))

theorem classify_labelDef {t : Token} (h : t.head? ≠ some 0x3B) : classify (t ++ [0x3A]) = .labelDef t := by
  have last : (t ++ [(0x3A : Byte)]).getLast? = some 0x3A := List.getLast?_concat
  have noComment : (t ++ [(0x3A : Byte)]).head? ≠ some 0x3B := by
    cases t with
    | nil => decide
    | cons b t => exact h
  rw [classify, if_neg (by simp), if_neg (upper_ne_of_last last keywordLike_halt), if_neg noComment, if_pos last,
    List.dropLast_concat]

theorem classify_comment (t : Token) : classify (0x3B :: t) = .comment := by
  rw [classify, if_neg (List.cons_ne_nil _ _), if_neg (upper_ne_of_head (by decide) keywordLike_halt), List.head?_cons,
    if_pos rfl]

/-- A keyword, in any letter case, begins with no semicolon and ends in no colon. -/
theorem marks_of_upper {t k : Token} (h : upper t = k) (hk : KeywordLike k) :
    t ≠ [] ∧ t.head? ≠ some 0x3B ∧ t.getLast? ≠ some 0x3A := by
  refine ⟨?_, fun hc => ?_, fun hl => upper_ne_of_last hl hk h⟩
  · rintro rfl
    subst h
    exact absurd hk.1 (by decide)
  · obtain ⟨r, rfl⟩ := List.head?_eq_some_iff.1 hc
    exact upper_ne_of_head (by decide) hk h

theorem classify_opcode {t : Token} {op : Opcode} (h : upper t = ascii (mnemonicOf op)) : classify t = .opcode op := by
  obtain ⟨h0, hc, hl⟩ := marks_of_upper h (keywordLike_mnemonic op)
  exact classify_plain_opcode h0 (h ▸ mnemonic_ne_halt op) hc hl (opcodeOf_eq_some.2 h)

theorem classify_halt {t : Token} (h : upper t = ascii "HALT") : classify t = .haltKeyword := by
  rw [classify, if_neg (marks_of_upper h keywordLike_halt).1, if_pos h]

/-! ### The literal tokens (rules R183 to R186) -/

theorem getLast?_cons_ne {b c : Byte} {t : Token} (hb : b ≠ c) (ht : t.getLast? ≠ some c) : (b :: t).getLast? ≠ some c := by
  rw [List.getLast?_cons]
  cases h : t.getLast? with
  | none => simpa using hb
  | some d => rw [h] at ht; simpa using ht

theorem classifyLiteral_other {t : Token} (h : t.head? ≠ some 0x26) :
    classifyLiteral t = if t ≠ [] ∧ t.all isDigit = true then .numeric (digitsValue t) else classifyQuoted t := by
  unfold classifyLiteral
  split
  · next name => exact absurd rfl h
  · rfl

theorem classify_digits {t : Token} (h0 : t ≠ []) (hd : t.all isDigit = true) :
    classify t = .literal (.numeric (digitsValue t)) := by
  have digit : ∀ b ∈ t, 0x30 ≤ b.toNat ∧ b.toNat ≤ 0x39 := fun b hb => by
    simpa [isDigit] using List.all_eq_true.1 hd b hb
  have notDigit : ∀ c : Byte, 0x39 < c.toNat ∨ c.toNat < 0x30 → ∀ b ∈ t, b ≠ c := by
    rintro c hc b hb rfl
    have := digit b hb
    omega
  have last : t.getLast? ≠ some 0x3A := fun h => notDigit 0x3A (by decide) _ (List.mem_of_getLast? h) rfl
  obtain ⟨b, r, rfl⟩ := List.exists_cons_of_ne_nil h0
  have hb := digit b List.mem_cons_self
  rw [classify_of_head (by omega) (notDigit 0x3B (by decide) b List.mem_cons_self) last, classifyLiteral_other, if_pos ⟨h0, hd⟩]
  simpa using notDigit 0x26 (by decide) b List.mem_cons_self

/-- A token that begins with a quote and ends in no colon is classified by its quoted form. -/
theorem classify_quoted {t : Token} (hl : t.getLast? ≠ some 0x3A) :
    classify (0x27 :: t) = .literal (classifyQuoted (0x27 :: t)) := by
  have notDigits : (0x27 :: t).all isDigit = false := rfl
  rw [classify_of_head (by decide) (by decide) (getLast?_cons_ne (by decide) hl), classifyLiteral_other (by simp),
    if_neg (by rw [notDigits]; simp)]

theorem classifyQuoted_character {c : Byte} (h : c ≠ 0x5C) : classifyQuoted [0x27, c, 0x27] = .character c := if_neg h

theorem escapeCode_eq_none {e : Byte} (h : e ≠ 0x74 ∧ e ≠ 0x72 ∧ e ≠ 0x6E ∧ e ≠ 0x30) : escapeCode e = none := by
  rw [escapeCode, if_neg h.1, if_neg h.2.1, if_neg h.2.2.1, if_neg h.2.2.2]

theorem classifyQuoted_unknown {rest : Token}
    (h : rest ∉ [[0x74, 0x27], [0x72, 0x27], [0x6E, 0x27], [(0x30 : Byte), 0x27]]) :
    classifyQuoted (0x27 :: 0x5C :: rest) = .unknownEscape := by
  unfold classifyQuoted
  split
  · next c heq =>
    obtain ⟨rfl, -⟩ := by simpa using heq
    exact if_pos rfl
  · next e heq =>
    obtain rfl : rest = [e, 0x27] := by simpa using heq
    rw [escapeCode_eq_none (by simpa using h)]
  · rfl
  · next no => exact absurd rfl (no rest)

theorem classifyQuoted_bareWord {t : Token} (hchar : ∀ c : Byte, c ≠ 0x5C → t ≠ [0x27, c, 0x27])
    (hescape : ∀ rest : Token, t ≠ 0x27 :: 0x5C :: rest) : classifyQuoted t = .bareWord := by
  unfold classifyQuoted
  split
  · next c =>
    by_cases hc : c = 0x5C
    · exact absurd (hc ▸ rfl) (hescape [0x27])
    · exact absurd rfl (hchar c hc)
  · next e => exact absurd rfl (hescape [e, 0x27])
  · next rest _ _ => exact absurd rfl (hescape rest)
  · rfl

/-- Settles O55: the tests of rule R178 in order, then those of rule R183 in order. -/
theorem tokenClasses : Obligations.TokenClasses := by
  refine ⟨rfl, fun t => classify_labelDef, classify_comment, fun t op => classify_opcode, fun t => classify_halt,
    fun name hl => ?labelRef, fun t => classify_digits, fun c hc => ?character, by decide, by decide, by decide, by decide,
    fun rest hl hn => ?unknown, fun t h0 hh hc hl ho hr hd hchar hescape => ?bareWord⟩
  case labelRef => rw [classify_of_head (by decide) (by decide) (getLast?_cons_ne (by decide) hl)]; rfl
  case character => rw [classify_quoted (by simp), classifyQuoted_character hc]
  case unknown => rw [classify_quoted (getLast?_cons_ne (by decide) hl), classifyQuoted_unknown hn]
  case bareWord =>
    rw [classify_plain_literal h0 hh hc hl ho, classifyLiteral_other hr, if_neg (by simp [hd]),
      classifyQuoted_bareWord hchar hescape]

/-! ### The lookup of a name -/

theorem lookup_here {s : State} {name : Token} (h : upper name = here) : lookup s name = some s.wp := if_pos h

theorem lookup_label {s : State} {name : Token} (h : upper name ≠ here) :
    lookup s name = (s.labels.find? (fun e => e.1 == upper name)).map (·.2) := if_neg h

theorem lookup_upper (s : State) (name : Token) : lookup s (upper name) = lookup s name := by
  rw [lookup, lookup, upper_idem]

/-- Settles O56: the table is searched from its earliest entry, and folding a folded name changes nothing. -/
theorem earliestLabelWins : Obligations.EarliestLabelWins := by
  refine ⟨fun s name a before after hn hs hb => ?earliest, fun s name hn ha => ?absent, fun s name => lookup_here, lookup_upper⟩
  case earliest =>
    have none : before.find? (fun e => e.1 == upper name) = none := List.find?_eq_none.2 fun e he => by simpa using hb e he
    rw [lookup_label hn, hs, List.find?_append, none, List.find?_cons_of_pos (by simp)]
    rfl
  case absent =>
    have none : s.labels.find? (fun e => e.1 == upper name) = none := List.find?_eq_none.2 fun e he => by simpa using ha e he
    rw [lookup_label hn, none]
    rfl

end Sys2Proof.Machine
end

section
/-! SUPPORT. What each source form emits and records, Word by Word, where it fits in memory (46_assembler_patch_table.md rules
R174, R180, R184 to R192), and which errors the emission of a token can end in (rule R192). -/

namespace Sys2Proof.Machine

/-! ### Words emitted in a row -/

/-- The state after the Words `ws` were emitted from the write position on. -/
def State.emitted (s : State) (ws : List Word) : State :=
  { s with mem := s.mem.fill (addrIndex s.wp) ws, wp := s.wp + BitVec.ofNat 32 ws.length }

theorem State.emitted_nil (s : State) : s.emitted [] = s := by simp [State.emitted, Memory.fill]

theorem Memory.fill_concat (m : Memory) (n : Nat) (ws : List Word) (w : Word) :
    m.fill n (ws ++ [w]) = (m.fill n ws).write (n + ws.length) w := by
  induction ws generalizing m n with
  | nil => rfl
  | cons v ws ih =>
    rw [List.cons_append, Memory.fill, ih, Memory.fill, List.length_cons]
    congr 1
    omega

theorem recordForward_emitted (s : State) (ws : List Word) (name : Token) :
    recordForward name (s.emitted ws) =
      .ok () (({ s with fwd := s.fwd ++ [(name, s.wp + BitVec.ofNat 32 ws.length)] } : State).emitted ws) := rfl

theorem lookup_emitted {s : State} {name : Token} (h : upper name ≠ here) (ws : List Word) :
    lookup (s.emitted ws) name = lookup s name := by
  rw [lookup_label h, lookup_label h]
  rfl

section
variable {s : State} (hc : s.cfg.wf = true) (h0 : 0 ≤ S s.wp)
include hc h0

/-- One more Word, where there is room for it. -/
theorem emit_next {ws : List Word} (hf : S s.wp + (ws.length + 1 : Nat) ≤ (s.cfg.memWords : Int)) (w : Word) :
    emit w (s.emitted ws) = .ok () (s.emitted (ws ++ [w])) := by
  have hm := memWords_bounds hc
  have hwp : S (s.wp + BitVec.ofNat 32 ws.length) = S s.wp + ws.length := S_add h0 (by omega)
  have index : addrIndex (s.wp + BitVec.ofNat 32 ws.length) = addrIndex s.wp + ws.length := by
    rw [addrIndex, hwp, addrIndex]
    omega
  have room : S (s.wp + BitVec.ofNat 32 ws.length) < (s.cfg.memWords : Int) := by omega
  rw [emit_room (s := s.emitted ws) room]
  simp only [State.emitted, index, Memory.fill_concat, List.length_append, List.length_singleton, BitVec.ofNat_add,
    BitVec.add_assoc]
  rfl

theorem emitOp_next {ws : List Word} (hf : S s.wp + (ws.length + 1 : Nat) ≤ (s.cfg.memWords : Int)) (op : Opcode) :
    emitOp op (s.emitted ws) = .ok () (s.emitted (ws ++ [s.cfg.opnum.num op])) := emit_next hc h0 hf _

theorem emitOp_ok (op : Opcode) (hf : S s.wp + 1 ≤ (s.cfg.memWords : Int)) :
    emitOp op s = .ok () (s.emitted [s.cfg.opnum.num op]) := by
  have first := emitOp_next hc h0 (ws := []) hf op
  rwa [State.emitted_nil] at first

/-- An opcode Word, then the rest of the form from there. -/
theorem emitOp_bind (op : Opcode) (hf : S s.wp + 1 ≤ (s.cfg.memWords : Int)) (f : Unit → Asm Unit) :
    (emitOp op >>= f) s = f () (s.emitted [s.cfg.opnum.num op]) := bind_of_ok (emitOp_ok hc h0 op hf) f

theorem emitPush_ok (w : Word) (hf : S s.wp + 2 ≤ (s.cfg.memWords : Int)) :
    emitPush w s = .ok () (s.emitted [s.cfg.opnum.num .push, w]) := by
  rw [emitPush, emitOp_bind hc h0 .push (by omega)]
  exact emit_next hc h0 (by simpa using hf) w

theorem emitHalt_ok (hf : S s.wp + 3 ≤ (s.cfg.memWords : Int)) :
    emitHalt s = .ok () (s.emitted [s.cfg.opnum.num .push, s.wp + 2, s.cfg.opnum.num .jmp]) := by
  have position : writePosition s = .ok s.wp s := rfl
  have target : w32 (S s.wp + 2) = s.wp + 2 := w32_add s.wp 2
  rw [emitHalt, bind_of_ok position, target, emitOp_bind hc h0 .push (by omega),
    bind_of_ok (emit_next hc h0 (by simp; omega) _)]
  exact emitOp_next hc h0 (by simpa using hf) .jmp

theorem emitLabelRef_known {name : Token} {a : Word} (hn : upper name ≠ here) (hl : lookup s name = some a)
    (hf : S s.wp + 2 ≤ (s.cfg.memWords : Int)) : emitLabelRef name s = .ok () (s.emitted [s.cfg.opnum.num .push, a]) := by
  rw [emitLabelRef, if_neg hn, emitOp_bind hc h0 .push (by omega), bind_of_ok (get_apply _), lookup_emitted hn, hl]
  exact emit_next hc h0 (by simpa using hf) a

theorem emitLabelRef_forward {name : Token} (hn : upper name ≠ here) (hl : lookup s name = none)
    (hf : S s.wp + 2 ≤ (s.cfg.memWords : Int)) :
    emitLabelRef name s =
      .ok () { s.emitted [s.cfg.opnum.num .push, placeholder] with fwd := s.fwd ++ [(name, s.wp + 1)] } := by
  rw [emitLabelRef, if_neg hn, emitOp_bind hc h0 .push (by omega), bind_of_ok (get_apply _), lookup_emitted hn, hl]
  refine (bind_of_ok (recordForward_emitted _ _ _) _).trans ?_
  exact emit_next (s := { s with fwd := s.fwd ++ [(name, s.wp + 1)] }) (ws := [_]) hc h0 hf placeholder

theorem emitCall_ok (name : Token) (hf : S s.wp + 5 ≤ (s.cfg.memWords : Int)) :
    emitCall name s =
      .ok () { s.emitted [s.cfg.opnum.num .puship, s.wp + 5, s.cfg.opnum.num .push, placeholder, s.cfg.opnum.num .jmp] with
               fwd := s.fwd ++ [(name, s.wp + 3)] } := by
  have position : ∀ ws, writePosition (s.emitted ws) = .ok (s.wp + BitVec.ofNat 32 ws.length) (s.emitted ws) := fun _ => rfl
  have target : w32 (S (s.wp + BitVec.ofNat 32 1) + 4) = s.wp + 5 := (w32_add _ 4).trans (BitVec.add_assoc _ _ _)
  rw [emitCall, emitOp_bind hc h0 .puship (by omega), bind_of_ok (position _), List.length_singleton, target,
    bind_of_ok (emit_next hc h0 (by simp; omega) _), bind_of_ok (emitOp_next hc h0 (by simp; omega) _),
    bind_of_ok (recordForward_emitted _ _ _)]
  refine (bind_of_ok (emit_next (s := { s with fwd := s.fwd ++ [(name, s.wp + 3)] }) (ws := [_, _, _]) hc h0
    (by simp; omega) placeholder) _).trans ?_
  exact emitOp_next (s := { s with fwd := s.fwd ++ [(name, s.wp + 3)] }) (ws := [_, _, _, _]) hc h0 hf .jmp

end

theorem emitNumeric_ok {t : Token} {n : Nat} (h : n ≤ 2147483647) : emitNumeric t n = emitPush (BitVec.ofNat 32 n) := by
  rw [emitNumeric, if_neg (by omega), w32, BitVec.ofInt_natCast]

theorem emitNumeric_large {t : Token} {n : Nat} (h : 2147483647 < n) : emitNumeric t n = asmError (.literalOutOfRange t) :=
  if_pos h

theorem emitLabelRef_here {name : Token} (h : upper name = here) : emitLabelRef name = asmError (.reservedLabel name) := if_pos h

theorem defineLabel_here {name : Token} (h : upper name = here) : defineLabel name = asmError (.reservedLabel (upper name)) :=
  if_pos h

theorem defineLabel_other {name : Token} (h : upper name ≠ here) : defineLabel name = recordLabel (upper name) := if_neg h

/-- Settles O49: the check comes before the write. -/
theorem emitRefusesPastMemory : Obligations.EmitRefusesPastMemory := fun _ _ => ⟨emit_full, emit_room⟩

/-- Settles O48: each form is a row of Words from the write position on, with at most one entry recorded between them. -/
theorem sourceFormsExpand : Obligations.SourceFormsExpand := by
  intro s t hc h0
  refine ⟨fun op => emitOp_ok hc h0 op, fun n hn hf => ?numeric, fun n hn => ?large, fun c hf => ?character,
    fun name hn => ⟨?reservedRef, ?reservedDef⟩, fun name a hn hl => emitLabelRef_known hc h0 hn hl,
    fun name hn hl => emitLabelRef_forward hc h0 hn hl, emitCall_ok hc h0 t, fun name hn => ?labelDef, emitHalt_ok hc h0,
    emitHalt_ok hc h0, rfl, rfl⟩
  case numeric => exact (congrFun (emitNumeric_ok hn) s).trans (emitPush_ok hc h0 _ hf)
  case large => exact congrFun (emitNumeric_large hn) s
  case character => rw [emitToken, emitPush_ok hc h0 _ hf, zext8_eq]; rfl
  case reservedRef => exact congrFun (emitLabelRef_here hn) s
  case reservedDef => exact congrFun (defineLabel_here hn) s
  case labelDef => exact congrFun (defineLabel_other hn) s

/-! ### The errors of a token -/

/-- The action never stops on `UnknownOpcode`. -/
def NeverUnknown {α : Type} (x : Asm α) : Prop := ∀ s e t, x s = .error e t → ∀ tok, e ≠ .unknownOpcode tok

theorem NeverUnknown.bind {α β : Type} {x : Asm α} {f : α → Asm β} (hx : NeverUnknown x) (hf : ∀ a, NeverUnknown (f a)) :
    NeverUnknown (x >>= f) := by
  intro s e t h
  obtain h | ⟨a, u, -, h⟩ := bind_error_iff.1 h
  · exact hx s e t h
  · exact hf a u e t h

theorem neverUnknown_of_ok {α : Type} {x : Asm α} {g : State → α} {f : State → State} (h : ∀ s, x s = .ok (g s) (f s)) :
    NeverUnknown x := by
  intro s e t he
  rw [h s] at he
  cases he

theorem neverUnknown_asmError {e : AsmError} (h : ∀ tok, e ≠ .unknownOpcode tok) : NeverUnknown (asmError e : Asm Unit) := by
  intro s e' t he
  cases he
  exact h

theorem neverUnknown_emit (w : Word) : NeverUnknown (emit w) := by
  intro s e t he
  rcases Int.lt_or_le (S s.wp) (s.cfg.memWords : Int) with hr | hr
  · rw [emit_room hr] at he; cases he
  · rw [emit_full hr] at he; cases he; nofun

theorem neverUnknown_emitOp (op : Opcode) : NeverUnknown (emitOp op) := fun s => neverUnknown_emit _ s

theorem neverUnknown_recordForward (name : Token) : NeverUnknown (recordForward name) := neverUnknown_of_ok fun _ => rfl

theorem neverUnknown_writePosition : NeverUnknown writePosition := neverUnknown_of_ok fun _ => rfl

theorem neverUnknown_emitPush (w : Word) : NeverUnknown (emitPush w) :=
  .bind (neverUnknown_emitOp _) fun _ => neverUnknown_emit w

theorem neverUnknown_emitHalt : NeverUnknown emitHalt :=
  .bind neverUnknown_writePosition fun _ => .bind (neverUnknown_emitOp _) fun _ => .bind (neverUnknown_emit _) fun _ =>
    neverUnknown_emitOp _

theorem neverUnknown_emitLabelRef (name : Token) : NeverUnknown (emitLabelRef name) := by
  by_cases hn : upper name = here
  · rw [emitLabelRef_here hn]
    exact neverUnknown_asmError nofun
  · rw [emitLabelRef, if_neg hn]
    refine .bind (neverUnknown_emitOp _) fun _ => .bind (neverUnknown_of_ok get_apply) fun u => ?_
    cases lookup u name with
    | some a => exact neverUnknown_emit a
    | none => exact .bind (neverUnknown_recordForward name) fun _ => neverUnknown_emit _

theorem neverUnknown_emitCall (name : Token) : NeverUnknown (emitCall name) :=
  .bind (neverUnknown_emitOp _) fun _ => .bind neverUnknown_writePosition fun _ => .bind (neverUnknown_emit _) fun _ =>
    .bind (neverUnknown_emitOp _) fun _ => .bind (neverUnknown_recordForward name) fun _ => .bind (neverUnknown_emit _) fun _ =>
      neverUnknown_emitOp _

/-- `UnknownOpcode` is the error of no token (rule R192). -/
theorem neverUnknown_emitToken (t : Token) (c : TokenClass) : NeverUnknown (emitToken t c) := by
  cases c with
  | endOfStream => exact neverUnknown_emitHalt
  | haltKeyword => exact neverUnknown_emitHalt
  | comment => exact neverUnknown_of_ok fun _ => rfl
  | labelDef name =>
    show NeverUnknown (defineLabel name)
    by_cases hn : upper name = here
    · rw [defineLabel_here hn]
      exact neverUnknown_asmError nofun
    · rw [defineLabel_other hn]
      exact neverUnknown_of_ok fun _ => rfl
  | opcode op => exact neverUnknown_emitOp op
  | literal c =>
    cases c with
    | labelRef name => exact neverUnknown_emitLabelRef name
    | numeric n =>
      show NeverUnknown (emitNumeric t n)
      rcases Nat.lt_or_ge 2147483647 n with hn | hn
      · rw [emitNumeric_large hn]
        exact neverUnknown_asmError nofun
      · rw [emitNumeric_ok hn]
        exact neverUnknown_emitPush _
    | character code => exact neverUnknown_emitPush _
    | unknownEscape => exact neverUnknown_asmError nofun
    | bareWord => exact neverUnknown_emitCall t

end Sys2Proof.Machine
end

section
/-! SUPPORT. The whole compile phase (46_assembler_patch_table.md rules R170, R175, R179, R190, R193 to R195): its frame, its two
ends, and what a successful one on a reset machine has made. -/

namespace Sys2Proof.Machine

/-! ### The frame of the compile phase -/

/-- `assemble` is the scan and, where it came to the end of the stream, the patch pass. -/
theorem assemble_error {text : List Byte} {s t : State} (h : scan (text.length + 1) (Source.start text) s = .error t) :
    assemble text s = t := by rw [assemble, h]

theorem assemble_ok {text : List Byte} {s t : State} {line : Nat}
    (h : scan (text.length + 1) (Source.start text) s = .ok (line, t)) : assemble text s = patchPass line t.fwd t := by
  rw [assemble, h]

/-- Settles O50: the scan and the patch pass both leave the engine alone. -/
theorem assemblerLeavesTheEngineAlone : Obligations.AssemblerLeavesTheEngineAlone := by
  intro text s
  cases h : scan (text.length + 1) (Source.start text) s with
  | error t =>
    rw [assemble_error h]
    exact (scan_same _ _ s).2 t h
  | ok r =>
    obtain ⟨line, t⟩ := r
    have scanned : t = { s with mem := t.mem, wp := t.wp, labels := t.labels, fwd := t.fwd } := (scan_same _ _ s).1 line t h
    have patched := congrArg (fun u : State => { u with
      mem := s.mem, wp := s.wp, labels := s.labels, fwd := s.fwd, asmDiag := s.asmDiag, diags := s.diags })
      (patch_same line t.fwd t)
    rw [assemble_ok h]
    refine patched.trans ?_
    rw [scanned]

section
variable (text : List Byte) (s : State)

@[simp] theorem assemble_cfg : (assemble text s).cfg = s.cfg := (congrArg State.cfg (assemblerLeavesTheEngineAlone text s) :)
@[simp] theorem assemble_ip : (assemble text s).ip = s.ip := (congrArg State.ip (assemblerLeavesTheEngineAlone text s) :)
@[simp] theorem assemble_ds : (assemble text s).ds = s.ds := (congrArg State.ds (assemblerLeavesTheEngineAlone text s) :)
@[simp] theorem assemble_rs : (assemble text s).rs = s.rs := (congrArg State.rs (assemblerLeavesTheEngineAlone text s) :)
@[simp] theorem assemble_running : (assemble text s).running = s.running :=
  (congrArg State.running (assemblerLeavesTheEngineAlone text s) :)
@[simp] theorem assemble_fault : (assemble text s).fault = s.fault :=
  (congrArg State.fault (assemblerLeavesTheEngineAlone text s) :)
@[simp] theorem assemble_phase : (assemble text s).phase = s.phase :=
  (congrArg State.phase (assemblerLeavesTheEngineAlone text s) :)

end

/-! ### The two ends of the compile phase, from any state -/

theorem SameEngine.asmDiag {s t : State} (h : SameEngine s t) : t.asmDiag = s.asmDiag := (congrArg State.asmDiag h :)

theorem SameEngine.diags {s t : State} (h : SameEngine s t) : t.diags = s.diags := (congrArg State.diags h :)

/-- A token that stops with an error ends the compile phase. -/
theorem assemble_of_error {text : List Byte} {s u v : State} {src : Source} {e : AsmError} (at' : ScanAt text s src u)
    (h : emitToken (tokenAt src) (classify (tokenAt src)) u = .error e v) :
    assemble text s = v.reportAsm e (some (nextToken src).2.line) := by
  obtain ⟨fuel, hl, hs⟩ := scan_of_scanAt at'
  obtain ⟨n, rfl⟩ : ∃ n, fuel = n + 1 := Nat.exists_eq_succ_of_ne_zero (by omega)
  exact assemble_error (hs.trans (scan_error h))

/-- The end of the stream leads to the patch pass. -/
theorem assemble_of_end {text : List Byte} {s u v : State} {src : Source} (at' : ScanAt text s src u) (hk : tokenAt src = [])
    (h : emitToken [] .endOfStream u = .ok () v) : assemble text s = patchPass (nextToken src).2.line v.fwd v := by
  obtain ⟨fuel, hl, hs⟩ := scan_of_scanAt at'
  obtain ⟨n, rfl⟩ : ∃ n, fuel = n + 1 := Nat.exists_eq_succ_of_ne_zero (by omega)
  exact assemble_ok (hs.trans (scan_end hk h))

/-- A token on which the scan of `text` from `s` ends. -/
def ScanEnds (text : List Byte) (s : State) : Prop :=
  ∃ (src : Source) (u : State), ScanAt text s src u ∧
    ((∃ (e : AsmError) (v : State), emitToken (tokenAt src) (classify (tokenAt src)) u = .error e v) ∨
     (tokenAt src = [] ∧ ∃ v : State, emitToken [] .endOfStream u = .ok () v))

/-- From any place it comes to the scan comes to an end, since every other token consumes a byte. -/
theorem scanAt_ends {text : List Byte} {s u : State} {src : Source} (h : ScanAt text s src u) : ScanEnds text s := by
  induction hn : src.rest.length using Nat.strong_induction_on generalizing src u with
  | _ n ih =>
    subst hn
    cases he : emitToken (tokenAt src) (classify (tokenAt src)) u with
    | error e v => exact ⟨src, u, h, .inl ⟨e, v, he⟩⟩
    | ok _ v =>
      by_cases hk : tokenAt src = []
      · rw [classify_eos.2 hk, hk] at he
        exact ⟨src, u, h, .inr ⟨hk, v, he⟩⟩
      · exact ih _ (afterToken_length hk) (.token h hk he) rfl

/-- Settles O54: up to the token that ends it the scan reports nothing; an error is the one report, and the patch pass makes the
others. -/
theorem assemblyErrorsAreReported : Obligations.AssemblyErrorsAreReported := by
  intro text s
  refine ⟨fun src u v e at' h => ?error, fun src u v at' hk h => ?ends, scanAt_ends .start⟩
  case error =>
    have same : SameEngine s v := (scanAt_same at').trans ((leaves_tok _ _ u).2 e v h)
    exact ⟨assemble_of_error at' h, same.asmDiag, same.diags, neverUnknown_emitToken _ _ u e v h⟩
  case ends =>
    have same : SameEngine s v := (scanAt_same at').trans ((leaves_tok _ _ u).1 () v h)
    have reports := patch_reports (nextToken src).2.line v.fwd v
    rw [assemble_of_end at' hk h, reports.1, reports.2, same.asmDiag, same.diags]
    exact ⟨rfl, rfl⟩

/-! ### A compile phase from a good state -/

/-- The patch pass `t` of the state `u` to which the final halt idiom led from `s1`. -/
structure Patched (s1 u t : State) : Prop where
  start : AsmGood s1
  halt : Emitted s1 [s1.cfg.opnum.num .jmp, s1.wp + 2, s1.cfg.opnum.num .push] u
  patch : ∃ line, t = patchPass line u.fwd u

/-- Everything a compile phase from a good state leads to. -/
theorem assemble_cases {text : List Byte} {s : State} (h : AsmGood s) :
    (∃ u e l, AsmTables u ∧ assemble text s = u.reportAsm e (some l)) ∨ ∃ s1 u, Patched s1 u (assemble text s) := by
  have spec := scan_spec (text.length + 1) (Source.start text) s h (Nat.lt_succ_self _)
  cases hs : scan (text.length + 1) (Source.start text) s with
  | error t =>
    rw [assemble_error hs]
    exact .inl (spec.2 t hs)
  | ok r =>
    obtain ⟨line, u⟩ := r
    obtain ⟨s1, good, halt⟩ := spec.1 line u hs
    exact .inr ⟨s1, u, good, halt, line, assemble_ok hs⟩

namespace Patched
variable {s1 u t : State} (h : Patched s1 u t)
include h

theorem good : AsmGood u := h.halt.good

theorem same : { t with mem := u.mem, asmDiag := u.asmDiag, diags := u.diags } = u := by
  obtain ⟨line, rfl⟩ := h.patch
  exact patch_same line u.fwd u

theorem cfg : t.cfg = u.cfg := (congrArg State.cfg h.same :)
theorem wp : t.wp = u.wp := (congrArg State.wp h.same :)
theorem fwd : t.fwd = u.fwd := (congrArg State.fwd h.same :)
theorem labels : t.labels = u.labels := (congrArg State.labels h.same :)
theorem startCfg : u.cfg = s1.cfg := (congrArg State.cfg h.halt.same :)
theorem startFwd : u.fwd = s1.fwd := (congrArg State.fwd h.halt.same :)
theorem startLabels : u.labels = s1.labels := (congrArg State.labels h.halt.same :)

/-- The write position has passed the three Words of the halt idiom. -/
theorem wp_eq : S t.wp = S s1.wp + 3 ∧ t.wp = s1.wp + 3 := by
  have low := h.start.wp0
  have high := h.good.wpM
  have hm := memWords_bounds h.good.cwf
  have three : S u.wp = S s1.wp + 3 := h.halt.wp
  have sum : S (s1.wp + 3) = S s1.wp + 3 := S_add (k := 3) low (by omega)
  rw [h.wp]
  exact ⟨three, BitVec.eq_of_toInt_eq (three.trans sum.symm)⟩

/-- What the patch pass has done, in one place: every entry lies in memory, and no two at one address. -/
theorem spec :
    (∀ n, (∀ e ∈ u.fwd, addrIndex e.2 ≠ n) → t.mem.read n = u.mem.read n) ∧
    (t.asmDiag = [] → ∀ e ∈ u.fwd, lookup u e.1 = some (t.mem.read (addrIndex e.2))) ∧
    ∀ n, lookup t n = lookup u n := by
  obtain ⟨line, rfl⟩ := h.patch
  have high := h.good.wpM
  have inMemory : ∀ e ∈ u.fwd, addrIndex e.2 < u.cfg.memWords := fun e he => by
    have := h.good.fin e he
    simp only [addrIndex]
    omega
  have distinct : u.fwd.Pairwise (fun e f => addrIndex e.2 ≠ addrIndex f.2) := by
    refine List.Pairwise.imp_of_mem (fun {e f} he _ lt => ?_) h.good.ord
    have := h.good.fin e he
    simp only [addrIndex]
    omega
  obtain ⟨-, -, others, -, resolved, lookups⟩ := patch_spec line u.fwd u h.good.wf h.good.within inMemory distinct
  exact ⟨others, resolved, lookups⟩

/-- The Words of the halt idiom lie past every entry, so the patch pass leaves them. -/
theorem read_halt (k : Nat) (hk : k < 3) :
    t.memRead (t.wp - BitVec.ofNat 32 (k + 1)) =
      [s1.cfg.opnum.num .jmp, s1.wp + 2, s1.cfg.opnum.num .push].getD k 0 := by
  have low := h.start.wp0
  have three := h.wp_eq.1
  have index : addrIndex (t.wp - BitVec.ofNat 32 (k + 1)) = addrIndex u.wp - 1 - k := by
    rw [(addrIndex_sub (by push_cast; omega)).1, h.wp]
    omega
  rw [State.memRead, index, h.spec.1 _ ?unpatched, h.halt.last k hk]
  intro e he
  have last := h.start.fin e (h.startFwd ▸ he)
  rw [h.wp] at three
  simp only [addrIndex]
  omega

/-- The Words of memory that the image does not hold are `NOP`. -/
theorem read_blank {n : Nat} (hn : addrIndex t.wp ≤ n) : t.mem.read n = 0 := by
  rw [h.wp] at hn
  rw [h.spec.1 n ?unpatched, h.good.blank n hn]
  intro e he
  have := h.good.fin e he
  simp only [addrIndex] at hn ⊢
  omega

end Patched

/-! ### A successful compile phase on a reset machine -/

section
variable {text : List Byte} {s0 s : State}

theorem compiled_iff {s : State} : s.compiled = true ↔ s.asmDiag = [] := List.isEmpty_iff

theorem hostAssemble_reset (h : hostAssemble text s0.toReset = .next s) : s = assemble text s0.toReset.beginFill :=
  hostAssemble_next h

/-- It has reported nothing, so it has come to the patch pass. -/
theorem patched_of_compiled (hc : s0.cfg.wf = true) (h : hostAssemble text s0.toReset = .next s) (ok : s.compiled = true) :
    ∃ s1 u, Patched s1 u s := by
  rw [hostAssemble_reset h] at ok ⊢
  obtain ⟨u, e, l, -, hr⟩ | hp := assemble_cases (text := text) (asmGood_reset hc)
  · rw [compiled_iff, hr] at ok
    simp at ok
  · exact hp

end

/-- A running machine on a halt idiom, two steps on (43_jumps.md rule R131). -/
theorem core_run_halt {s : State} (hc : s.cfg.wf = true) (he : s.Enabled) (h0 : 0 ≤ S s.ip)
    (hM : S s.ip + 2 < (s.cfg.memWords : Int)) (room : hasRoom s.cfg.dstackCap s.ds.length = true)
    (hpush : s.memRead s.ip = s.cfg.opnum.num .push) (hoperand : s.memRead (s.ip + 1) = s.ip + 2)
    (hjmp : s.memRead (s.ip + 2) = s.cfg.opnum.num .jmp) :
    core.run 2 s = .next { s with ip := s.ip + 2, running := false } := by
  obtain ⟨first, second, -⟩ := haltIdiomHalts s s.ip hc he rfl h0 hM room hpush hoperand hjmp
  rw [core_run_succ first, core_run_succ second]
  rfl

/-- Settles O51: the final halt idiom is emitted last, past every entry of the patch pass. -/
theorem everyImageEndsInAHalt : Obligations.EveryImageEndsInAHalt := by
  intro text s0 s hc h ok
  obtain ⟨s1, u, p⟩ := patched_of_compiled hc h ok
  have assembled := hostAssemble_reset h
  have cfg : s.cfg = s0.cfg := by rw [assembled]; simp
  have cfg1 : s1.cfg = s0.cfg := by rw [← p.startCfg, ← p.cfg, cfg]
  have low := p.start.wp0
  obtain ⟨three, sum⟩ := p.wp_eq
  have high : S s.wp ≤ (s0.cfg.memWords : Int) := by
    rw [p.wp, ← cfg, p.cfg]
    exact p.good.wpM
  have back1 : s.wp - 1 = s1.wp + 2 := by rw [sum]; bv_omega
  have back2 : s.wp - 2 = s1.wp + 1 := by rw [sum]; bv_omega
  have back3 : s.wp - 3 = s1.wp := by rw [sum]; bv_omega
  have push : s.memRead (s.wp - 3) = s0.cfg.opnum.num .push := cfg1 ▸ p.read_halt 2 (by decide)
  have operand : s.memRead (s.wp - 2) = s.wp - 1 := (p.read_halt 1 (by decide)).trans back1.symm
  have jmp : s.memRead (s.wp - 1) = s0.cfg.opnum.num .jmp := cfg1 ▸ p.read_halt 0 (by decide)
  refine ⟨by omega, high, push, operand, jmp, fun room => ?_⟩
  have ds : s.ds = [] := by rw [assembled]; simp
  have fault : s.fault = none := by rw [assembled]; simp
  rw [back1] at operand jmp ⊢
  rw [back2] at operand
  rw [back3] at push ⊢
  rw [← cfg] at hc push jmp high room
  rw [← List.length_nil (α := Word), ← ds] at room
  exact core_run_halt (s := { s with ip := s1.wp, running := true }) hc ⟨rfl, fault⟩ low
    (show S s1.wp + 2 < (s.cfg.memWords : Int) by omega) room push operand jmp

/-- Settles O52: the patch pass writes each entry's address, and no entry lies at the `PUSH` before another. -/
theorem everyForwardReferenceIsPatched : Obligations.EveryForwardReferenceIsPatched := by
  intro text s0 s hc h ok name pa hmem
  obtain ⟨s1, u, p⟩ := patched_of_compiled hc h ok
  have cfg : u.cfg = s0.cfg := by rw [← p.cfg, hostAssemble_reset h]; simp
  rw [p.fwd] at hmem
  obtain ⟨low, high, push⟩ := p.good.fin _ hmem
  obtain ⟨others, resolved, lookups⟩ := p.spec
  have before : addrIndex (pa - 1) = addrIndex pa - 1 := (addrIndex_sub (k := 1) low).1
  refine ⟨?resolved, ?push, low, p.wp ▸ high⟩
  case resolved => rw [lookups]; exact resolved (compiled_iff.1 ok) _ hmem
  case push =>
    rw [State.memRead, before, others _ fun f hf => p.good.gap _ hmem f hf, ← cfg]
    exact push

/-- Settles O53: the scan keeps the tables in order wherever it stops, and neither the report of an error nor the patch pass
touches them. -/
theorem tablesAreInOrder : Obligations.TablesAreInOrder := by
  intro text s0 s hc h
  have assembled := hostAssemble_reset h
  refine ⟨?fwd, ?labels, ?names, fun ok => ?image⟩
  case image =>
    obtain ⟨s1, u, p⟩ := patched_of_compiled hc h ok
    have three := p.wp_eq.1
    rw [p.labels, p.startLabels]
    intro e he
    obtain ⟨-, -, low, high⟩ := p.start.lab e he
    exact ⟨low, by omega⟩
  all_goals
    obtain ⟨u, e, l, tables, hr⟩ | ⟨s1, u, p⟩ := assemble_cases (text := text) (asmGood_reset hc)
  case fwd.inl => rw [assembled, hr]; exact tables.ord
  case fwd.inr => rw [assembled, p.fwd]; exact p.good.ord
  case labels.inl => rw [assembled, hr]; exact tables.labOrd
  case labels.inr => rw [assembled, p.labels]; exact p.good.labOrd
  case names.inl => rw [assembled, hr]; exact tables.lab
  case names.inr => rw [assembled, p.labels]; exact p.good.tables.lab

end Sys2Proof.Machine
end

section
/-! SUPPORT. The image of memory (20_memory.md rules R62, R63) and the host's operations (70_reset_and_hazards.md rules R252,
R253, R262): when each is accepted, what it then does, and that every move from outside keeps the invariant. -/

namespace Sys2Proof.Machine

/-! ### The end of the program -/

namespace Memory
variable {m : Memory}

/-- The last listed address is the highest. -/
theorem lt_programEnd (h : m.wf = true) {q : Cell} (hq : q ∈ m) : q.1 < m.programEnd := by
  obtain ⟨p, hp⟩ : ∃ p, m.getLast? = some p := Option.isSome_iff_exists.1 (List.getLast?_isSome.2 (List.ne_nil_of_mem hq))
  obtain ⟨before, hm⟩ := List.getLast?_eq_some_iff.1 hp
  have rising : m.Pairwise (fun p q => p.1 < q.1) := by
    simp only [Memory.wf, Bool.and_eq_true, decide_eq_true_eq] at h
    exact h.1
  rw [hm, List.pairwise_append] at rising
  rw [programEnd, hp]
  rw [hm, List.mem_append, List.mem_singleton] at hq
  obtain hq | rfl := hq
  · exact Nat.lt_succ_of_lt (rising.2.2 q hq p (List.mem_singleton.2 rfl))
  · exact Nat.lt_succ_self _

theorem read_past_end (h : m.wf = true) {n : Nat} (hn : m.programEnd ≤ n) : m.read n = 0 := by
  by_contra hr
  have := lt_programEnd h (mem_of_read hr)
  simp only at this
  omega

theorem read_last (h : m.wf = true) (hp : 0 < m.programEnd) : m.read (m.programEnd - 1) ≠ 0 := by
  rw [programEnd] at hp ⊢
  cases hl : m.getLast? with
  | none => simp [hl] at hp
  | some p =>
    have hmem := List.mem_of_getLast? hl
    have nonzero : p.2 ≠ 0 := by
      simp only [Memory.wf, Bool.and_eq_true, List.all_eq_true, bne_iff_ne] at h
      exact h.2 p hmem
    simpa [read_of_mem h hmem] using nonzero

theorem programEnd_le {cfg : Config} (h : memWithin cfg m = true) : m.programEnd ≤ cfg.memWords := by
  rw [programEnd]
  cases hl : m.getLast? with
  | none => exact Nat.zero_le _
  | some p =>
    simp only [memWithin, List.all_eq_true, decide_eq_true_eq] at h
    exact h p (List.mem_of_getLast? hl)

end Memory

/-- Settles O58: the listed cells are the Words that are not `NOP`, and the last listed is the highest. -/
theorem programEndIsPastTheLastWord : Obligations.ProgramEndIsPastTheLastWord := by
  intro m h
  refine ⟨fun n => Memory.read_past_end h, Memory.read_last h, fun blank => ?_⟩
  by_contra hp
  exact Memory.read_last h (Nat.pos_of_ne_zero hp) (blank _)

/-! ### The image, Word by Word -/

/-- The four bytes of a Word give it back, in either order. -/
theorem bytesWord_wordBytes (w : Word) :
    w.extractLsb' 24 8 ++ w.extractLsb' 16 8 ++ w.extractLsb' 8 8 ++ w.extractLsb' 0 8 = w := by
  ext i hi
  simp only [BitVec.getElem_append, BitVec.getElem_extractLsb']
  split
  · simp [BitVec.getLsbD_eq_getElem hi]
  · split
    · rw [show 8 + (i - 8) = i by omega, BitVec.getLsbD_eq_getElem hi]
    · split
      · rw [show 16 + (i - 8 - 8) = i by omega, BitVec.getLsbD_eq_getElem hi]
      · rw [show 24 + (i - 8 - 8 - 8) = i by omega, BitVec.getLsbD_eq_getElem hi]

theorem bytesWords_wordBytes_append (order : ByteOrder) (w : Word) (bs : List Byte) :
    bytesWords order (wordBytes order w ++ bs) = (bytesWords order bs).map (w :: ·) := by
  cases order <;> simp [wordBytes, bytesWords, bytesWord, bytesWord_wordBytes]

theorem bytesWords_flatMap (order : ByteOrder) (ws : List Word) :
    bytesWords order (ws.flatMap (wordBytes order)) = some ws := by
  induction ws with
  | nil => rfl
  | cons w ws ih => rw [List.flatMap_cons, bytesWords_wordBytes_append, ih]; rfl

namespace Memory

/-- What a filled memory reads as: the Words laid, and elsewhere what was there. -/
theorem read_fill {m : Memory} (h : m.wf = true) (n k : Nat) (ws : List Word) :
    (m.fill n ws).read k = if n ≤ k then ws[k - n]?.getD (m.read k) else m.read k := by
  induction ws generalizing m n with
  | nil => simp [Memory.fill]
  | cons w ws ih =>
    rw [Memory.fill, ih (write_wf h n w), read_write h]
    rcases Nat.lt_trichotomy k n with hk | rfl | hk
    · rw [if_neg (by omega), if_neg (by omega), if_neg (by omega)]
    · simp
    · rw [if_pos (by omega), if_neg (by omega), if_pos (by omega), show k - n = k - (n + 1) + 1 by omega, List.getElem?_cons_succ]

/-- An image laid into blank memory is the memory it was made of. -/
theorem fill_image {m : Memory} (h : m.wf = true) : Memory.fill [] 0 m.image = m := by
  refine ext (fill_wf wf_nil 0 _) h fun n => ?_
  rw [read_fill wf_nil, if_pos (Nat.zero_le n), Nat.sub_zero, read_nil, image, List.getElem?_map]
  rcases Nat.lt_or_ge n m.programEnd with hn | hn
  · simp [List.getElem?_range hn]
  · simp [hn, read_past_end h hn]

@[simp] theorem image_length (m : Memory) : m.image.length = m.programEnd := by simp [image]

end Memory

/-! ### When a host operation is accepted -/

section
variable {s : State}

theorem whenStopped_of_running (h : s.running = true) (k : State → Answer) : whenStopped s k = .refused .engineRunning :=
  if_pos h

theorem beforeRun_of_running (h : s.running = true) (k : State → Answer) : beforeRun s k = .refused .engineRunning :=
  whenStopped_of_running h _

theorem beforeRun_of_fault (hr : s.running = false) (hf : s.fault ≠ none) (k : State → Answer) :
    beforeRun s k = .refused .faultLatched :=
  (whenStopped_of_stopped hr _).trans (if_pos (Option.isSome_iff_ne_none.2 hf))

theorem beforeRun_of_no_fault (hr : s.running = false) (hf : s.fault = none) (k : State → Answer) :
    beforeRun s k = if s.phase = .run then .refused .notFilling else k s := by
  rw [beforeRun, whenStopped_of_stopped hr, if_neg (by simp [hf])]
  cases s.phase <;> rfl

theorem beforeRun_of_ready (hr : s.running = false) (hf : s.fault = none) (hp : s.phase ≠ .run) (k : State → Answer) :
    beforeRun s k = k s := by rw [beforeRun_of_no_fault hr hf, if_neg hp]

theorem beforeRun_of_run (hr : s.running = false) (hf : s.fault = none) (hp : s.phase = .run) (k : State → Answer) :
    beforeRun s k = .refused .notFilling := by rw [beforeRun_of_no_fault hr hf, if_pos hp]

theorem whenFilling_of_running (h : s.running = true) (k : State → Answer) : whenFilling s k = .refused .engineRunning :=
  beforeRun_of_running h _

theorem whenFilling_of_fault (hr : s.running = false) (hf : s.fault ≠ none) (k : State → Answer) :
    whenFilling s k = .refused .faultLatched := beforeRun_of_fault hr hf _

theorem whenFilling_of_run (hr : s.running = false) (hf : s.fault = none) (hp : s.phase = .run) (k : State → Answer) :
    whenFilling s k = .refused .notFilling := beforeRun_of_run hr hf hp _

theorem whenFilling_of_ready (hr : s.running = false) (hf : s.fault = none) (hp : s.phase ≠ .run) (k : State → Answer) :
    whenFilling s k = k s.beginFill := beforeRun_of_ready hr hf hp _

theorem hostRun_of_fill (hr : s.running = false) (hf : s.fault = none) (hp : s.phase = .fill) :
    hostRun s = if s.compiled then .next { s with ip := 0, running := true, phase := .run } else .refused .failedImage := by
  rw [hostRun, beforeRun_of_ready hr hf (by rw [hp]; decide), if_pos hp]

theorem hostRun_of_reset (hr : s.running = false) (hf : s.fault = none) (hp : s.phase = .reset) :
    hostRun s = .refused .notFilled := by
  rw [hostRun, beforeRun_of_ready hr hf (by rw [hp]; decide), if_neg (by rw [hp]; decide)]

theorem hostEmit_room (hr : s.running = false) (hf : s.fault = none) (hp : s.phase ≠ .run) (w : Word)
    (room : S s.wp < (s.cfg.memWords : Int)) :
    hostEmit w s = .next { s with phase := .fill, mem := s.mem.write (addrIndex s.wp) w, wp := s.wp + 1 } := by
  rw [hostEmit, whenFilling_of_ready hr hf hp, emit_room (s := s.beginFill) room]
  rfl

theorem hostEmit_full (hr : s.running = false) (hf : s.fault = none) (hp : s.phase ≠ .run) (w : Word)
    (full : (s.cfg.memWords : Int) ≤ S s.wp) :
    hostEmit w s = .next (s.beginFill.reportAsm (.imageTooLarge s.wp) none) := by
  rw [hostEmit, whenFilling_of_ready hr hf hp, emit_full (s := s.beginFill) full]
  rfl

theorem hostAssemble_of_ready (hr : s.running = false) (hf : s.fault = none) (hp : s.phase ≠ .run) (text : List Byte) :
    hostAssemble text s = .next (assemble text s.beginFill) := whenFilling_of_ready hr hf hp _

theorem loadImage_ragged (hr : s.running = false) (hf : s.fault = none) (hp : s.phase ≠ .run) {bytes : List Byte}
    (hb : bytesWords s.cfg.imageByteOrder bytes = none) : loadImage bytes s = .refused .imageRagged := by
  rw [loadImage, whenFilling_of_ready hr hf hp, State.beginFill_cfg, hb]

theorem loadImage_words (hr : s.running = false) (hf : s.fault = none) (hp : s.phase ≠ .run) {bytes : List Byte}
    {ws : List Word} (hb : bytesWords s.cfg.imageByteOrder bytes = some ws) :
    loadImage bytes s = if ws.length ≤ s.cfg.memWords then .next { s with phase := .fill, mem := s.mem.fill 0 ws }
      else .refused .imageTooLong := by
  rw [loadImage, whenFilling_of_ready hr hf hp, State.beginFill_cfg, hb]
  rfl

theorem saveImage_of_running (hr : s.running = true) : saveImage s = .refused .engineRunning := if_pos hr

theorem saveImage_of_run (hr : s.running = false) (hp : s.phase = .run) : saveImage s = .next (imageBytes s) := by
  rw [saveImage, if_neg (by simp [hr]), hp]

theorem saveImage_before_run (hr : s.running = false) (hp : s.phase ≠ .run) : saveImage s = .refused .notRun := by
  rw [saveImage, if_neg (by simp [hr])]
  cases h : s.phase with
  | run => exact absurd h hp
  | reset => rfl
  | fill => rfl

theorem readOut_of_running (hr : s.running = true) : readOut s = none := if_pos hr

theorem readOut_of_stopped (hr : s.running = false) :
    readOut s = some { running := s.running, fault := s.fault, ip := s.ip, ds := s.ds, rs := s.rs, mem := s.mem } :=
  if_neg (by simp [hr])

end

/-- Settles O43: the engine, the latch and the phase decide in this order, and each accepted operation does its own move. -/
theorem runStartsAtZero : Obligations.RunStartsAtZero := by
  intro s
  refine ⟨hostRun_of_reset, fun hr hf hp => ⟨fun ok => ?runs, fun bad => ?failed⟩, fun hr hf hp => ?fill,
    fun hr hf hp => ?afterRun, fun hr hf => ?faulted, fun hr => ?stopped, fun hr => ?running⟩
  case runs => rw [hostRun_of_fill hr hf hp, if_pos (compiled_iff.2 ok)]
  case failed => rw [hostRun_of_fill hr hf hp, if_neg (mt compiled_iff.1 bad)]
  case fill =>
    refine ⟨hostEmit_room hr hf hp, hostEmit_full hr hf hp, fun _ => loadImage_ragged hr hf hp,
      fun bytes ws hb => ⟨fun fits => ?_, fun long => ?_⟩, hostAssemble_of_ready hr hf hp, saveImage_before_run hr hp⟩
    · rw [loadImage_words hr hf hp hb, if_pos fits]
    · rw [loadImage_words hr hf hp hb, if_neg (by omega)]
  case afterRun =>
    have refused := whenFilling_of_run hr hf hp
    exact ⟨beforeRun_of_run hr hf hp _, fun _ => refused _, fun _ => refused _, fun _ => refused _⟩
  case faulted =>
    have refused := whenFilling_of_fault hr hf
    exact ⟨beforeRun_of_fault hr hf _, fun _ => refused _, fun _ => refused _, fun _ => refused _⟩
  case stopped =>
    have accepted := whenStopped_of_stopped hr
    exact ⟨accepted _, rfl, saveImage_of_run hr, fun _ => accepted _, fun _ => accepted _, readOut_of_stopped hr⟩
  case running =>
    have refused := whenStopped_of_running hr
    have fillRefused := whenFilling_of_running hr
    exact ⟨beforeRun_of_running hr _, refused _, fun _ => fillRefused _, fun _ => fillRefused _, fun _ => refused _,
      fun _ => refused _, fun _ => fillRefused _, saveImage_of_running hr, readOut_of_running hr⟩

/-- Settles O59: the bytes give the Words of the image back, and they are all of memory that is not `NOP`. -/
theorem savedImageLoadsBack : Obligations.SavedImageLoadsBack := by
  intro s t hw hin hr hp hcap horder htr htf htp blank
  refine ⟨imageBytes s, saveImage_of_run hr hp, ?_⟩
  have words : bytesWords t.cfg.imageByteOrder (imageBytes s) = some s.mem.image := by
    rw [horder, imageBytes, bytesWords_flatMap]
  have fits : s.mem.image.length ≤ t.cfg.memWords := by
    rw [Memory.image_length]
    exact (Memory.programEnd_le hin).trans hcap
  rw [loadImage_words htr htf htp words, if_pos fits, blank, Memory.fill_image hw]

/-! ### Moves from outside keep the invariant -/

namespace State.Inv
variable {s t : State}

/-- A fill keeps the invariant when it leaves the engine alone and keeps the compile phase's part of it. -/
theorem of_fill (h : s.Inv) (hp : s.phase ≠ .run) (bounds : AsmBounds t) (phase : t.phase = .fill) (ip : t.ip = s.ip)
    (ds : t.ds = s.ds) (rs : t.rs = s.rs) (running : t.running = s.running) (fault : t.fault = s.fault) : t.Inv := by
  obtain ⟨ip0, ds0, rs0, stopped, noFault⟩ := h.filling hp
  rw [ip0] at ip
  rw [ds0] at ds
  rw [rs0] at rs
  rw [stopped] at running
  rw [noFault] at fault
  refine ⟨bounds.cwf, bounds.wf, bounds.within, ?ip, ?depths, fun _ => running, fun hr => ?blank,
    fun _ => ⟨ip, ds, rs, running, fault⟩, bounds.wpIn, bounds.fwdIn⟩
  case ip => rw [ip]; exact ipWithin_of_inBounds (inBounds_zero bounds.cwf)
  case depths => rw [State.StacksWithin, ds, rs]; exact ⟨withinCap_zero _, withinCap_zero _⟩
  case blank => rw [phase] at hr; cases hr

theorem beginFill_bounds (h : s.Inv) : AsmBounds s.beginFill := ⟨h.cfgWf, h.memWf, h.memIn, h.wpIn, h.fwdIn⟩

theorem run (h : s.Inv) : ({ s with ip := 0, running := true, phase := .run } : State).fault = none →
    ({ s with ip := 0, running := true, phase := .run } : State).Inv := fun noFault =>
  { h with
    ipIn := ipWithin_of_inBounds (inBounds_zero h.cfgWf)
    stopped := fun hf => absurd noFault hf
    blank := nofun
    filling := fun hp => absurd rfl hp }

/-- The bindings of the streams are no part of the invariant. -/
theorem setInput (h : s.Inv) (input : InputStream) : ({ s with input := input } : State).Inv := { h with }

theorem setOutBinding (h : s.Inv) (n : Nat) : ({ s with outBinding := n } : State).Inv := { h with }

theorem hostRun (h : s.Inv) (hr : Machine.hostRun s = .next t) : t.Inv := by
  obtain ⟨-, hf, -, -, rfl⟩ := hostRun_next hr
  exact h.run hf

theorem hostEmit (h : s.Inv) {w : Word} (he : Machine.hostEmit w s = .next t) : t.Inv := by
  obtain ⟨hr, hf, hp, -⟩ := whenFilling_next he
  rcases Int.lt_or_le (S s.wp) (s.cfg.memWords : Int) with room | full
  · have bounds := (emit_ok h.beginFill_bounds (emit_room (w := w) (s := s.beginFill) room)).1
    rw [hostEmit_room hr hf hp w room] at he
    cases he
    exact h.of_fill hp bounds rfl rfl rfl rfl rfl rfl
  · rw [hostEmit_full hr hf hp w full] at he
    cases he
    exact h.of_fill hp (h.beginFill_bounds.report _ _) rfl rfl rfl rfl rfl rfl

theorem hostAssemble (h : s.Inv) {text : List Byte} (ha : Machine.hostAssemble text s = .next t) : t.Inv := by
  obtain ⟨-, -, hp, -⟩ := whenFilling_next ha
  rw [hostAssemble_next ha]
  refine h.of_fill hp (assemble_bounds h.beginFill_bounds) ?_ ?_ ?_ ?_ ?_ ?_ <;> simp

theorem loadImage (h : s.Inv) {bytes : List Byte} (hl : Machine.loadImage bytes s = .next t) : t.Inv := by
  obtain ⟨hr, hf, hp, -⟩ := whenFilling_next hl
  cases hb : bytesWords s.cfg.imageByteOrder bytes with
  | none => rw [loadImage_ragged hr hf hp hb] at hl; cases hl
  | some ws =>
    rw [loadImage_words hr hf hp hb] at hl
    split at hl
    · next fits =>
      cases hl
      have bounds : AsmBounds { s with phase := .fill, mem := s.mem.fill 0 ws } :=
        ⟨h.cfgWf, Memory.fill_wf h.memWf 0 ws, Memory.fill_within h.memIn (by omega), h.wpIn, h.fwdIn⟩
      exact h.of_fill hp bounds rfl rfl rfl rfl rfl rfl
    · cases hl

end State.Inv

theorem hostReset_next {s t : State} (h : hostReset s = .next t) : t = s.toReset := by
  obtain ⟨-, h⟩ := whenStopped_next h
  cases h
  rfl

/-- Settles O60: each move is a reset, a fill that keeps the bounds, the start of the run, or a change of a stream; and `run` is
accepted in the fill phase alone, where the engine is as reset leaves it. -/
theorem hostMovesKeepTheInvariant : Obligations.HostMovesKeepTheInvariant := by
  intro s t hs
  refine ⟨fun move => ?keeps, fun hr => ?boots⟩
  case keeps =>
    obtain h | h | ⟨w, h⟩ | ⟨text, h⟩ | ⟨bytes, h⟩ | ⟨input, h⟩ | ⟨n, h⟩ | ⟨b, rfl⟩ | rfl := move
    · rw [hostReset_next h]; exact State.toReset_inv hs.cfgWf
    · exact hs.hostRun h
    · exact hs.hostEmit h
    · exact hs.hostAssemble h
    · exact hs.loadImage h
    · rw [rebindInput_next h]; exact hs.setInput input
    · rw [rebindOutput_next h]; exact hs.setOutBinding n
    · rw [supplyByte]
      split
      · exact hs
      · exact hs.setInput _
    · exact hs.setInput _
  case boots =>
    obtain ⟨-, -, phase, clean, -⟩ := hostRun_next hr
    obtain ⟨ip, ds, rs, stopped, noFault⟩ := hs.filling (by rw [phase]; decide)
    exact ⟨phase, ip, ds, rs, stopped, noFault, clean⟩

/-- Settles O57: a reset machine accepts the compile phase, a successful one leaves every later Word `NOP`, and what it makes
meets the invariant, and so the boot requirements and the run. -/
theorem compiledMachineIsReadyToRun : Obligations.CompiledMachineIsReadyToRun := by
  intro text s0 hc
  have accepted : hostAssemble text s0.toReset = .next (assemble text s0.toReset.beginFill) :=
    hostAssemble_of_ready rfl rfl (by simp) text
  refine ⟨_, accepted, fun ok => ?_⟩
  obtain ⟨s1, u, p⟩ := patched_of_compiled hc accepted ok
  have inv := (State.toReset_inv hc).hostAssemble accepted
  have runs := hostRun_of_fill (s := assemble text s0.toReset.beginFill) (by simp) (by simp) (by simp)
  rw [if_pos ok] at runs
  have index : U (assemble text s0.toReset.beginFill).wp = addrIndex (assemble text s0.toReset.beginFill).wp := by
    have low := inv.wpIn.1
    simp only [addrIndex, S, U, BitVec.toInt_eq_toNat_cond] at low ⊢
    split at low <;> split <;> omega
  exact ⟨fun n hn => p.read_blank (index ▸ hn), (hostMovesKeepTheInvariant _ _ inv).2 runs, _, runs, rfl, inv.hostRun runs,
    rfl, by simp⟩

end Sys2Proof.Machine
end
